-- ==== Sys2Proof/Word.lean ====
section
/-! DEFINITION. Word.lean: the widths of the block's data (00_scope.md R10): bytes, the 40-bit command word,
the 16-bit response word. Bit 0 is the least significant bit; every value is unsigned. -/

namespace Sys2Proof

/-- A byte: registers, buffer bytes, bus bytes (R10). -/
abbrev Byte := BitVec 8

/-- A command word: `op = cmd[39:32]`, `arg = cmd[31:0]` (R101). -/
abbrev CmdWord := BitVec 40

/-- A response word: `kind = resp[15:12]`, `cause = resp[11:8]`, `data = resp[7:0]` (R106). -/
abbrev RespWord := BitVec 16

end Sys2Proof
end

