-- ==== Sys2Proof/Bus.lean ====
section
/-! DEFINITION. Bus.lean: the vocabulary of the two-wire bus as the spec models it, by conditions and whole
bytes (20_memory.md R70, R72): the phases of bus ownership, the five primitives, the fields of the bus control
register, the environment's outcomes, the bus events, and the labels and trace events of the status decoder. Types only. -/

namespace Sys2Proof

/-- Whether and how the master owns the bus (10_state.md R32). -/
inductive Phase where
  /-- the master does not own the bus -/
  | idle
  /-- START or repeated START sent, no address yet -/
  | started
  /-- addressed, write direction -/
  | mt
  /-- addressed, read direction -/
  | mr
deriving DecidableEq, Repr, Inhabited

/-- A bus primitive as it stands in `inflight` (10_state.md R37): `TXA` and `TXB` with the byte sent, `RX` with the
acknowledge policy (`true` is ACKNOWLEDGE). -/
inductive Prim where
  | start
  | stop
  | txa (b : Byte)
  | txb (b : Byte)
  | rx (ack : Bool)
deriving DecidableEq, Repr, Inhabited

/-- The fields of `CTRL` (10_state.md R25); their positions are parameters (`CtrlLayout`). -/
inductive CtrlField where
  /-- `INT`, the interrupt-complete flag -/
  | int
  /-- `EA`, ack-enable -/
  | ea
  /-- `STA`, start-request -/
  | sta
  /-- `STO`, stop-request -/
  | sto
  /-- `EN`, enable -/
  | en
deriving DecidableEq, Repr, Inhabited

/-- An outcome the environment gives to a primitive in flight (20_memory.md R72). -/
inductive Answer where
  | granted
  | ack
  | nak
  | byte (d : Byte)
  | done
  | arbLost
deriving DecidableEq, Repr, Inhabited

/-- What was being performed when arbitration was lost: the argument of `Lost(op)` (20_memory.md R70, R72). -/
inductive LostOp where
  | start
  | tx (b : Byte)
  | rx
deriving DecidableEq, Repr, Inhabited

/-- The acknowledge bit of a transferred byte (20_memory.md R70). -/
inductive AckBit where
  | ack
  | nak
deriving DecidableEq, Repr, Inhabited

/-- A bus event (20_memory.md R70). -/
inductive BusEvent where
  /-- `S`: a START sent while the master did not own the bus -/
  | s
  /-- `Sr`: a repeated START -/
  | sr
  /-- `P`: a STOP condition -/
  | p
  /-- `TX(b, a)`: the master sent `b` and received acknowledge bit `a` -/
  | tx (b : Byte) (a : AckBit)
  /-- `RX(b, a)`: the master received `b` and returned acknowledge bit `a` -/
  | rx (b : Byte) (a : AckBit)
  /-- `Lost(op)`: the master lost arbitration while performing `op` -/
  | lost (op : LostOp)
  /-- `Reset`: the block was reset -/
  | reset
deriving DecidableEq, Repr, Inhabited

/-- The twelve diagnostic labels (42_status_decoder.md R202), in the order of their ids. -/
inductive Label where
  | start
  | rstart
  | arbLost
  | mtSlaAck
  | mtSlaNak
  | mtDataAck
  | mtDataNak
  | mrSlaAck
  | mrSlaNak
  | mrDataAck
  | mrDataNak
  | unknown
deriving DecidableEq, Repr, Inhabited

/-- A trace event `(label, code)` of the diagnostic history (60_exceptions.md R262). -/
structure TraceEvent where
  label : Label
  code : Byte
deriving DecidableEq, Repr, Inhabited

end Sys2Proof
end

