-- ==== Sys2Proof/Config.lean ====
section
/-! DEFINITION. Config.lean: the parameters of 00_scope.md R8, as the configuration record the rule asks for: `Params` has
every row of its table, a record of plain data that stands in State, so that every statement holds for all of its values
and names the parameter (log 2, log 23). The defaults of the table are in Machine/Defaults.lean. The free values (R12
`draw`, R72, R87) are opaque constants. -/

namespace Sys2Proof.Config

/-- `WAIT_RETRY_BOUND`, whose only value in the spec is `none`: unbounded (70_reset_and_hazards.md R288). -/
def waitRetryBound : Option Nat := none

/-- The status code parameters `ST_*` of R8. -/
structure StatusCodes where
  /-- `ST_START`: START sent -/
  start : Byte
  /-- `ST_RSTART`: repeated START sent -/
  rstart : Byte
  /-- `ST_SLA_W_ACK`: address+write sent, ACK received -/
  slaWAck : Byte
  /-- `ST_SLA_W_NAK`: address+write sent, NAK received -/
  slaWNak : Byte
  /-- `ST_DATA_W_ACK`: data byte sent, ACK received -/
  dataWAck : Byte
  /-- `ST_DATA_W_NAK`: data byte sent, NAK received -/
  dataWNak : Byte
  /-- `ST_ARB_LOST`: arbitration lost -/
  arbLost : Byte
  /-- `ST_SLA_R_ACK`: address+read sent, ACK received -/
  slaRAck : Byte
  /-- `ST_SLA_R_NAK`: address+read sent, NAK received -/
  slaRNak : Byte
  /-- `ST_DATA_R_ACK`: data byte received, ACK returned -/
  dataRAck : Byte
  /-- `ST_DATA_R_NAK`: data byte received, NAK returned -/
  dataRNak : Byte
  /-- `ST_NOINFO`: not a known code -/
  noInfo : Byte
deriving DecidableEq, Repr, Inhabited

/-- The eleven known codes, in the order of the label ids of 42_status_decoder.md R202. -/
def StatusCodes.known (c : StatusCodes) : List Byte :=
  [c.start, c.rstart, c.arbLost, c.slaWAck, c.slaWNak, c.dataWAck, c.dataWNak,
   c.slaRAck, c.slaRNak, c.dataRAck, c.dataRNak]

/-- The CTRL bit positions of R8 (10_state.md R25): five different bits of the byte. -/
structure CtrlLayout where
  int : Fin 8
  ea : Fin 8
  sta : Fin 8
  sto : Fin 8
  en : Fin 8
  /-- no two fields share a bit -/
  distinct : [int, ea, sta, sto, en].Nodup := by decide
deriving DecidableEq, Repr

/-- The position of a field. -/
def CtrlLayout.pos (l : CtrlLayout) : CtrlField → Fin 8
  | .int => l.int
  | .ea => l.ea
  | .sta => l.sta
  | .sto => l.sto
  | .en => l.en

/-- The register addresses of R8 (10_state.md R22): five different addresses of the 3-bit register space; the others are
reserved. -/
structure RegisterMap where
  ctrl : BitVec 3
  rate : BitVec 3
  status : BitVec 3
  data : BitVec 3
  fsmState : BitVec 3
  /-- no two registers share an address -/
  distinct : [ctrl, rate, status, data, fsmState].Nodup := by decide
deriving DecidableEq, Repr

/-- The addresses a register stands at (R22). -/
def RegisterMap.addrs (m : RegisterMap) : List (BitVec 3) := [m.ctrl, m.rate, m.status, m.data, m.fsmState]

/-- The configuration record of R8, a field for each row of its table; `STATUS_PS_BITS`, `STATUS_MASK` and `DIR_READ` follow
from the fields beside them. -/
structure Params where
  /-- `BASE_CLOCK_HZ`, OPEN (R8, 92_eei_decisions.md D13; log 1) -/
  baseClockHz : Nat
  /-- `FREQ_W` (R8, D13): the width of the frequency field of INIT; 32 bits of `arg` can hold it -/
  freqW : Nat
  /-- `RATE_W` (R8, D13; 93 K5): the bits of the bus rate register that a divisor may fill, of its eight (10_state.md R22) -/
  rateW : Fin 9
  /-- `STATUS_CODE_BITS` (R8): the high bits of the status register that hold the code; the others are the prescaler's -/
  statusCodeBits : Fin 9
  /-- the `ST_*` codes (R8, D10) -/
  codes : StatusCodes
  /-- `RESET_STATUS`, of which the code bits are used (R8, D11) -/
  resetStatus : Byte
  /-- `PS_RESET`, of which the prescaler bits are used (10_state.md R30, D12) -/
  psReset : Byte
  /-- `RESET_DATA` (R8, D20) -/
  resetData : Byte
  /-- `stop_status`, OPEN (R8, D11), as a table from old code to new code; a code it does not list is mapped to
  `ST_NOINFO`, the default of the row. Every function on codes has such a table. -/
  stopStatus : List (Byte × Byte)
  /-- `PAGE_SIZE` (R8): bytes of one hardware page of the reference device -/
  pageSize : Nat
  /-- `EEPROM_SIZE` (R8): bytes of the reference device -/
  eepromSize : Nat
  /-- the device is whole pages (20_memory.md R68) -/
  wholePages : pageSize ∣ eepromSize := by decide
  /-- "an 8-bit offset" reaches every byte (R8) -/
  eepromFits : 0 < eepromSize ∧ eepromSize ≤ 256 := by decide
  /-- `DEV_ADDR`, of which bits 7..1 are used (20_memory.md R68, D16) -/
  devAddr : Byte
  /-- `DIR_WRITE` (R8, D15); `DIR_READ` is the other value of the direction bit -/
  dirWrite : BitVec 1
  /-- `BUF_SIZE` (R8, 20_memory.md R62, D21): bytes of buffer memory, at the indices below it -/
  bufSize : Nat
  /-- the CTRL bit positions (R8, D7) -/
  ctrlLayout : CtrlLayout
  /-- the register addresses (R8, D6) -/
  registers : RegisterMap
  /-- `LABEL_TEXT[0..11]` (42_status_decoder.md R206, D25) -/
  labelText : Vector String 12
deriving DecidableEq, Repr

/-- `STATUS_PS_BITS` (R8): the low bits of the status register, the prescaler bits. -/
def Params.statusPsBits (c : Params) : Nat := 8 - c.statusCodeBits

/-- `STATUS_MASK` (R8, R134): a 1 at every code bit, above the prescaler bits. -/
def Params.statusMask (c : Params) : Byte := BitVec.ofNat 8 ((2 ^ c.statusCodeBits.val - 1) * 2 ^ c.statusPsBits)

/-- The largest value of the bus rate register, `2 ^ RATE_W - 1` (R8, R132). -/
def Params.rateMax (c : Params) : Nat := 2 ^ c.rateW.val - 1

/-- `DIR_READ` (R8). -/
def Params.dirRead (c : Params) : BitVec 1 := ~~~c.dirWrite

/-- The constraints of R9 on any values of the status code parameters: the known codes are pairwise distinct, each has the
prescaler bits zero, `0x99` is not known and `ST_NOINFO` is not known. -/
abbrev Params.codesWf (c : Params) : Prop :=
  c.codes.known.Nodup ∧ (∀ k ∈ c.codes.known, k &&& ~~~c.statusMask = 0#8) ∧ 0x99#8 ∉ c.codes.known ∧
    c.codes.noInfo ∉ c.codes.known

/-- The constraints of R9 and R68 on a configuration: the status codes are well formed, and `DEV_ADDR` has its bits 3..0
zero. -/
abbrev Params.wf (c : Params) : Prop := c.codesWf ∧ c.devAddr &&& 0x0F#8 = 0#8

/-- `draw(byte)` (R12; 93_implementation_defined.md V1, V2): the n-th free byte (log 6). -/
opaque freeByte : Nat → Byte

/-- The n-th answer of an environment that is left free, `none` for no answer yet (20_memory.md R72, R73; log 6). -/
opaque freeAnswer : Nat → Prim → Option Answer

/-- In the form of 20_memory.md R87 without a counter: how many further events on the bus pass before `write_cycle_done`
fires, for the n-th busy window. A number, so it fires: that is its weak fairness; any number, so no bound is known
(log 6, log 13). -/
opaque freeWriteTime : Nat → Nat

end Sys2Proof.Config
end

