-- ==== Sys2Proof/Machine/Defaults.lean ====
section
/-! DEFINITION. Machine/Defaults.lean: the values that stand in the table of 00_scope.md R8, one definition each, so
that a value a test proves wrong can be mended here. They are the configuration of `State.reset`; every statement
holds for every configuration (log 2). -/

namespace Sys2Proof.Machine

/-- The status code values of R8 (`from general knowledge`, 92_eei_decisions.md D10; 93 K1). -/
def defaultCodes : Config.StatusCodes where
  start := 0x08#8
  rstart := 0x10#8
  slaWAck := 0x18#8
  slaWNak := 0x20#8
  dataWAck := 0x28#8
  dataWNak := 0x30#8
  arbLost := 0x38#8
  slaRAck := 0x40#8
  slaRNak := 0x48#8
  dataRAck := 0x50#8
  dataRNak := 0x58#8
  noInfo := 0xF8#8

/-- `BASE_CLOCK_HZ` of the spec's examples; the parameter is OPEN (R8, D13). DESIGN CHOICE, log 1. -/
def defaultBaseClockHz : Nat := 16000000

/-- The default of `stop_status`, the constant `ST_NOINFO` (R8, D11): no code is mapped to another. -/
def defaultStopStatus : List (Byte × Byte) := []

/-- `DEV_ADDR` (R8, 20_memory.md R68, D16). -/
def defaultDevAddr : Byte := 0xA0#8

/-- `DIR_WRITE` (R8, D15). -/
def defaultDirWrite : BitVec 1 := 0#1

/-- The CTRL bit positions of R8 (10_state.md R25, D7). -/
def defaultCtrlLayout : Config.CtrlLayout where
  int := 7
  ea := 6
  sta := 5
  sto := 4
  en := 2

/-- `busy_polls` of the reference device at State.reset (20_memory.md R87): the document's mock. DESIGN CHOICE, log 4. -/
def defaultBusyPolls : Option Nat := some 3

/-- The register addresses of R8 (10_state.md R22, D6). -/
def defaultRegisters : Config.RegisterMap where
  ctrl := 0#3
  rate := 1#3
  status := 2#3
  data := 3#3
  fsmState := 4#3

/-- `LABEL_TEXT[0..10]` and the four characters that open the fallback (42_status_decoder.md R206, D25). -/
def defaultLabelText : Vector String 12 :=
  #v["START sent", "REPEATED START sent", "Arbitration lost or NAK",
    "MT: SLA+W sent, ACK received", "MT: SLA+W sent, NAK received",
    "MT: data sent, ACK received", "MT: data sent, NAK received",
    "MR: SLA+R sent, ACK received", "MR: SLA+R sent, NAK received",
    "MR: data received, ACK returned", "MR: data received, NAK returned", "N/A "]

/-- The table of R8 with its defaults. -/
def defaultParams : Config.Params where
  baseClockHz := defaultBaseClockHz
  freqW := 32
  rateW := 8
  statusCodeBits := 5
  codes := defaultCodes
  resetStatus := defaultCodes.noInfo
  psReset := 0x00#8
  resetData := 0xFF#8
  stopStatus := defaultStopStatus
  pageSize := 8
  eepromSize := 256
  devAddr := defaultDevAddr
  dirWrite := defaultDirWrite
  bufSize := 256
  ctrlLayout := defaultCtrlLayout
  registers := defaultRegisters
  labelText := defaultLabelText

end Sys2Proof.Machine
end

