-- ==== Sys2Proof/Syntax.lean ====
section
/-! DEFINITION. Syntax.lean: the 17 commands of the command port, one constructor per row of opcode_table.json
(30_encoding.md R103), with the operand fields of R102 and R107. -/

namespace Sys2Proof

/-- A command with its operands. `ack` and `en` are one-bit fields: `true` is 1. -/
inductive Instr where
  /-- INIT freq (R132): `freq` is an unsigned frequency in hertz -/
  | init (freq : BitVec 32)
  /-- START (R140) -/
  | start
  /-- STOP (R144) -/
  | stop
  /-- TXA sla, rw (R148): 7-bit device address, direction bit (0 write, 1 read) -/
  | txa (sla : BitVec 7) (rw : BitVec 1)
  /-- TXB byte (R151) -/
  | txb (byte : Byte)
  /-- RX ack (R154): 1 is ACKNOWLEDGE, 0 is NO_ACKNOWLEDGE -/
  | rx (ack : Bool)
  /-- STATUS (R134) -/
  | status
  /-- RD_BYTE addr (R180) -/
  | rdByte (addr : Byte)
  /-- WR_BYTE addr, data (R181) -/
  | wrByte (addr data : Byte)
  /-- WR_PAGE start, len (R183): `len` is 1..255 -/
  | wrPage (start len : Byte)
  /-- SEQ_RD start, len (R185): `len` is 1..255 -/
  | seqRd (start len : Byte)
  /-- WAIT_WC (R186) -/
  | waitWc
  /-- DECODE code (R210) -/
  | decode (code : Byte)
  /-- TRACE en (R221) -/
  | trace (en : Bool)
  /-- REG_RD reg (R222): `reg` is 0..4 -/
  | regRd (reg : BitVec 3)
  /-- BUF_WR idx, val (R223) -/
  | bufWr (idx val : Byte)
  /-- BUF_RD idx (R224) -/
  | bufRd (idx : Byte)
deriving DecidableEq, Repr, Inhabited

end Sys2Proof
end

