-- ==== Sys2Proof/WellFormed.lean ====
section
/-! DEFINITION. WellFormed.lean: the operand values an instruction takes with the widths and register addresses of a
configuration (30_encoding.md R102, R105 step 3, 60_exceptions.md R243). Every other bound is the width of its field. -/

namespace Sys2Proof

/-- `freq` is `FREQ_W` bits wide in INIT (with the table's 32, every value), `len` is not 0 in WR_PAGE and SEQ_RD, `reg` is the
address of a register in REG_RD (with the table's addresses, 0..4). Every value of every other field is taken. -/
def Instr.wellFormed (c : Config.Params) : Instr → Bool
  | .init freq => freq >>> c.freqW == 0#32
  | .start => true
  | .stop => true
  | .txa _ _ => true
  | .txb _ => true
  | .rx _ => true
  | .status => true
  | .rdByte _ => true
  | .wrByte _ _ => true
  | .wrPage _ len => len != 0#8
  | .seqRd _ len => len != 0#8
  | .waitWc => true
  | .decode _ => true
  | .trace _ => true
  | .regRd reg => c.registers.addrs.contains reg
  | .bufWr _ _ => true
  | .bufRd _ => true

end Sys2Proof
end

