-- ==== Sys2Proof/Decode.lean ====
section
/-! DEFINITION. Decode.lean: the command encoding of 30_encoding.md (R101 to R108): the opcode map, the seven
formats, a decoder that is total on 40-bit words and rejects by cause (R105, R242), and the encoder. The decoder reads no
state; `FREQ_W` and the register addresses, by which R102 and R105 say which words are legal, are parameters of R8, so it
takes the configuration, which no step changes (log 23). -/

namespace Sys2Proof

/-- The seven layouts of `arg` (R102). -/
inductive Format where
  | none
  | freq
  | addr
  | byte
  | bit
  | pair
  | reg
deriving DecidableEq, Repr, Inhabited

/-- The reserved bits of a format, as a mask on the whole word: every bit of `arg` that no field names (R102); with
`FREQ_W` = 32 `F_FREQ` has none. -/
def Format.reserved (c : Config.Params) : Format → CmdWord
  | .none => 0x00FFFFFFFF#40
  | .freq => 0x00FFFFFFFF#40 &&& (0x00FFFFFFFF#40 <<< c.freqW)
  | .addr => 0x00FFFFFF00#40
  | .byte => 0x00FFFFFF00#40
  | .bit => 0x00FFFFFFFE#40
  | .pair => 0x00FFFF0000#40
  | .reg => 0x00FFFFFFF8#40

/-- The assigned opcodes, named by mnemonic (R103). -/
inductive Opcode where
  | init
  | start
  | stop
  | txa
  | txb
  | rx
  | status
  | rdByte
  | wrByte
  | wrPage
  | seqRd
  | waitWc
  | decode
  | trace
  | regRd
  | bufWr
  | bufRd
deriving DecidableEq, Repr, Inhabited

/-- The rows of R103 in the document's order. -/
def Opcode.all : List Opcode :=
  [.init, .start, .stop, .txa, .txb, .rx, .status, .rdByte, .wrByte, .wrPage, .seqRd, .waitWc,
   .decode, .trace, .regRd, .bufWr, .bufRd]

/-- The value of `op` (R103). -/
def Opcode.code : Opcode → Byte
  | .init => 0x01#8
  | .start => 0x02#8
  | .stop => 0x03#8
  | .txa => 0x04#8
  | .txb => 0x05#8
  | .rx => 0x06#8
  | .status => 0x07#8
  | .rdByte => 0x10#8
  | .wrByte => 0x11#8
  | .wrPage => 0x12#8
  | .seqRd => 0x13#8
  | .waitWc => 0x14#8
  | .decode => 0x20#8
  | .trace => 0x21#8
  | .regRd => 0x22#8
  | .bufWr => 0x23#8
  | .bufRd => 0x24#8

/-- The format of each command (R102, R103). -/
def Opcode.format : Opcode → Format
  | .init => .freq
  | .start => .none
  | .stop => .none
  | .txa => .addr
  | .txb => .byte
  | .rx => .bit
  | .status => .none
  | .rdByte => .byte
  | .wrByte => .pair
  | .wrPage => .pair
  | .seqRd => .pair
  | .waitWc => .none
  | .decode => .byte
  | .trace => .bit
  | .regRd => .reg
  | .bufWr => .pair
  | .bufRd => .byte

/-- The opcode a byte stands for, `none` if the byte is reserved (R103, R108). -/
def Opcode.ofByte (b : Byte) : Option Opcode := Opcode.all.find? (fun o => o.code == b)

/-- Why a command word is illegal (R105, 60_exceptions.md R242). -/
inductive IllegalCause where
  /-- cause 1: `op` is not one of the 17 assigned values -/
  | reservedOpcode
  /-- cause 2: a reserved bit of the instruction's format is 1 -/
  | reservedBit
  /-- cause 3: a field holds a value the instruction does not take -/
  | illegalField
deriving DecidableEq, Repr, Inhabited

/-- The 4-bit cause field of the ERR response (R106, R242). -/
def IllegalCause.code : IllegalCause → BitVec 4
  | .reservedOpcode => 1#4
  | .reservedBit => 2#4
  | .illegalField => 3#4

/-- `op = cmd[39:32]` (R101). -/
def CmdWord.op (w : CmdWord) : Byte := w.extractLsb' 32 8

/-- `cmd[7:0]`: the field of `F_BYTE` and the first field of `F_PAIR` (R102). -/
def CmdWord.lowByte (w : CmdWord) : Byte := w.extractLsb' 0 8

/-- `cmd[15:8]`: the second field of `F_PAIR` (R102). -/
def CmdWord.highByte (w : CmdWord) : Byte := w.extractLsb' 8 8

/-- The instruction of an assigned opcode with the fields of its format (R102, R103, R107). -/
def Opcode.instr (o : Opcode) (w : CmdWord) : Instr :=
  match o with
  | .init => .init (w.extractLsb' 0 32)
  | .start => .start
  | .stop => .stop
  | .txa => .txa (w.extractLsb' 1 7) (w.extractLsb' 0 1)
  | .txb => .txb (CmdWord.lowByte w)
  | .rx => .rx (w.getLsbD 0)
  | .status => .status
  | .rdByte => .rdByte (CmdWord.lowByte w)
  | .wrByte => .wrByte (CmdWord.lowByte w) (CmdWord.highByte w)
  | .wrPage => .wrPage (CmdWord.lowByte w) (CmdWord.highByte w)
  | .seqRd => .seqRd (CmdWord.lowByte w) (CmdWord.highByte w)
  | .waitWc => .waitWc
  | .decode => .decode (CmdWord.lowByte w)
  | .trace => .trace (w.getLsbD 0)
  | .regRd => .regRd (w.extractLsb' 0 3)
  | .bufWr => .bufWr (CmdWord.lowByte w) (CmdWord.highByte w)
  | .bufRd => .bufRd (CmdWord.lowByte w)

/-- Decoding, total on every 40-bit word, in the order of R105: opcode, reserved bits, field values. -/
def decode (c : Config.Params) (w : CmdWord) : Except IllegalCause Instr :=
  match Opcode.ofByte (CmdWord.op w) with
  | .none => .error .reservedOpcode
  | .some o =>
    if w &&& o.format.reserved c ≠ 0#40 then .error .reservedBit
    else if (o.instr w).wellFormed c then .ok (o.instr w)
    else .error .illegalField

/-- The opcode of an instruction (R103). -/
def Instr.opcode : Instr → Opcode
  | .init _ => .init
  | .start => .start
  | .stop => .stop
  | .txa _ _ => .txa
  | .txb _ => .txb
  | .rx _ => .rx
  | .status => .status
  | .rdByte _ => .rdByte
  | .wrByte _ _ => .wrByte
  | .wrPage _ _ => .wrPage
  | .seqRd _ _ => .seqRd
  | .waitWc => .waitWc
  | .decode _ => .decode
  | .trace _ => .trace
  | .regRd _ => .regRd
  | .bufWr _ _ => .bufWr
  | .bufRd _ => .bufRd

/-- `arg = cmd[31:0]` of an instruction: its fields at their places, every reserved bit 0 (R102, R104). -/
def Instr.arg : Instr → BitVec 32
  | .init freq => freq
  | .start => 0#32
  | .stop => 0#32
  | .txa sla rw => 0#24 ++ sla ++ rw
  | .txb byte => 0#24 ++ byte
  | .rx ack => 0#31 ++ BitVec.ofBool ack
  | .status => 0#32
  | .rdByte addr => 0#24 ++ addr
  | .wrByte addr data => 0#16 ++ data ++ addr
  | .wrPage addr len => 0#16 ++ len ++ addr
  | .seqRd addr len => 0#16 ++ len ++ addr
  | .waitWc => 0#32
  | .decode code => 0#24 ++ code
  | .trace en => 0#31 ++ BitVec.ofBool en
  | .regRd reg => 0#29 ++ reg
  | .bufWr idx val => 0#16 ++ val ++ idx
  | .bufRd idx => 0#24 ++ idx

/-- The command word of an instruction (R101 to R103). -/
def encode (i : Instr) : CmdWord := i.opcode.code ++ i.arg

/-- The command word of an opcode-table row's bits: the table and R101 number bits alike, bit 0 the least significant,
and a command is one word of 40 bits (R101), so the low `nbits` bits stand at their places and the rest are 0. -/
def cmdOfTableWord (nbits w : Nat) : CmdWord := BitVec.ofNat 40 (w % 2 ^ nbits)

/-- What the decoder reads from a table row's bits, with the parameters of the table of R8; none where it refuses, or where
more than 40 bits are given (every command word has one length, R101). -/
def decodeTableWord (nbits w : Nat) : Option Instr :=
  if nbits ≤ 40 then
    match decode Machine.defaultParams (cmdOfTableWord nbits w) with
    | .ok i => some i
    | .error _ => none
  else none

/-- A row of opcode_table.json: a word is that row's when `cmd & mask = value` (R105). -/
structure OpcodeRow where
  mnemonic : String
  value : CmdWord
  mask : CmdWord
deriving DecidableEq, Repr

/-- opcode_table.json, copied row for row: the table the decoder is held against (R105). -/
def opcodeTable : List OpcodeRow :=
  [⟨"INIT", 0x0100000000#40, 0xFF00000000#40⟩,
   ⟨"START", 0x0200000000#40, 0xFFFFFFFFFF#40⟩,
   ⟨"STOP", 0x0300000000#40, 0xFFFFFFFFFF#40⟩,
   ⟨"TXA", 0x0400000000#40, 0xFFFFFFFF00#40⟩,
   ⟨"TXB", 0x0500000000#40, 0xFFFFFFFF00#40⟩,
   ⟨"RX", 0x0600000000#40, 0xFFFFFFFFFE#40⟩,
   ⟨"STATUS", 0x0700000000#40, 0xFFFFFFFFFF#40⟩,
   ⟨"RD_BYTE", 0x1000000000#40, 0xFFFFFFFF00#40⟩,
   ⟨"WR_BYTE", 0x1100000000#40, 0xFFFFFF0000#40⟩,
   ⟨"WR_PAGE", 0x1200000000#40, 0xFFFFFF0000#40⟩,
   ⟨"SEQ_RD", 0x1300000000#40, 0xFFFFFF0000#40⟩,
   ⟨"WAIT_WC", 0x1400000000#40, 0xFFFFFFFFFF#40⟩,
   ⟨"DECODE", 0x2000000000#40, 0xFFFFFFFF00#40⟩,
   ⟨"TRACE", 0x2100000000#40, 0xFFFFFFFFFE#40⟩,
   ⟨"REG_RD", 0x2200000000#40, 0xFFFFFFFFF8#40⟩,
   ⟨"BUF_WR", 0x2300000000#40, 0xFFFFFF0000#40⟩,
   ⟨"BUF_RD", 0x2400000000#40, 0xFFFFFFFF00#40⟩]

end Sys2Proof
end

