-- ==== Sys2Proof/Machine/State.lean ====
section
/-! DEFINITION. Machine/State.lean: everything the spec gives the machine, as plain data: the block's registers and
hidden state (10_state.md), the environment with the reference device (20_memory.md R72, R80), the pending inputs,
the reasons a run is refused, and the state after reset (R42). -/

namespace Sys2Proof.Machine

/-- A byte memory: the listed cells, addresses strictly rising (Machine/Memory.lean). -/
abbrev Memory := List Host.Cell

/-- The modes of the reference device (20_memory.md R80). -/
inductive DevMode where
  | idle
  | control
  | pointer
  | write
  | read
  | deaf
deriving DecidableEq, Repr, Inhabited

/-- The reference device (20_memory.md R80, R87). -/
structure Device where
  /-- `mem`: the bytes that differ from an erased byte (`eepromBlank`) -/
  mem : Memory
  /-- `ptr` -/
  ptr : Byte
  /-- `mode` -/
  mode : DevMode
  /-- `pending`: offsets and bytes, oldest first -/
  pending : List (Byte × Byte)
  /-- `busy` -/
  busy : Bool
  /-- how long the busy window lasts: in the counter form of R87 the refusals left, in the other form the events left
  before `write_cycle_done` fires -/
  polls : Nat
  /-- `busy_polls` of R87, or `none` for the form in which `write_cycle_done` fires at some point between two
  events -/
  busyPolls : Option Nat
deriving DecidableEq, Repr, Inhabited

/-- The environment (20_memory.md R72): who answers the primitives. -/
inductive Env where
  /-- a scripted bus (R70): the coming answers, and the answers that come again and again after them; it never
  answers once it has none, or when its next answer is none that R72 gives the primitive (log 12) -/
  | scripted (now again : List Answer)
  /-- the reference device (R80 to R91) -/
  | device (d : Device)
  /-- any environment: each answer, or none yet, is a free value (R72, R73) -/
  | free
deriving DecidableEq, Repr, Inhabited

/-- The sequencer position `seq` (10_state.md R36); `seq.arg` is the operands of `cmd` (log 10). -/
structure Seq where
  /-- `seq.cmd`: the command being executed, `none` when the block is ready -/
  cmd : Option Instr
  /-- `seq.pc`: the index of the next primitive in the command's table -/
  pc : Nat
  /-- `seq.i`: the byte index of the WR_PAGE and SEQ_RD loops -/
  i : Byte
  /-- the MODEL's own: the primitive launched at `pc` whose completion flag is not yet observed (log 10) -/
  wait : Option Prim
deriving DecidableEq, Repr, Inhabited

/-- The position of a ready block (10_state.md R36, R42). -/
def Seq.idle : Seq := { cmd := none, pc := 0, i := 0#8, wait := none }

/-- The state of the machine. -/
@[ext]
structure State where
  /-- the configuration record of 00_scope.md R8 -/
  cfg : Config.Params
  /-- `CTRL` (10_state.md R25) -/
  ctrl : Byte
  /-- `RATE` (10_state.md R29) -/
  rate : Byte
  /-- `STATUS`, code and prescaler bits (10_state.md R30) -/
  status : Byte
  /-- `DATA` (10_state.md R33) -/
  data : Byte
  /-- `phase` (10_state.md R32) -/
  phase : Phase
  /-- `inflight` (10_state.md R37) -/
  inflight : Option Prim
  /-- `initialized` (10_state.md R35) -/
  initialized : Bool
  /-- `trace_en` (10_state.md R35) -/
  traceEn : Bool
  /-- `RESULT` (10_state.md R20) -/
  result : Byte
  /-- `seq` (10_state.md R36) -/
  seq : Seq
  /-- `BUF`: the bytes written since power-on (20_memory.md R62, R63) -/
  buf : Memory
  /-- the response port: the response to the last command accepted, `none` while it has none (30_encoding.md R106) -/
  resp : Option RespWord
  /-- the bus history, oldest first (10_state.md R38, 20_memory.md R70) -/
  busHistory : List BusEvent
  /-- the diagnostic history, oldest first (10_state.md R38, 60_exceptions.md R262) -/
  diagHistory : List TraceEvent
  /-- the environment (20_memory.md R72) -/
  env : Env
  /-- the MODEL's own: free values used so far (00_scope.md R12 `draw`; log 6) -/
  draws : Nat
  /-- the command words the host presents, the next one first (30_encoding.md R100, 70_reset_and_hazards.md R293) -/
  port : List CmdWord
  /-- the coming samples of the reset input, one per model step, none asserted after them (70_reset_and_hazards.md R270; log 7) -/
  resetPin : List Bool
  /-- the MODEL's own: how many further steps of R13 of the command one model step makes at most; 0 after reset, so that
  each of them is a step of the model (log 3) -/
  pace : Nat
deriving DecidableEq, Repr

/-- Why the machine stops with a fault: never. "There is no fatal/panic path in the core" (60_exceptions.md R240); the
one exception is a response (R241) and the violated contracts are refusals (R246). No constructor is raised by anyone,
so nothing here is unsafe (log 18). -/
inductive Fault : Type
deriving DecidableEq, Repr

/-- Why a run is refused (60_exceptions.md R246, 93_implementation_defined.md U1 to U9): the spec gives the situation
no meaning, and the refusal is kept for the rest of the run. Each is SAFE: the model stops where hardware would go on. -/
inductive Refusal where
  /-- raised by a `refused` arm of exec only: the instruction of this mnemonic has no meaning yet. Safe. -/
  | notModelled (mnemonic : String)
  /-- U1, raised by START, STOP, TXA, TXB, RX and the five transaction commands when `initialized = 0`. Safe. -/
  | notInitialized
  /-- U2, raised by a second INIT between two resets. Safe. -/
  | initTwice
  /-- U3, raised by INIT with a frequency outside the valid range. Safe. -/
  | initRange
  /-- U4, raised by STOP in phase IDLE. Safe. -/
  | stopWithoutStart
  /-- U5, raised by TXA in a phase other than STARTED. Safe. -/
  | addressNotAfterStart
  /-- U6, raised by TXB in a phase other than MT. Safe. -/
  | transmitNotInWrite
  /-- U7, raised by RX in a phase other than MR. Safe. -/
  | receiveNotInRead
  /-- U8, raised by WR_PAGE and BUF_RD reading a BUF byte never written since power-on. Safe. -/
  | unwrittenBuffer
  /-- U9, raised by a launch while a primitive is in flight: unreachable through the command port (R280). Safe. -/
  | controlWriteInFlight
deriving DecidableEq, Repr

/-- The reference device of `State.reset`: nothing written, `ptr` 0, not busy (20_memory.md R80). DESIGN CHOICE, log 4. -/
def Device.fresh : Device where
  mem := []
  ptr := 0x00#8
  mode := .idle
  pending := []
  busy := false
  polls := 0
  busyPolls := defaultBusyPolls

/-- The machine right after reset (10_state.md R42): every register at the value of the table, the port ready, BUF
unwritten. What the spec leaves open is chosen in log 1, 2, 3, 4, 6, 7, 8, 9. -/
def State.reset : State where
  cfg := defaultParams
  ctrl := 0x00#8
  rate := 0x00#8
  status := (defaultParams.resetStatus &&& defaultParams.statusMask) ||| (defaultParams.psReset &&& ~~~defaultParams.statusMask)
  data := defaultParams.resetData
  phase := .idle
  inflight := none
  initialized := false
  traceEn := false
  result := 0x00#8
  seq := Seq.idle
  buf := []
  resp := none
  busHistory := []
  diagHistory := []
  env := .device Device.fresh
  draws := 0
  port := []
  resetPin := []
  pace := 0

end Sys2Proof.Machine
end

