-- ==== Sys2Proof/Machine/Operands.lean ====
section
/-! DEFINITION. Machine/Operands.lean: the operand values the commands compute with: control bytes (30_encoding.md R107,
20_memory.md R68, 41_eeprom_client_transactions.md R172), the divisor of INIT (40_bus_driver_primitives.md R132, R133),
the acknowledge policy of a sequential read (R185), the offsets of the device and their pages (20_memory.md R68, R84, R85). -/

namespace Sys2Proof.Machine

/-- The byte TXA sends: `{sla, rw}` (R107). -/
def controlByte (sla : BitVec 7) (rw : BitVec 1) : Byte := sla ++ rw

/-- `sla = DEV_ADDR[7:1]` (20_memory.md R68). -/
def deviceSla (c : Config.Params) : BitVec 7 := c.devAddr.extractLsb' 1 7

/-- `SLA_W = {DEV_ADDR[7:1], DIR_WRITE}` (R172). -/
def slaW (c : Config.Params) : Byte := controlByte (deviceSla c) c.dirWrite

/-- `SLA_R = {DEV_ADDR[7:1], DIR_READ}` (R172). -/
def slaR (c : Config.Params) : Byte := controlByte (deviceSla c) c.dirRead

/-- The address field of a control byte, `b[7:1]` (20_memory.md R82). -/
def addressOf (b : Byte) : BitVec 7 := b.extractLsb' 1 7

/-- The direction bit of a control byte, `b[0]` (20_memory.md R82). -/
def directionOf (b : Byte) : BitVec 1 := b.extractLsb' 0 1

/-- The divisor of INIT (R132, R133): floor divisions in the order written; `none` where `freq = 0`, where the divisor
is negative and where it is not representable in RATE. -/
def divisor (c : Config.Params) (freq : BitVec 32) : Option Byte :=
  if freq = 0#32 then none
  else if c.baseClockHz / freq.toNat < 16 then none
  else if c.rateMax < (c.baseClockHz / freq.toNat - 16) / 2 then none
  else some (BitVec.ofNat 8 ((c.baseClockHz / freq.toNat - 16) / 2))

/-- The acknowledge policy of byte `i` of a sequential read of `len` bytes: ACKNOWLEDGE unless it is the last (R185). -/
def ackPolicy (i len : Byte) : Bool := i.ult (len - 1#8)

/-- Whether the counted loops of WR_PAGE and SEQ_RD go on after `seq.i` has become `i`: `seq.i < len` (R183, R185). -/
def loopGoesOn (i len : Byte) : Bool := i.ult len

/-- The offset of the device that a number stands for, modulo `EEPROM_SIZE` (20_memory.md R83, R85): with the table's 256 a
byte is the offset it is (log 23). -/
def deviceOffset (c : Config.Params) (n : Nat) : Byte := BitVec.ofNat 8 (n % c.eepromSize)

/-- The device's pointer after a data byte: it advances within its page of `PAGE_SIZE` bytes, so that of the 8-byte page only
bits 2..0 advance (20_memory.md R68, R84). -/
def pageNext (c : Config.Params) (ptr : Byte) : Byte :=
  BitVec.ofNat 8 (ptr.toNat / c.pageSize * c.pageSize + (ptr.toNat + 1) % c.pageSize)

end Sys2Proof.Machine
end

