-- ==== Sys2Proof/Machine/Flags.lean ====
section
/-! DEFINITION. Machine/Flags.lean: the flags and fields of the bus registers: the layout of CTRL and its write rule
(10_state.md R24 to R28), the two completion flags (R26, R27), the fields of STATUS (R30), the status code, phase, data
and bus event of each outcome (R31, R32, R33; 20_memory.md R72), and the FSMSTATE view (R34). -/

namespace Sys2Proof.Machine

/-- A byte with the bit of one field set (R25). -/
def ctrlMask (l : Config.CtrlLayout) (f : CtrlField) : Byte := BitVec.twoPow 8 (l.pos f)

/-- The byte with the bits of these fields set and every other bit 0: `INT|STA|EN` and the like (R24, R131). -/
def ctrlByte (l : Config.CtrlLayout) : List CtrlField → Byte
  | [] => 0x00#8
  | f :: fs => ctrlMask l f ||| ctrlByte l fs

/-- One field of CTRL (R25). -/
def ctrlField (l : Config.CtrlLayout) (f : CtrlField) (c : Byte) : Bool := c.getLsbD (l.pos f)

/-- The bits of CTRL that are fields; the others are reserved (R25). -/
def ctrlUsed (l : Config.CtrlLayout) : Byte := ctrlByte l [.int, .ea, .sta, .sto, .en]

/-- The bits of CTRL that a write stores: EA, STA, STO, EN (R25, 40_bus_driver_primitives.md R131). -/
def ctrlStored (l : Config.CtrlLayout) : Byte := ctrlByte l [.ea, .sta, .sto, .en]

/-- A write of `w` to CTRL: it stores EA, STA, STO and EN, a 1 in INT clears INT (write one to clear) and the reserved bits
stay 0 (R24). -/
def ctrlWrite (l : Config.CtrlLayout) (old w : Byte) : Byte :=
  (w &&& ctrlStored l) ||| (if ctrlField l .int w then 0x00#8 else old &&& ctrlMask l .int)

/-- `CTRL.INT <- 1` (R26). -/
def ctrlSetInt (l : Config.CtrlLayout) (c : Byte) : Byte := ctrlMask l .int ||| c

/-- `CTRL.STO <- 0` (R27). -/
def ctrlClearSto (l : Config.CtrlLayout) (c : Byte) : Byte := c &&& ~~~(ctrlMask l .sto)

/-- The fields that a launch writes as 1 beside INT, which it writes to clear it: the request the primitive needs and EN
(40_bus_driver_primitives.md R131). They are what CTRL reads while the primitive is in flight. -/
def launchFields : Prim → List CtrlField
  | .start => [.sta, .en]
  | .stop => [.sto, .en]
  | .txa _ => [.en]
  | .txb _ => [.en]
  | .rx ack => if ack then [.ea, .en] else [.en]

/-- The byte a launch writes to CTRL (40_bus_driver_primitives.md R131). -/
def launchWord (l : Config.CtrlLayout) (p : Prim) : Byte := ctrlByte l (.int :: launchFields p)

/-- What completion does to CTRL: STOP clears STO, every other primitive sets INT (R26, R27, R136). -/
def ctrlComplete (l : Config.CtrlLayout) : Prim → Byte → Byte
  | .stop, c => ctrlClearSto l c
  | .start, c => ctrlSetInt l c
  | .txa _, c => ctrlSetInt l c
  | .txb _, c => ctrlSetInt l c
  | .rx _, c => ctrlSetInt l c

/-- Whether the sequencer's poll sees the primitive complete: `STO = 0` for STOP, `INT = 1` for the others (R131). -/
def completionSeen (l : Config.CtrlLayout) : Prim → Byte → Bool
  | .stop, c => !ctrlField l .sto c
  | .start, c => ctrlField l .int c
  | .txa _, c => ctrlField l .int c
  | .txb _, c => ctrlField l .int c
  | .rx _, c => ctrlField l .int c

/-- The status code as an 8-bit value, `STATUS & STATUS_MASK` (R30). -/
def statusCode (c : Config.Params) (status : Byte) : Byte := status &&& c.statusMask

/-- `STATUS.PS`, the bits below the code (R30), at their places. -/
def statusPs (c : Config.Params) (status : Byte) : Byte := status &&& ~~~c.statusMask

/-- `STATUS.CODE <- code[7:3]`; the prescaler bits stay (R30, R31). -/
def withCode (c : Config.Params) (status code : Byte) : Byte := (code &&& c.statusMask) ||| (status &&& ~~~c.statusMask)

/-- `stop_status` (R31, 92_eei_decisions.md D11). -/
def stopStatus (c : Config.Params) (code : Byte) : Byte := (c.stopStatus.lookup code).getD c.codes.noInfo

/-- Which outcomes the environment can give a primitive (20_memory.md R72). -/
def fits : Prim → Answer → Bool
  | .start, .granted => true
  | .start, .arbLost => true
  | .stop, .done => true
  | .txa _, .ack => true
  | .txa _, .nak => true
  | .txa _, .arbLost => true
  | .txb _, .ack => true
  | .txb _, .nak => true
  | .txb _, .arbLost => true
  | .rx _, .byte _ => true
  | .rx _, .arbLost => true
  | _, _ => false

/-- The status code of a completed primitive (the table of R31); `ph` is the phase at launch, `old` the code before.
An outcome that R72 does not give the primitive never arrives (`fits`); the last line is for those. -/
def outcomeCode (c : Config.Params) (ph : Phase) (old : Byte) : Prim → Answer → Byte
  | .start, .granted => if ph = .idle then c.codes.start else c.codes.rstart
  | .start, .arbLost => c.codes.arbLost
  | .stop, .done => stopStatus c old
  | .txa b, .ack => if directionOf b = c.dirWrite then c.codes.slaWAck else c.codes.slaRAck
  | .txa b, .nak => if directionOf b = c.dirWrite then c.codes.slaWNak else c.codes.slaRNak
  | .txa _, .arbLost => c.codes.arbLost
  | .txb _, .ack => c.codes.dataWAck
  | .txb _, .nak => c.codes.dataWNak
  | .txb _, .arbLost => c.codes.arbLost
  | .rx ack, .byte _ => if ack then c.codes.dataRAck else c.codes.dataRNak
  | .rx _, .arbLost => c.codes.arbLost
  | _, _ => old

/-- The phase after a completed primitive (the table of R32): IDLE after STOP and after any loss of arbitration, STARTED
after a granted START, MT or MR by the direction of an addressed TXA, else unchanged. -/
def outcomePhase (c : Config.Params) (ph : Phase) : Prim → Answer → Phase
  | .stop, _ => .idle
  | _, .arbLost => .idle
  | .start, _ => .started
  | .txa b, _ => if directionOf b = c.dirWrite then .mt else .mr
  | .txb _, _ => ph
  | .rx _, _ => ph

/-- The bus event of a completed primitive (20_memory.md R72); `ph` is the phase at launch. -/
def outcomeEvent (ph : Phase) : Prim → Answer → BusEvent
  | .start, .arbLost => .lost .start
  | .start, _ => if ph = .idle then .s else .sr
  | .stop, _ => .p
  | .txa b, .arbLost => .lost (.tx b)
  | .txa b, .nak => .tx b .nak
  | .txa b, _ => .tx b .ack
  | .txb b, .arbLost => .lost (.tx b)
  | .txb b, .nak => .tx b .nak
  | .txb b, _ => .tx b .ack
  | .rx ack, .byte d => .rx d (if ack then .ack else .nak)
  | .rx _, _ => .lost .rx

/-- Whether the outcome leaves DATA an undetermined byte: arbitration lost in TXA, TXB or RX (R33). -/
def drawsData : Prim → Answer → Bool
  | .txa _, .arbLost => true
  | .txb _, .arbLost => true
  | .rx _, .arbLost => true
  | _, _ => false

/-- DATA after a completed primitive (R33): the byte received, an undetermined byte where `drawsData`, else unchanged. -/
def outcomeData (old drawn : Byte) (p : Prim) (a : Answer) : Byte :=
  if drawsData p a then drawn
  else match p, a with
    | .rx _, .byte d => d
    | _, _ => old

/-- The encoding of `phase` (R32). -/
def phaseCode : Phase → BitVec 2
  | .idle => 0#2
  | .started => 1#2
  | .mt => 2#2
  | .mr => 3#2

/-- `FSMSTATE = {0b0000, trace_en, initialized, phase[1:0]}` (R34). -/
def State.fsmState (s : State) : Byte :=
  0#4 ++ BitVec.ofBool s.traceEn ++ BitVec.ofBool s.initialized ++ phaseCode s.phase

end Sys2Proof.Machine
end

