-- ==== Sys2Proof/Machine/Memory.lean ====
section
/-! DEFINITION. Machine/Memory.lean: byte memories in one canonical form. The model has two, of `BUF_SIZE` and
`EEPROM_SIZE` bytes, both accessed one byte at a time (20_memory.md R64): the buffer memory BUF (R62), whose unlisted bytes
have no value (R63), and the device's `mem` (R80), whose unlisted bytes are erased (log 4, log 5). -/

namespace Sys2Proof.Machine

/-- What an unlisted byte of BUF reads as: no value, it has not been written since power-on (20_memory.md R63). -/
def bufBlank : Option Byte := none

/-- What an unlisted byte of the device's `mem` reads as: an erased byte. DESIGN CHOICE, log 5: the initial content is a
parameter of the run (R80), and every content of the 256 bytes can be listed. -/
def eepromBlank : Option Byte := some 0xFF#8

/-- The canonical form: addresses strictly rising and below `size`, and no entry equal to what an unlisted byte reads as. -/
abbrev Memory.wf (blank : Option Byte) (size : Nat) (m : Memory) : Prop :=
  (m.map Prod.fst).Pairwise (· < ·) ∧ ∀ c ∈ m, c.1 < size ∧ blank ≠ some c.2

/-- The byte at an address, if it has a value. -/
def Memory.read (blank : Option Byte) : Memory → Nat → Option Byte
  | [], _ => blank
  | c :: m, a => if c.1 = a then some c.2 else Memory.read blank m a

/-- List a byte at its place. -/
def Memory.insert (a : Nat) (v : Byte) : Memory → Memory
  | [] => [(a, v)]
  | c :: m =>
    if a < c.1 then (a, v) :: c :: m
    else if a = c.1 then (a, v) :: m
    else c :: Memory.insert a v m

/-- Take an address off the list. -/
def Memory.erase (a : Nat) (m : Memory) : Memory := m.filter (fun c => c.1 ≠ a)

/-- Write one byte, keeping the canonical form. -/
def Memory.write (blank : Option Byte) (m : Memory) (a : Nat) (v : Byte) : Memory :=
  if blank = some v then Memory.erase a m else Memory.insert a v m

end Sys2Proof.Machine
end

