-- ==== Sys2Proof/Machine/Device.lean ====
section
/-! DEFINITION. Machine/Device.lean: the reference EEPROM device (20_memory.md R80 to R90), one instance of the
environment. Each function gives the device's answer to a primitive and the device after the bus event. -/

namespace Sys2Proof.Machine

/-- `mem[o]` (R80): every offset exists. -/
def Device.byteAt (d : Device) (o : Byte) : Byte := (Memory.read eepromBlank d.mem o.toNat).getD 0xFF#8

/-- The pointer and the offsets of the pending bytes are offsets of the device (20_memory.md R68). -/
abbrev Device.offsetsFit (c : Config.Params) (d : Device) : Prop :=
  d.ptr.toNat < c.eepromSize ∧ ∀ w ∈ d.pending, w.1.toNat < c.eepromSize

/-- START: `Granted`; on the event `S` or `Sr` the uncommitted bytes are dropped and the control byte is awaited (R81). -/
def Device.onStart (d : Device) : Answer × Device :=
  (.granted, { d with pending := [], mode := .control })

/-- `write_cycle_done` in the form without a counter (R87), as the next event finds it: the busy window has ended if it was
to last no further event (log 13). -/
def Device.cycleDone (d : Device) : Device :=
  match d.busyPolls with
  | some _ => d
  | none =>
    if d.busy then
      if d.polls = 0 then { d with busy := false } else { d with polls := d.polls - 1 }
    else d

/-- The counter form of R87: a matching control byte refused for `busy` counts down, and the window ends at 0. -/
def Device.countRefusal (d : Device) : Device :=
  match d.busyPolls with
  | none => d
  | some _ => { d with polls := d.polls - 1, busy := decide (1 < d.polls) }

/-- The control byte (R82): acknowledged when it names the device and the device is not busy, else NAK and deaf. -/
def Device.onControl (c : Config.Params) (b : Byte) (d : Device) : Answer × Device :=
  if addressOf b = addressOf c.devAddr then
    if d.busy then (.nak, { d.countRefusal with mode := .deaf })
    else if directionOf b = c.dirWrite then (.ack, { d with mode := .pointer })
    else (.ack, { d with mode := .read })
  else (.nak, { d with mode := .deaf })

/-- A transmitted byte, by mode (R82, R83, R84, R88). -/
def Device.onTx (c : Config.Params) (b : Byte) (d : Device) : Answer × Device :=
  match d.mode with
  | .control => d.onControl c b
  | .pointer => (.ack, { d with ptr := deviceOffset c b.toNat, mode := .write })
  | .write => (.ack, { d with pending := d.pending ++ [(d.ptr, b)], ptr := pageNext c d.ptr })
  | .idle => (.nak, d)
  | .deaf => (.nak, d)
  | .read => (.nak, d)

/-- A received byte (R85); in any mode but `Read` nobody drives the bus and the byte is a draw (R88). -/
def Device.onRx (c : Config.Params) (drawn : Byte) (ack : Bool) (d : Device) : Answer × Device :=
  match d.mode with
  | .read =>
    (.byte (d.byteAt d.ptr), { d with ptr := deviceOffset c (d.ptr.toNat + 1), mode := if ack then .read else .deaf })
  | _ => (.byte drawn, d)

/-- The bytes of `pending` written to `mem` in order (R86). -/
def Device.commit (m : Memory) (pending : List (Byte × Byte)) : Memory :=
  pending.foldl (fun m c => Memory.write eepromBlank m c.1.toNat c.2) m

/-- The busy window that a committed write opens (R86, R87): `busy_polls` refusals, none when that is 0; without a counter,
a free number of events. -/
def Device.startCycle (time : Nat) (d : Device) : Device :=
  match d.busyPolls with
  | none => { d with busy := true, polls := time }
  | some n => { d with busy := decide (0 < n), polls := n }

/-- STOP: `Done`; on the event `P` the pending bytes of a write are committed and the device is busy (R86). -/
def Device.onStop (time : Nat) (d : Device) : Answer × Device :=
  let d' := { d with pending := [], mode := .idle }
  match d.mode, d.pending with
  | .write, c :: cs => (.done, { d'.startCycle time with mem := Device.commit d.mem (c :: cs) })
  | _, _ => (.done, d')

/-- The device's answer to a primitive; it always answers and never `ArbLost` (R88). The free values are the byte nobody
drives and the length of a busy window without a counter. -/
def Device.answer (c : Config.Params) (drawn : Byte) (time : Nat) (p : Prim) (d : Device) : Answer × Device :=
  match p with
  | .start => d.cycleDone.onStart
  | .stop => d.cycleDone.onStop time
  | .txa b => d.cycleDone.onTx c b
  | .txb b => d.cycleDone.onTx c b
  | .rx ack => d.cycleDone.onRx c drawn ack

end Sys2Proof.Machine
end

