-- ==== Sys2Proof/Machine/StatusDecoder.lean ====
section
/-! DEFINITION. Machine/StatusDecoder.lean: `i2c_status_decoder` (42_status_decoder.md R200 to R206), a pure function of
the code, and the text of a label. -/

namespace Sys2Proof.Machine

/-- The number of a label, its place in `LABEL_TEXT` (R202, R206). -/
def labelIndex : Label → Fin 12
  | .start => 0
  | .rstart => 1
  | .arbLost => 2
  | .mtSlaAck => 3
  | .mtSlaNak => 4
  | .mtDataAck => 5
  | .mtDataNak => 6
  | .mrSlaAck => 7
  | .mrSlaNak => 8
  | .mrDataAck => 9
  | .mrDataNak => 10
  | .unknown => 11

/-- The 4-bit id of a label (R202). -/
def labelId (l : Label) : BitVec 4 := BitVec.ofNat 4 (labelIndex l)

/-- The rows of R202: a label and the code it matches. -/
def labelRows (c : Config.StatusCodes) : List (Label × Byte) :=
  [(.start, c.start), (.rstart, c.rstart), (.arbLost, c.arbLost),
   (.mtSlaAck, c.slaWAck), (.mtSlaNak, c.slaWNak), (.mtDataAck, c.dataWAck), (.mtDataNak, c.dataWNak),
   (.mrSlaAck, c.slaRAck), (.mrSlaNak, c.slaRNak), (.mrDataAck, c.dataRAck), (.mrDataNak, c.dataRNak)]

/-- The label of a code: the row whose code equals it on all eight bits, else `L_UNKNOWN` (R203, R204). -/
def labelOf (c : Config.StatusCodes) (code : Byte) : Label :=
  match (labelRows c).find? (fun r => r.2 == code) with
  | some r => r.1
  | none => .unknown

/-- `decode(code) -> (label, raw)` (R201, R203): the code is passed through. -/
def decodeStatus (c : Config.StatusCodes) (code : Byte) : Label × Byte := (labelOf c code, code)

/-- The text of a label (R206): of the fallback, the four characters that open it. -/
def textOf (c : Config.Params) (l : Label) : String := c.labelText[labelIndex l]

/-- One uppercase hexadecimal digit. -/
def hexDigit (n : BitVec 4) : Char :=
  if n.toNat < 10 then Char.ofNat (48 + n.toNat) else Char.ofNat (55 + n.toNat)

/-- `hex2(raw)`: two uppercase hexadecimal digits, high nibble first (R206). -/
def hex2 (b : Byte) : String :=
  String.ofList [hexDigit (b.extractLsb' 4 4), hexDigit (b.extractLsb' 0 4)]

/-- The line the sink writes for a trace event (R206, 60_exceptions.md R262). -/
def renderLine (c : Config.Params) (e : TraceEvent) : String :=
  match e.label with
  | .unknown => textOf c .unknown ++ hex2 e.code
  | l => textOf c l

end Sys2Proof.Machine
end

