-- ==== Sys2Proof/Machine/Ops.lean ====
section
/-! DEFINITION. Machine/Ops.lean: the named operations every instruction is written over: responding and the one
exception of the block (30_encoding.md R106, 60_exceptions.md R241), accepting a command (R100), the observer hook (R262),
register and buffer accesses (43_access_commands.md R222 to R224), free values (R12), the environment's answer
(20_memory.md R72), the reset event (70_reset_and_hazards.md R270) and the sampling of the inputs. -/

namespace Sys2Proof.Machine

/-- The kinds of a response (30_encoding.md R106). -/
inductive RespKind where
  | ok
  | okData
  | err
deriving DecidableEq, Repr, Inhabited

/-- `kind = resp[15:12]` (R106). -/
def kindCode : RespKind → BitVec 4
  | .ok => 0x0#4
  | .okData => 0x1#4
  | .err => 0xE#4

/-- A response word `{kind, cause, data}` (R106). -/
def respWord (kind : RespKind) (cause : BitVec 4) (data : Byte) : RespWord := kindCode kind ++ cause ++ data

/-- `respond(kind, data)` (00_scope.md R12): the response stands on the port, `seq.cmd` is cleared, the port is ready. -/
def respond (kind : RespKind) (data : Byte) (s : State) : State :=
  { s with resp := some (respWord kind 0#4 data), seq := Seq.idle }

/-- `raise IllegalCommand(cause)`, the one exception (60_exceptions.md R241): the ERR response and no other change;
nothing is saved and there is no handler (R244), so there is no return from it. -/
def raiseIllegal (cause : IllegalCause) (s : State) : State :=
  { s with resp := some (respWord .err cause.code 0x00#8) }

/-- A command is accepted: `seq.cmd` is set at acceptance, at the first entry of its table (30_encoding.md R100,
41_eeprom_client_transactions.md R171), and the last response is off the port (log 9). -/
def accept (i : Instr) (s : State) : State :=
  { s with seq := { cmd := some i, pc := 0, i := 0#8, wait := none }, resp := none }

/-- `emit_trace(STATUS & STATUS_MASK)` (00_scope.md R12, 40_bus_driver_primitives.md R138, 60_exceptions.md R262). -/
def emitTrace (s : State) : State :=
  if s.traceEn then
    { s with diagHistory := s.diagHistory ++ [⟨(decodeStatus s.cfg.codes (statusCode s.cfg s.status)).1, statusCode s.cfg s.status⟩] }
  else s

/-- The register at an address of the register space, none at the reserved addresses (10_state.md R22; with the addresses of
R8 these are 5, 6, 7). -/
def readRegister (reg : BitVec 3) (s : State) : Option Byte :=
  if reg = s.cfg.registers.ctrl then some s.ctrl
  else if reg = s.cfg.registers.rate then some s.rate
  else if reg = s.cfg.registers.status then some s.status
  else if reg = s.cfg.registers.data then some s.data
  else if reg = s.cfg.registers.fsmState then some s.fsmState
  else none

/-- `MemRead(BUF, i, 1)`: none if the byte was never written since power-on (20_memory.md R63), and at an index that is not
below `BUF_SIZE`, where no byte is (R62; with the table's 256 every index has one, log 23). -/
def readBuf (idx : Byte) (s : State) : Option Byte :=
  if idx.toNat < s.cfg.bufSize then Memory.read bufBlank s.buf idx.toNat else none

/-- `MemWrite(BUF, i, 1, v)` (00_scope.md R11), to the byte at `i` if BUF has one (R62). -/
def writeBuf (idx v : Byte) (s : State) : State :=
  { s with buf := if idx.toNat < s.cfg.bufSize then Memory.write bufBlank s.buf idx.toNat v else s.buf }

/-- What a scripted environment answers: its next answer if that is one R72 gives the primitive, else none (log 12). -/
def scriptAnswer (p : Prim) (now again : List Answer) : Option Answer × Env :=
  match now with
  | a :: rest => if fits p a then (some a, .scripted rest again) else (none, .scripted now again)
  | [] =>
    match again with
    | a :: rest => if fits p a then (some a, .scripted rest again) else (none, .scripted now again)
    | [] => (none, .scripted now again)

/-- One poll of the environment by the primitive in flight: an outcome, or none yet (20_memory.md R72, R73). The device
and the free environment take fresh free values at each poll. -/
def pollEnv (p : Prim) (s : State) : Option Answer × State :=
  match s.env with
  | .scripted now again =>
    ((scriptAnswer p now again).1, { s with env := (scriptAnswer p now again).2 })
  | .device d =>
    let r := d.answer s.cfg (Config.freeByte s.draws) (Config.freeWriteTime s.draws) p
    (some r.1, { s with env := .device r.2, draws := s.draws + 1 })
  | .free =>
    ((Config.freeAnswer s.draws p).filter (fits p), { s with draws := s.draws + 1 })

/-- STATUS after reset: `{RESET_STATUS[7:3], PS_RESET}` (10_state.md R42). -/
def statusAtReset (c : Config.Params) : Byte := withCode c c.psReset c.resetStatus

/-- The reset event (70_reset_and_hazards.md R270, R271; 10_state.md R42): every register and flag to its reset value, the
command aborted without a response, a primitive in flight abandoned, the marker `Reset` on the bus history. BUF, the
environment, the diagnostic history and the inputs to come are not reset. -/
def resetEvent (s : State) : State :=
  { s with
    ctrl := 0x00#8
    rate := 0x00#8
    status := statusAtReset s.cfg
    data := s.cfg.resetData
    phase := .idle
    inflight := none
    initialized := false
    traceEn := false
    result := 0x00#8
    seq := Seq.idle
    resp := none
    busHistory := s.busHistory ++ [.reset] }

/-- What the inputs bring at a step. -/
inductive PortEvent where
  /-- the reset input is asserted -/
  | reset (s : State)
  /-- a command is executing: the port takes nothing -/
  | busy (s : State)
  /-- the block is ready and no word is presented -/
  | idle (s : State)
  /-- the block is ready and takes this word -/
  | word (w : CmdWord) (s : State)

/-- The reset input is sampled, then, if the block is ready (`seq.cmd = none`), the next word is taken off the port
(30_encoding.md R100, 70_reset_and_hazards.md R270; log 7). -/
def samplePort (s : State) : PortEvent :=
  match s.resetPin with
  | true :: pins => .reset { s with resetPin := pins }
  | _ =>
    let s := { s with resetPin := s.resetPin.tail }
    match s.seq.cmd, s.port with
    | some _, _ => .busy s
    | none, [] => .idle s
    | none, w :: ws => .word w { s with port := ws }

/-- A pace at which every command but a long WAIT_WC completes in the model step that takes it (log 3). -/
def commandPace : Nat := 1023

/-- The state whose next step takes the word `w` and runs its command: the word stands first on the port, the block is
ready, the reset input is not asserted at that step and the step makes as many moves as a command takes. Where a command
is executing it is taken out of the way (log 15). -/
def presentWord (w : CmdWord) (s : State) : State :=
  { s with
    port := w :: s.port
    seq := if s.seq.cmd = none then s.seq else Seq.idle
    inflight := if s.seq.cmd = none then s.inflight else none
    resetPin := if s.resetPin.head? = some true then false :: s.resetPin else s.resetPin
    pace := if s.pace < commandPace then commandPace else s.pace }

end Sys2Proof.Machine
end

