-- ==== Sys2Proof/Machine/Access.lean ====
section
/-! DEFINITION. Machine/Access.lean: the meanings of DECODE (42_status_decoder.md R210) and of the access commands TRACE,
REG_RD, BUF_WR and BUF_RD (43_access_commands.md), each complete in one step (R220). -/

namespace Sys2Proof.Machine

/-- DECODE (R210): the label id of the operand; no state is read but the codes' values. -/
def execDecode (code : Byte) (s : State) : Host.Outcome State Fault Refusal :=
  .next (respond .okData ((labelId (decodeStatus s.cfg.codes code).1).zeroExtend 8) s)

/-- TRACE (R221). -/
def execTrace (en : Bool) (s : State) : Host.Outcome State Fault Refusal :=
  .next (respond .ok 0x00#8 { s with traceEn := en })

/-- REG_RD (R222): the register raw. A reserved address is an illegal command (R243); the decoder has already rejected it. -/
def execRegRd (reg : BitVec 3) (s : State) : Host.Outcome State Fault Refusal :=
  match readRegister reg s with
  | some v => .next (respond .okData v s)
  | none => .next (raiseIllegal .illegalField s)

/-- BUF_WR (R223). -/
def execBufWr (idx val : Byte) (s : State) : Host.Outcome State Fault Refusal :=
  .next (respond .ok 0x00#8 (writeBuf idx val s))

/-- BUF_RD (R224). -/
def execBufRd (idx : Byte) (s : State) : Host.Outcome State Fault Refusal :=
  match readBuf idx s with
  | some v => .next (respond .okData v s)
  | none => .refused .unwrittenBuffer

end Sys2Proof.Machine
end

