-- ==== Sys2Proof/Machine/BusFsm.lean ====
section
/-! DEFINITION. Machine/BusFsm.lean: `i2c_bus_fsm`: the preconditions of a primitive, its launch and its completion
(40_bus_driver_primitives.md R131, R135, R136). -/

namespace Sys2Proof.Machine

/-- The violated contract of a primitive, if any, checked in the order of the rules R140, R144, R148, R151, R154 (the
table of R135). A launch while a primitive is in flight is refused too (70_reset_and_hazards.md R280). -/
def contract (p : Prim) (s : State) : Option Refusal :=
  if s.initialized = false then some .notInitialized
  else if s.inflight ≠ none then some .controlWriteInFlight
  else match p with
    | .start => none
    | .stop => if s.phase = .idle then some .stopWithoutStart else none
    | .txa _ => if s.phase = .started then none else some .addressNotAfterStart
    | .txb _ => if s.phase = .mt then none else some .transmitNotInWrite
    | .rx _ => if s.phase = .mr then none else some .receiveNotInRead

/-- The byte TXA and TXB load into DATA before the launch (R131). -/
def launchData (p : Prim) (old : Byte) : Byte :=
  match p with
  | .txa b => b
  | .txb b => b
  | .start => old
  | .stop => old
  | .rx _ => old

/-- `launch(op)` (R131): DATA, then the CTRL write, then `inflight`; from here the sequencer polls for completion. -/
def launch (p : Prim) (s : State) : State :=
  { s with
    data := launchData p s.data
    ctrl := ctrlWrite s.cfg.ctrlLayout s.ctrl (launchWord s.cfg.ctrlLayout p)
    inflight := some p
    seq := { s.seq with wait := some p } }

/-- The completion step (R136), all at once: the status code, `phase`, DATA, the bus event, INT set (STO cleared for
STOP), nothing in flight. The phase has not changed since the launch, so it is the phase at launch (log 14). -/
def complete (p : Prim) (a : Answer) (s : State) : State :=
  { s with
    status := withCode s.cfg s.status (outcomeCode s.cfg s.phase (statusCode s.cfg s.status) p a)
    phase := outcomePhase s.cfg s.phase p a
    data := outcomeData s.data (Config.freeByte s.draws) p a
    busHistory := s.busHistory ++ [outcomeEvent s.phase p a]
    ctrl := ctrlComplete s.cfg.ctrlLayout p s.ctrl
    inflight := none
    draws := if drawsData p a then s.draws + 1 else s.draws }

/-- The bus engine's turn: the environment is polled for the primitive in flight, and its outcome completes it; with no
outcome the primitive stays in flight (20_memory.md R73). With nothing in flight nothing happens. -/
def busTurn (s : State) : State :=
  match s.inflight with
  | none => s
  | some p =>
    match (pollEnv p s).1 with
    | none => (pollEnv p s).2
    | some a => complete p a (pollEnv p s).2

end Sys2Proof.Machine
end

