-- ==== Sys2Proof/Machine/Sequences.lean ====
section
/-! DEFINITION. Machine/Sequences.lean: the table of each bus command, indexed by `seq.pc` (40_bus_driver_primitives.md
R140 to R154; 41_eeprom_client_transactions.md R180, R181, R183, R185, R186). -/

namespace Sys2Proof.Machine

/-- An entry of a command's table. -/
inductive SeqAct where
  /-- `do P`, then the next entry -/
  | prim (p : Prim)
  /-- TXB of `BUF[seq.i]`, again while `seq.i < len` (R183) -/
  | sendBuf (len : Byte)
  /-- RX into `BUF[seq.i]`, again while `seq.i < len` (R185) -/
  | recvBuf (len : Byte)
  /-- `respond(OK, 0)` if the code is `ST_SLA_W_ACK`, else back to entry 0 (R186) -/
  | untilAck
  /-- `respond(OK, 0)` -/
  | respondOk
  /-- `respond(OK_DATA, RESULT)` -/
  | respondResult
deriving DecidableEq, Repr, Inhabited

/-- START (R140). -/
def startSeq : List SeqAct := [.prim .start, .respondOk]

/-- STOP (R144). -/
def stopSeq : List SeqAct := [.prim .stop, .respondOk]

/-- TXA (R148). -/
def txaSeq (sla : BitVec 7) (rw : BitVec 1) : List SeqAct := [.prim (.txa (controlByte sla rw)), .respondOk]

/-- TXB (R151). -/
def txbSeq (byte : Byte) : List SeqAct := [.prim (.txb byte), .respondOk]

/-- RX (R154). -/
def rxSeq (ack : Bool) : List SeqAct := [.prim (.rx ack), .respondResult]

/-- `open_write(a)`: START, TXA SLA_W, TXB a (R182). -/
def openWrite (c : Config.Params) (a : Byte) : List SeqAct := [.prim .start, .prim (.txa (slaW c)), .prim (.txb a)]

/-- `turn_read`: START, TXA SLA_R (R182). -/
def turnRead (c : Config.Params) : List SeqAct := [.prim .start, .prim (.txa (slaR c))]

/-- RD_BYTE (R180). -/
def rdByteSeq (c : Config.Params) (addr : Byte) : List SeqAct :=
  openWrite c addr ++ turnRead c ++ [.prim (.rx false), .prim .stop, .respondResult]

/-- WR_BYTE (R181). -/
def wrByteSeq (c : Config.Params) (addr data : Byte) : List SeqAct :=
  openWrite c addr ++ [.prim (.txb data), .prim .stop, .respondOk]

/-- WR_PAGE (R183). -/
def wrPageSeq (c : Config.Params) (addr len : Byte) : List SeqAct :=
  openWrite c addr ++ [.sendBuf len, .prim .stop, .respondOk]

/-- SEQ_RD (R185). -/
def seqRdSeq (c : Config.Params) (addr len : Byte) : List SeqAct :=
  openWrite c addr ++ turnRead c ++ [.recvBuf len, .prim .stop, .respondOk]

/-- WAIT_WC (R186). -/
def waitWcSeq (c : Config.Params) : List SeqAct := [.prim .start, .prim (.txa (slaW c)), .untilAck]

/-- The table of a command. The commands that launch no primitive have none: they complete when accepted (R132, R134,
R210, R220). -/
def sequenceOf (c : Config.Params) : Instr → List SeqAct
  | .init _ => []
  | .start => startSeq
  | .stop => stopSeq
  | .txa sla rw => txaSeq sla rw
  | .txb byte => txbSeq byte
  | .rx ack => rxSeq ack
  | .status => []
  | .rdByte addr => rdByteSeq c addr
  | .wrByte addr data => wrByteSeq c addr data
  | .wrPage addr len => wrPageSeq c addr len
  | .seqRd addr len => seqRdSeq c addr len
  | .waitWc => waitWcSeq c
  | .decode _ => []
  | .trace _ => []
  | .regRd _ => []
  | .bufWr _ _ => []
  | .bufRd _ => []

end Sys2Proof.Machine
end

