-- ==== Sys2Proof/Machine/Sequencer.lean ====
section
/-! DEFINITION. Machine/Sequencer.lean: the sequencer (10_state.md R36, R37; 40_bus_driver_primitives.md R130;
41_eeprom_client_transactions.md R171, R187): one step of the machine inside a command (00_scope.md R13), and the run of
several of them that one model step makes where `pace` is not 0 (log 3). -/

namespace Sys2Proof.Machine

/-- `respond` of `do P` is left out; the precondition is checked, then the primitive is launched (R130, R135, R171). -/
def issuePrim (p : Prim) (s : State) : Host.Outcome State Fault Refusal :=
  match contract p s with
  | some r => .refused r
  | none => .next (launch p s)

/-- The sequencer reaches a table entry with no primitive of its own in progress. -/
def issue (act : SeqAct) (s : State) : Host.Outcome State Fault Refusal :=
  match act with
  | .prim p => issuePrim p s
  | .sendBuf _ =>
    match readBuf s.seq.i s with
    | none => .refused .unwrittenBuffer
    | some v => issuePrim (.txb v) s
  | .recvBuf len => issuePrim (.rx (ackPolicy s.seq.i len)) s
  | .untilAck =>
    if statusCode s.cfg s.status = s.cfg.codes.slaWAck then .next (respond .ok 0x00#8 s)
    else .next { s with seq := { s.seq with pc := 0 } }
  | .respondOk => .next (respond .ok 0x00#8 s)
  | .respondResult => .next (respond .okData s.result s)

/-- `RESULT <- DATA` for RX (20_memory.md R76 step 6, 40_bus_driver_primitives.md R154). -/
def latchResult (p : Prim) (s : State) : State :=
  match p with
  | .rx _ => { s with result := s.data }
  | .start => s
  | .stop => s
  | .txa _ => s
  | .txb _ => s

/-- The counted back-edge of the data loops: `seq.i <- seq.i + 1`, and the next entry once `seq.i` is `len` (R187). -/
def countLoop (len : Byte) (s : State) : State :=
  { s with
    seq := { s.seq with
      i := s.seq.i + 1#8
      pc := if loopGoesOn (s.seq.i + 1#8) len then s.seq.pc else s.seq.pc + 1 } }

/-- What a table entry does once its primitive has completed (R171, R183, R185): `seq.pc` is advanced, SEQ_RD stores the
byte. The last three entries launch nothing, so nothing completes at them. -/
def finishEntry (act : SeqAct) (s : State) : State :=
  match act with
  | .prim _ => { s with seq := { s.seq with pc := s.seq.pc + 1 } }
  | .sendBuf len => countLoop len s
  | .recvBuf len => countLoop len (writeBuf s.seq.i s.result s)
  | .untilAck => s
  | .respondOk => s
  | .respondResult => s

/-- The sequencer has seen the completion flag (20_memory.md R76 steps 5 to 7): RESULT, the trace event, the next entry. -/
def observe (act : SeqAct) (p : Prim) (s : State) : State :=
  finishEntry act (emitTrace (latchResult p { s with seq := { s.seq with wait := none } }))

/-- One step of the machine inside a command (R13): the sequencer issues the entry at `seq.pc`, or it polls; while the
flag is not seen the bus engine and the environment have their turn. -/
def move (s : State) : Host.Outcome State Fault Refusal :=
  match s.seq.cmd with
  | none => .next s
  | some i =>
    match (sequenceOf s.cfg i)[s.seq.pc]? with
    | none => .next s
    | some act =>
      match s.seq.wait with
      | none => issue act s
      | some p => if completionSeen s.cfg.ctrlLayout p s.ctrl then .next (observe act p s) else .next (busTurn s)

/-- At most `n` moves: the run ends when the command has responded, and at a refusal. -/
def runMoves : Nat → State → Host.Outcome State Fault Refusal
  | 0, s => .next s
  | n + 1, s =>
    if s.seq.cmd = none then .next s
    else
      match move s with
      | .next s' => runMoves n s'
      | .fault r => .fault r
      | .refused r => .refused r

/-- A model step inside a command: one step of R13, and `pace` further ones (log 3). -/
def resume (s : State) : Host.Outcome State Fault Refusal := runMoves (s.pace + 1) s

/-- A bus command is accepted and executed: its table is walked from entry 0 until it responds, is refused, or has made
the moves of one model step (then `resume` goes on from there). -/
def runCommand (i : Instr) (s : State) : Host.Outcome State Fault Refusal := resume (accept i s)

end Sys2Proof.Machine
end

