-- ==== Sys2Proof/Machine/Client.lean ====
section
/-! DEFINITION. Machine/Client.lean: the meanings of the EEPROM Client transactions RD_BYTE, WR_BYTE, WR_PAGE, SEQ_RD and
WAIT_WC (41_eeprom_client_transactions.md), each the walk of its table (R171). -/

namespace Sys2Proof.Machine

/-- RD_BYTE (R180). -/
def execRdByte (addr : Byte) (s : State) : Host.Outcome State Fault Refusal := runCommand (.rdByte addr) s

/-- WR_BYTE (R181). -/
def execWrByte (addr data : Byte) (s : State) : Host.Outcome State Fault Refusal := runCommand (.wrByte addr data) s

/-- WR_PAGE (R183). A zero length is an illegal command (60_exceptions.md R243); the decoder has already rejected it. -/
def execWrPage (addr len : Byte) (s : State) : Host.Outcome State Fault Refusal :=
  if len = 0#8 then .next (raiseIllegal .illegalField s) else runCommand (.wrPage addr len) s

/-- SEQ_RD (R185). A zero length is an illegal command (60_exceptions.md R243); the decoder has already rejected it. -/
def execSeqRd (addr len : Byte) (s : State) : Host.Outcome State Fault Refusal :=
  if len = 0#8 then .next (raiseIllegal .illegalField s) else runCommand (.seqRd addr len) s

/-- WAIT_WC (R186): unbounded; a model step makes a part of a long wait and the next one goes on. -/
def execWaitWc (s : State) : Host.Outcome State Fault Refusal := runCommand .waitWc s

end Sys2Proof.Machine
end

