-- ==== Sys2Proof/Machine/Driver.lean ====
section
/-! DEFINITION. Machine/Driver.lean: the meanings of the Bus Driver commands INIT, START, STOP, TXA, TXB, RX and STATUS
(40_bus_driver_primitives.md). -/

namespace Sys2Proof.Machine

/-- INIT (R132): refused a second time, and refused when the divisor is not a value of RATE; else RATE and
`initialized` are written, nothing else. -/
def execInit (freq : BitVec 32) (s : State) : Host.Outcome State Fault Refusal :=
  if s.initialized then .refused .initTwice
  else
    match divisor s.cfg freq with
    | none => .refused .initRange
    | some d => .next (respond .ok 0x00#8 { s with rate := d, initialized := true })

/-- START (R140). -/
def execStart (s : State) : Host.Outcome State Fault Refusal := runCommand .start s

/-- STOP (R144). -/
def execStop (s : State) : Host.Outcome State Fault Refusal := runCommand .stop s

/-- TXA (R148). -/
def execTxa (sla : BitVec 7) (rw : BitVec 1) (s : State) : Host.Outcome State Fault Refusal :=
  runCommand (.txa sla rw) s

/-- TXB (R151). -/
def execTxb (byte : Byte) (s : State) : Host.Outcome State Fault Refusal := runCommand (.txb byte) s

/-- RX (R154). -/
def execRx (ack : Bool) (s : State) : Host.Outcome State Fault Refusal := runCommand (.rx ack) s

/-- STATUS (R134): the masked code; no precondition, nothing written. -/
def execStatus (s : State) : Host.Outcome State Fault Refusal :=
  .next (respond .okData (statusCode s.cfg s.status) s)

end Sys2Proof.Machine
end

