-- ==== Sys2Proof/Machine/Dispatch.lean ====
section
/-! DEFINITION. Machine/Dispatch.lean: one arm per command of 30_encoding.md R103. -/

namespace Sys2Proof.Machine

def exec (i : Instr) (s : State) : Host.Outcome State Fault Refusal :=
  match i with
  | .init freq => Sys2Proof.Machine.execInit freq s
  | .start => Sys2Proof.Machine.execStart s
  | .stop => Sys2Proof.Machine.execStop s
  | .txa sla rw => Sys2Proof.Machine.execTxa sla rw s
  | .txb byte => Sys2Proof.Machine.execTxb byte s
  | .rx ack => Sys2Proof.Machine.execRx ack s
  | .status => Sys2Proof.Machine.execStatus s
  | .rdByte addr => Sys2Proof.Machine.execRdByte addr s
  | .wrByte addr data => Sys2Proof.Machine.execWrByte addr data s
  | .wrPage addr len => Sys2Proof.Machine.execWrPage addr len s
  | .seqRd addr len => Sys2Proof.Machine.execSeqRd addr len s
  | .waitWc => Sys2Proof.Machine.execWaitWc s
  | .decode code => Sys2Proof.Machine.execDecode code s
  | .trace en => Sys2Proof.Machine.execTrace en s
  | .regRd reg => Sys2Proof.Machine.execRegRd reg s
  | .bufWr idx val => Sys2Proof.Machine.execBufWr idx val s
  | .bufRd idx => Sys2Proof.Machine.execBufRd idx s

end Sys2Proof.Machine
end

