-- ==== Sys2Proof/Machine/Step.lean ====
section
/-! DEFINITION. Machine/Step.lean: one step of the model: the inputs are sampled, then the block is reset, goes on with
its command, idles, or takes the word on the port, decodes it and executes it (30_encoding.md R100, R105;
60_exceptions.md R241; 70_reset_and_hazards.md R270, R272). -/

namespace Sys2Proof.Machine

/-- One step. -/
def step (s : State) : Host.Outcome State Fault Refusal :=
  match samplePort s with
  | .reset s' => .next (resetEvent s')
  | .busy s' => resume s'
  | .idle s' => .next s'
  | .word w s' =>
    match decode s'.cfg w with
    | .ok i => exec i s'
    | .error cause => .next (raiseIllegal cause s')

/-- `s` with the word of an opcode-table row presented on the command port, so that the very next step takes it (log 15). -/
def State.withFetchWord (s : State) (nbits w : Nat) : State := presentWord (cmdOfTableWord nbits w) s

end Sys2Proof.Machine
end

