-- ==== Sys2Proof/Asm.lean ====
section
/-! DEFINITION. Asm.lean: the assembler syntax of 30_encoding.md: one command a line, the mnemonic in capitals, operands
separated by commas, numerals decimal or hexadecimal with `0x`, `;` to the end of the line a comment (R109), and the
pseudo-instructions (R110). The machine takes command words; nothing here is part of a step. -/

namespace Sys2Proof.Asm

/-- TXA of a pre-shifted device address: `cmd[7:0] = (dev & 0xFE) | rw`, bit 0 of `dev` is dropped (R107, R109). -/
def txaOf (dev : Byte) (rw : BitVec 1) : Instr :=
  let b := (dev &&& 0xFE#8) ||| rw.zeroExtend 8
  .txa (b.extractLsb' 1 7) (b.extractLsb' 0 1)

/-- The pseudo-instructions (R110). -/
inductive Pseudo where
  | rxa
  | rxn
  | txaw (dev : Byte)
  | txar (dev : Byte)
  | bufFill (vs : List Byte)
deriving DecidableEq, Repr

/-- `BUF_WR i, v` for successive bytes. -/
def fillFrom : Nat → List Byte → List Instr
  | _, [] => []
  | i, v :: vs => .bufWr (BitVec.ofNat 8 i) v :: fillFrom (i + 1) vs

/-- The expansions of R110. -/
def Pseudo.expand (c : Config.Params) : Pseudo → List Instr
  | .rxa => [.rx true]
  | .rxn => [.rx false]
  | .txaw dev => [txaOf dev c.dirWrite]
  | .txar dev => [txaOf dev c.dirRead]
  | .bufFill vs => fillFrom 0 vs

/-- The value of a digit character in base 16. -/
def digitOf (c : Char) : Option Nat :=
  let n := c.toNat
  if 48 ≤ n ∧ n ≤ 57 then some (n - 48)
  else if 65 ≤ n ∧ n ≤ 70 then some (n - 55)
  else if 97 ≤ n ∧ n ≤ 102 then some (n - 87)
  else none

/-- Digits in a base, most significant first, after the value `acc`. -/
def digitsFrom (base : Nat) : Nat → List Char → Option Nat
  | acc, [] => some acc
  | acc, c :: cs =>
    match digitOf c with
    | some d => if d < base then digitsFrom base (base * acc + d) cs else none
    | none => none

/-- A numeral: hexadecimal after `0x`, else decimal (R109). -/
def numeral : List Char → Option Nat
  | [] => none
  | '0' :: 'x' :: c :: cs => digitsFrom 16 0 (c :: cs)
  | c :: cs => digitsFrom 10 0 (c :: cs)

/-- A numeral of a field of `w` bits; a larger value is no operand (log 17). -/
def fieldOf (w : Nat) (cs : List Char) : Option (BitVec w) :=
  match numeral cs with
  | some n => if n < 2 ^ w then some (BitVec.ofNat w n) else none
  | none => none

/-- The list cut at every occurrence of a character. -/
def cutAt (sep : Char) : List Char → List (List Char)
  | [] => [[]]
  | c :: cs =>
    if c = sep then [] :: cutAt sep cs
    else
      match cutAt sep cs with
      | [] => [[c]]
      | w :: ws => (c :: w) :: ws

/-- Without blanks at either end. -/
def trim (cs : List Char) : List Char :=
  ((cs.dropWhile (· = ' ')).reverse.dropWhile (· = ' ')).reverse

/-- The register names of REG_RD (R109), or an address. -/
def registerOf (c : Config.Params) (cs : List Char) : Option (BitVec 3) :=
  match String.ofList cs with
  | "CTRL" => some c.registers.ctrl
  | "RATE" => some c.registers.rate
  | "STATUS" => some c.registers.status
  | "DATA" => some c.registers.data
  | "FSMSTATE" => some c.registers.fsmState
  | _ => fieldOf 3 cs

/-- The commands and pseudo-instructions with their operands (R109, R110). -/
def commandOf (c : Config.Params) (mnemonic : String) (ops : List (List Char)) : Option (List Instr) :=
  match mnemonic, ops with
  | "INIT", [f] => (fieldOf c.freqW f).map (fun v => [.init (v.setWidth 32)])
  | "START", [] => some [.start]
  | "STOP", [] => some [.stop]
  | "STATUS", [] => some [.status]
  | "WAIT_WC", [] => some [.waitWc]
  | "TXA", [dev, ['W']] => (fieldOf 8 dev).map (fun v => [txaOf v c.dirWrite])
  | "TXA", [dev, ['R']] => (fieldOf 8 dev).map (fun v => [txaOf v c.dirRead])
  | "TXB", [b] => (fieldOf 8 b).map (fun v => [.txb v])
  | "RX", [['A', 'C', 'K']] => some [.rx true]
  | "RX", [['N', 'A', 'K']] => some [.rx false]
  | "RD_BYTE", [a] => (fieldOf 8 a).map (fun v => [.rdByte v])
  | "WR_BYTE", [a, d] => (fieldOf 8 a).bind (fun v => (fieldOf 8 d).map (fun w => [.wrByte v w]))
  | "WR_PAGE", [a, l] => (fieldOf 8 a).bind (fun v => (fieldOf 8 l).map (fun w => [.wrPage v w]))
  | "SEQ_RD", [a, l] => (fieldOf 8 a).bind (fun v => (fieldOf 8 l).map (fun w => [.seqRd v w]))
  | "DECODE", [k] => (fieldOf 8 k).map (fun v => [.decode v])
  | "TRACE", [['O', 'N']] => some [.trace true]
  | "TRACE", [['O', 'F', 'F']] => some [.trace false]
  | "REG_RD", [r] => (registerOf c r).map (fun v => [.regRd v])
  | "BUF_WR", [a, d] => (fieldOf 8 a).bind (fun v => (fieldOf 8 d).map (fun w => [.bufWr v w]))
  | "BUF_RD", [a] => (fieldOf 8 a).map (fun v => [.bufRd v])
  | "RXA", [] => some (Pseudo.rxa.expand c)
  | "RXN", [] => some (Pseudo.rxn.expand c)
  | "TXAW", [dev] => (fieldOf 8 dev).map (fun v => (Pseudo.txaw v).expand c)
  | "TXAR", [dev] => (fieldOf 8 dev).map (fun v => (Pseudo.txar v).expand c)
  | "BUF_FILL", v :: vs =>
    if vs.length < 256 then ((v :: vs).mapM (fieldOf 8)).map (fun ws => (Pseudo.bufFill ws).expand c) else none
  | _, _ => none

/-- One line of assembly (R109): a blank line or a comment is no command. -/
def assembleLine (c : Config.Params) (line : String) : Option (List Instr) :=
  let code := trim (line.toList.takeWhile (· ≠ ';'))
  if code = [] then some []
  else
    let mnemonic := code.takeWhile (· ≠ ' ')
    let rest := trim (code.dropWhile (· ≠ ' '))
    commandOf c (String.ofList mnemonic) (if rest = [] then [] else (cutAt ',' rest).map trim)

/-- The command words of a program, one line after another. -/
def assemble (c : Config.Params) (lines : List String) : Option (List CmdWord) :=
  (lines.mapM (assembleLine c)).map (fun is => is.flatten.map encode)

end Sys2Proof.Asm
end

