-- ==== Sys2Proof/Safety.lean ====
section
/-! DEFINITION. Safety.lean: the terms claims are stated in: when the block is ready (30_encoding.md R100), when a run has
ended (70_reset_and_hazards.md R293), the named environment classes (20_memory.md R73), the vocabulary of the bus claims, and the invariant of the machine. -/

namespace Sys2Proof.Machine

/-- The block is ready for a command: none is executing and nothing is in flight (30_encoding.md R100, 10_state.md R37). -/
abbrev State.ready (s : State) : Prop := s.seq.cmd = none ∧ s.inflight = none

/-- The response that a step from `s` to `t` gives, if it gives one: the step was no reset, a command was executing or was
taken, and it executes no more (30_encoding.md R100, R106; an ERR response is a response, 70_reset_and_hazards.md R293). -/
def responseOf (s t : State) : Option RespWord :=
  if s.resetPin.head? = some true ∨ (s.seq.cmd = none ∧ s.port = []) ∨ t.seq.cmd ≠ none then none else t.resp

/-- A run of `n` steps with the responses it gives, oldest first; none if it is refused. -/
def respondingRun : Nat → State → Option (State × List RespWord)
  | 0, s => some (s, [])
  | n + 1, s =>
    match step s with
    | .next t => (respondingRun n t).map (fun r => (r.1, (responseOf s t).toList ++ r.2))
    | .fault _ => none
    | .refused _ => none

/-- The run of the program on the port of a ready block `s` has ended in `t` after `n` steps, with these responses
(70_reset_and_hazards.md R293): every command of the list has responded, `seq.cmd = none` and `inflight = none`. A
command that a reset aborts gives no response, so its run has not ended; a refused run has no state. -/
def State.ended (s : State) (n : Nat) (t : State) (rs : List RespWord) : Prop :=
  respondingRun n s = some (t, rs) ∧ rs.length = s.port.length ∧ t.seq.cmd = none ∧ t.inflight = none

/-- Everything a run from `s` can come to, whatever words, resets and pace the host brings. -/
inductive State.Later : State → State → Prop where
  | refl (s : State) : State.Later s s
  | step {s t u : State} : State.Later s t → step t = .next u → State.Later s u
  | host {s t : State} (port : List CmdWord) (pins : List Bool) (pace : Nat) :
      State.Later s t → State.Later s { t with port := port, resetPin := pins, pace := pace }

/-- The environment class `single_master` (20_memory.md R73): no outcome is ever `ArbLost`. -/
def Env.singleMaster : Env → Prop
  | .scripted now again => Answer.arbLost ∉ now ∧ Answer.arbLost ∉ again
  | .device _ => True
  | .free => ∀ n p, Config.freeAnswer n p ≠ some .arbLost

/-- The environment class `reference_device` (20_memory.md R73). Each of its busy windows ends, in both forms of R87: it
lasts a number of refusals or of events. -/
def Env.referenceDevice (e : Env) : Prop := ∃ d, e = .device d

/-- The environment class `responsive` (20_memory.md R73): whatever the host does from here on, a primitive that is in
flight gets an outcome after some number of polls. -/
def State.responsive (s : State) : Prop :=
  ∀ t p, State.Later s t → t.inflight = some p → ∃ n, (busTurn^[n] t).inflight = none

/-- The outcome that returns an acknowledge bit to TXA or TXB. -/
def answerOf : AckBit → Answer
  | .ack => .ack
  | .nak => .nak

/-- The acknowledge bit the master returns under a policy of RX. -/
def policyBit (ack : Bool) : AckBit := if ack then .ack else .nak

/-- The event of a granted START launched in a phase (20_memory.md R72). -/
def startEvent (ph : Phase) : BusEvent := if ph = .idle then .s else .sr

/-- The status code of a granted START launched in a phase (10_state.md R31). -/
def startCode (c : Config.Params) (ph : Phase) : Byte := if ph = .idle then c.codes.start else c.codes.rstart

/-- The status code of SLA+W by the acknowledge bit received (10_state.md R31). -/
def slaWCode (c : Config.Params) : AckBit → Byte
  | .ack => c.codes.slaWAck
  | .nak => c.codes.slaWNak

/-- The status code of SLA+R by the acknowledge bit received (10_state.md R31). -/
def slaRCode (c : Config.Params) : AckBit → Byte
  | .ack => c.codes.slaRAck
  | .nak => c.codes.slaRNak

/-- The status code of a data byte sent by the acknowledge bit received (10_state.md R31). -/
def dataWCode (c : Config.Params) : AckBit → Byte
  | .ack => c.codes.dataWAck
  | .nak => c.codes.dataWNak

/-- The status code of a data byte received by the acknowledge bit returned (10_state.md R31). -/
def dataRCode (c : Config.Params) : AckBit → Byte
  | .ack => c.codes.dataRAck
  | .nak => c.codes.dataRNak

/-- The trace events of primitives that completed with these status codes, one each, if tracing is enabled
(60_exceptions.md R262). -/
def traceOf (s : State) (codes : List Byte) : List TraceEvent :=
  if s.traceEn then codes.map (fun k => ⟨(decodeStatus s.cfg.codes (statusCode s.cfg k)).1, statusCode s.cfg k⟩) else []

/-- The bus events of a WAIT_WC whose control byte `w` is refused `n` times and then acknowledged, its first START launched
in phase `ph` (41_eeprom_client_transactions.md R186). -/
def waitEvents (w : Byte) : Phase → Nat → List BusEvent
  | ph, 0 => [startEvent ph, .tx w .ack]
  | ph, n + 1 => startEvent ph :: .tx w .nak :: waitEvents w .mt n

/-- The status codes of the primitives of such a WAIT_WC, in order. -/
def waitCodes (c : Config.Params) : Phase → Nat → List Byte
  | ph, 0 => [startCode c ph, c.codes.slaWAck]
  | ph, n + 1 => startCode c ph :: c.codes.slaWNak :: waitCodes c .mt n

/-- The answers that make a WAIT_WC retry `n` times and then end. -/
def waitAnswers : Nat → List Answer
  | 0 => [.granted, .ack]
  | n + 1 => .granted :: .nak :: waitAnswers n

/-- The offset of byte `k` of a page write that starts at `a`: in the page of `a`, `k` bytes on modulo `PAGE_SIZE`
(20_memory.md R84). -/
def pageOffset (c : Config.Params) (a : Byte) (k : Nat) : Byte :=
  BitVec.ofNat 8 (a.toNat / c.pageSize * c.pageSize + (a.toNat + k) % c.pageSize)

/-- The host issuing commands one after another, each after the response to the one before (70_reset_and_hazards.md
R293). -/
def hostRun : List Instr → State → Host.Outcome State Fault Refusal
  | [], s => .next s
  | i :: is, s =>
    match exec i s with
    | .next t => if t.seq.cmd = none then hostRun is t else .next t
    | .fault r => .fault r
    | .refused r => .refused r

/-- A state without what tracing adds to it: the enable bit and the diagnostic history (42_status_decoder.md R205). -/
def State.untraced (s : State) : State := { s with traceEn := false, diagHistory := [] }

/-- The phase a primitive may be launched in (40_bus_driver_primitives.md R135). -/
abbrev legalPhase (p : Prim) (ph : Phase) : Prop :=
  match p with
  | .start => True
  | .stop => ph ≠ .idle
  | .txa _ => ph = .started
  | .txb _ => ph = .mt
  | .rx _ => ph = .mr

/-- The invariant of the machine: what the spec says of every state the block can be in. -/
structure State.Inv (s : State) : Prop where
  /-- the bits of CTRL that are no field read 0 (10_state.md R25) -/
  ctrlReserved : s.ctrl &&& ~~~(ctrlUsed s.cfg.ctrlLayout) = 0x00#8
  /-- BUF is in canonical form (20_memory.md R62) -/
  bufWf : Memory.wf bufBlank s.cfg.bufSize s.buf
  /-- the device's `mem` is in canonical form (20_memory.md R80) -/
  memWf : ∀ d, s.env = .device d → Memory.wf eepromBlank s.cfg.eepromSize d.mem
  /-- the device's pointer and the offsets of its pending bytes are offsets of the device (20_memory.md R68, R84, R85) -/
  offsetsFit : ∀ d, s.env = .device d → d.offsetsFit s.cfg
  /-- a ready block waits for nothing (10_state.md R37) -/
  readyWaits : s.seq.cmd = none → s.seq.wait = none
  /-- the sequencer waits for the primitive in flight (10_state.md R37) -/
  flightWaited : ∀ p, s.inflight = some p → s.seq.wait = some p
  /-- while a primitive is in flight its completion flag is not seen (10_state.md R26, R27) -/
  flightUnseen : ∀ p, s.inflight = some p → completionSeen s.cfg.ctrlLayout p s.ctrl = false
  /-- a primitive is in flight only in a phase that is legal for it (40_bus_driver_primitives.md R135) -/
  flightLegal : ∀ p, s.inflight = some p → legalPhase p s.phase
  /-- a primitive waited for and no longer in flight has its flag up (40_bus_driver_primitives.md R136) -/
  completedSeen : ∀ p, s.seq.wait = some p → s.inflight = none → completionSeen s.cfg.ctrlLayout p s.ctrl = true
  /-- STO is 1 only while a STOP is in flight (10_state.md R27) -/
  stoStop : ctrlField s.cfg.ctrlLayout .sto s.ctrl = true → s.inflight = some .stop
  /-- before INIT nothing has touched the bus (40_bus_driver_primitives.md R135) -/
  quietBeforeInit : s.initialized = false → s.phase = .idle ∧ s.ctrl = 0x00#8 ∧ s.inflight = none
  /-- `seq.pc` is an index of the command's table (10_state.md R36) -/
  pcInTable : ∀ i, s.seq.cmd = some i → s.seq.pc < (sequenceOf s.cfg i).length

end Sys2Proof.Machine
end

