-- ==== Sys2Proof/Certificates/Slice0/Obligations.lean ====
section
/-! DEFINITION. Certificates/Slice0/Obligations.lean: the statements for the provers, from the numbered rules of spec/.
`s.ready` is R100's "accepts a command only when seq.cmd = none"; `k ≤ s.pace` says that one model step is long enough for
the command, and `PaceChangesNothing` that a state of any pace comes to the same (log 3); a scripted environment gives the
listed answers. The parameters of R8 are fields of `s.cfg`, named in the statements, which hold for all of their values; CTRL
is written by its fields, whose positions are parameters: `ctrlByte l [.int, .en]` has INT and EN up. -/

open Sys2Proof Sys2Proof.Machine

/-! ### Encoding -/

/-- 30_encoding.md section 8: every worked encoding decodes to the command it stands for (R8's table). -/
def Obligations.DecodeReadsWorkedEncodings : Prop :=
  decode defaultParams 0x01000186A0#40 = .ok (.init 100000#32) ∧
  decode defaultParams 0x0200000000#40 = .ok .start ∧
  decode defaultParams 0x0300000000#40 = .ok .stop ∧
  decode defaultParams 0x04000000A0#40 = .ok (.txa 0x50#7 0#1) ∧
  decode defaultParams 0x04000000A1#40 = .ok (.txa 0x50#7 1#1) ∧
  decode defaultParams 0x0500000010#40 = .ok (.txb 0x10#8) ∧
  decode defaultParams 0x0600000001#40 = .ok (.rx true) ∧
  decode defaultParams 0x0600000000#40 = .ok (.rx false) ∧
  decode defaultParams 0x0700000000#40 = .ok .status ∧
  decode defaultParams 0x1000000010#40 = .ok (.rdByte 0x10#8) ∧
  decode defaultParams 0x110000AB10#40 = .ok (.wrByte 0x10#8 0xAB#8) ∧
  decode defaultParams 0x1200000808#40 = .ok (.wrPage 0x08#8 8#8) ∧
  decode defaultParams 0x1300000808#40 = .ok (.seqRd 0x08#8 8#8) ∧
  decode defaultParams 0x1400000000#40 = .ok .waitWc ∧
  decode defaultParams 0x2000000099#40 = .ok (.decode 0x99#8) ∧
  decode defaultParams 0x2100000001#40 = .ok (.trace true) ∧
  decode defaultParams 0x2200000002#40 = .ok (.regRd 2#3) ∧
  decode defaultParams 0x2300005A03#40 = .ok (.bufWr 3#8 0x5A#8) ∧
  decode defaultParams 0x2400000003#40 = .ok (.bufRd 3#8)

/-- R101, R102, R103: no field of an encoding is dropped. -/
def Obligations.DecodeOfEncodeIsTheInstruction : Prop :=
  ∀ (c : Config.Params) (i : Instr), i.wellFormed c = true → decode c (encode i) = .ok i

/-- R104, R105, R108: a word has one meaning, and only a word with its reserved bits 0 has one. -/
def Obligations.EncodeOfDecodeIsTheWord : Prop :=
  ∀ (c : Config.Params) (w : CmdWord) (i : Instr), decode c w = .ok i → encode i = w ∧ i.wellFormed c = true

/-- R105: the order of the causes; R243: the illegal field values; a register address is illegal when R8 puts no register
there: with its table 5, 6 and 7. -/
def Obligations.IllegalCausesInOrder : Prop :=
  (∀ (c : Config.Params) (w : CmdWord),
    (decode c w = .error .reservedOpcode ↔ ∀ o : Opcode, o.code ≠ w.extractLsb' 32 8) ∧
    (decode c w = .error .reservedBit ↔
      ∃ o : Opcode, o.code = w.extractLsb' 32 8 ∧ w &&& o.format.reserved c ≠ 0#40) ∧
    (decode c w = .error .illegalField ↔
      ∃ o : Opcode, o.code = w.extractLsb' 32 8 ∧ w &&& o.format.reserved c = 0#40 ∧
        (((o = .wrPage ∨ o = .seqRd) ∧ w.extractLsb' 8 8 = 0#8) ∨
         (o = .regRd ∧ w.extractLsb' 0 3 ∉ c.registers.addrs)))) ∧
  ∀ reg : BitVec 3, reg ∉ defaultParams.registers.addrs ↔ 5 ≤ reg.toNat

/-- R105: "Steps (1) and (2) together are 'matches no row of opcode_table.json'", and no word matches two rows.
The table's INIT has `FREQ_W` = 32. -/
def Obligations.OpcodeTableAgreesWithDecoder : Prop :=
  (∀ (c : Config.Params) (w : CmdWord), c.freqW = 32 → ((∃ r ∈ opcodeTable, w &&& r.mask = r.value) ↔
    (decode c w ≠ .error .reservedOpcode ∧ decode c w ≠ .error .reservedBit))) ∧
  (∀ (w : CmdWord) (r q : OpcodeRow), r ∈ opcodeTable → q ∈ opcodeTable →
    w &&& r.mask = r.value → w &&& q.mask = q.value → r = q)

/-- R108: the reserved opcodes. -/
def Obligations.ReservedOpcodesAreIllegal : Prop :=
  ∀ c : Config.Params, decode c 0x0000000000#40 = .error .reservedOpcode ∧
  ∀ w : CmdWord, decode c w = .error .reservedOpcode ↔
    ((w.extractLsb' 32 8).toNat = 0x00 ∨
     (0x08 ≤ (w.extractLsb' 32 8).toNat ∧ (w.extractLsb' 32 8).toNat ≤ 0x0F) ∨
     (0x15 ≤ (w.extractLsb' 32 8).toNat ∧ (w.extractLsb' 32 8).toNat ≤ 0x1F) ∨
     0x25 ≤ (w.extractLsb' 32 8).toNat)

/-! ### The step, the port and reset -/

/-- R100, R105: a ready block takes the word on the port and executes the command it decodes to. -/
def Obligations.StepExecutesDecodedCommand : Prop :=
  ∀ (s : State) (w : CmdWord) (i : Instr) (ws : List CmdWord),
    s.resetPin.head? ≠ some true → s.seq.cmd = none → s.port = w :: ws → decode s.cfg w = .ok i →
    step s = exec i { s with port := ws, resetPin := s.resetPin.tail }

/-- R13: the pace, the model's own (log 3), changes nothing but how many of a command's steps one model step makes: a state
of pace `k` comes to what the same state of pace 0 comes to in `k` further steps. -/
def Obligations.PaceChangesNothing : Prop :=
  ∀ (s : State) (i : Instr) (k : Nat), s.seq.cmd = none → s.port = [] → s.resetPin = [] → s.pace = 0 →
    (∀ t, exec i { s with pace := k } = .next t →
      ∃ u, exec i s = .next u ∧ Host.Core.run Sys2Proof.core k u = .next { t with pace := 0 }) ∧
    (∀ r, exec i { s with pace := k } = .refused r →
      exec i s = .refused r ∨ ∃ u, exec i s = .next u ∧ Host.Core.run Sys2Proof.core k u = .refused r)

/-- R100, R293: a command responds once, and no response comes of nothing: in a run with no reset the responses, the command
still executing and the words still on the port are as many as the words that stood on it. -/
def Obligations.RunHasOneResponsePerWord : Prop :=
  ∀ (s t : State) (n : Nat) (rs : List RespWord), s.seq.cmd = none → (∀ b ∈ s.resetPin, b = false) →
    respondingRun n s = some (t, rs) →
    rs.length + (if t.seq.cmd = none then 0 else 1) + t.port.length = s.port.length

/-- R241: an illegal word is answered ERR with its cause and changes nothing else, whatever the state. -/
def Obligations.IllegalWordOnlyResponds : Prop :=
  ∀ (s : State) (w : CmdWord) (c : IllegalCause) (ws : List CmdWord),
    s.resetPin.head? ≠ some true → s.seq.cmd = none → s.port = w :: ws → decode s.cfg w = .error c →
    ∃ r : RespWord,
      step s = .next { s with port := ws, resetPin := s.resetPin.tail, resp := some r } ∧
      (c = .reservedOpcode → r = 0xE100#16) ∧ (c = .reservedBit → r = 0xE200#16) ∧
      (c = .illegalField → r = 0xE300#16)

/-- R100: from acceptance until it responds the block accepts nothing, and it goes on with its command. -/
def Obligations.BusyBlockTakesNoWord : Prop :=
  ∀ s : State, s.resetPin.head? ≠ some true → s.seq.cmd ≠ none →
    step s = resume { s with resetPin := s.resetPin.tail } ∧
    ∀ t, step s = .next t → t.port = s.port ∧ (t.seq.cmd = s.seq.cmd ∨ t.seq.cmd = none)

/-- The model's own choice (log 19, DEDUCED), no rule of the spec: R241 has decoding alone raise IllegalCommand, and the
decoder rejects these operand values (R243), so no word brings them to exec; given them past the decoder, exec answers
what decoding answers, IllegalCommand(3) and no other change. -/
def Obligations.IllFormedOperandsAreIllegal : Prop :=
  ∀ (s : State) (addr : Byte) (reg : BitVec 3), reg ∉ s.cfg.registers.addrs →
    exec (.wrPage addr 0#8) s = .next { s with resp := some 0xE300#16 } ∧
    exec (.seqRd addr 0#8) s = .next { s with resp := some 0xE300#16 } ∧
    exec (.regRd reg) s = .next { s with resp := some 0xE300#16 }

/-- R272: the block executes nothing until the host issues a command. -/
def Obligations.IdleBlockDoesNothing : Prop :=
  ∀ s : State, s.resetPin.head? ≠ some true → s.seq.cmd = none → s.port = [] →
    step s = .next { s with resetPin := s.resetPin.tail }

/-- R270, R42: a reset at any point of a run sets the block to the table's values, in one step; BUF, the environment and
the diagnostic history stay, the bus history gets the marker. (What the response port shows after it is the model's
choice, log 9: here only that no response appears: it is empty or as it was.) -/
def Obligations.ResetSetsEveryRegister : Prop :=
  ∀ (s : State) (pins : List Bool), s.resetPin = true :: pins →
    ∃ r : Option RespWord,
      (r = none ∨ r = s.resp) ∧
      step s = .next { s with
        ctrl := 0x00#8
        rate := 0x00#8
        status := (s.cfg.resetStatus &&& s.cfg.statusMask) ||| (s.cfg.psReset &&& ~~~s.cfg.statusMask)
        data := s.cfg.resetData
        phase := .idle
        inflight := none
        initialized := false
        traceEn := false
        result := 0x00#8
        seq := { cmd := none, pc := 0, i := 0#8, wait := none }
        resp := r
        busHistory := s.busHistory ++ [.reset]
        resetPin := pins }

/-- R42: the values right after reset, with the table of R8 for the parameters. -/
def Obligations.ResetStateHoldsTheTable : Prop :=
  State.reset.cfg = defaultParams ∧
  State.reset.ctrl = 0x00#8 ∧ State.reset.rate = 0x00#8 ∧
  State.reset.status = (State.reset.cfg.resetStatus &&& State.reset.cfg.statusMask) |||
    (State.reset.cfg.psReset &&& ~~~State.reset.cfg.statusMask) ∧
  State.reset.data = State.reset.cfg.resetData ∧ State.reset.phase = .idle ∧ State.reset.inflight = none ∧
  State.reset.initialized = false ∧ State.reset.traceEn = false ∧ State.reset.result = 0x00#8 ∧
  State.reset.seq.cmd = none ∧ State.reset.seq.pc = 0 ∧ State.reset.seq.i = 0#8 ∧
  State.reset.fsmState = 0x00#8 ∧ ∀ k, readBuf k State.reset = none

/-! ### INIT and STATUS -/

/-- R132, R133: INIT writes the divisor and `initialized` and nothing else, exactly for the frequencies whose divisor is at most
`2 ^ RATE_W - 1` and exactly once; RATE is never a truncated value. With `RATE_W` = 8 that is R133's range. -/
def Obligations.InitProgramsTheDivisor : Prop :=
  ∀ (s : State) (freq : BitVec 32) (q : Nat), q = s.cfg.baseClockHz / freq.toNat →
    (s.initialized = true → exec (.init freq) s = .refused .initTwice) ∧
    (s.initialized = false → (freq = 0#32 ∨ q < 16 ∨ 2 ^ s.cfg.rateW.val - 1 < (q - 16) / 2) →
      exec (.init freq) s = .refused .initRange) ∧
    (s.initialized = false → freq ≠ 0#32 → 16 ≤ q → (q - 16) / 2 ≤ 2 ^ s.cfg.rateW.val - 1 →
      ∃ d : Byte, d.toNat = (q - 16) / 2 ∧
        exec (.init freq) s =
          .next { s with rate := d, initialized := true, seq := Seq.idle, resp := some 0x0000#16 }) ∧
    (s.cfg.rateW = 8 → ((q - 16) / 2 ≤ 2 ^ s.cfg.rateW.val - 1 ↔ q ≤ 527))

/-- R276: a reset makes INIT legal again, and between two resets a second INIT is refused. -/
def Obligations.InitOncePerReset : Prop :=
  ∀ (s t : State) (f g : BitVec 32),
    (exec (.init f) s = .next t → exec (.init g) t = .refused .initTwice) ∧
    (exec (.init f) s = .next t → ∃ u, exec (.init f) (resetEvent t) = .next u ∧ u.rate = t.rate)

/-- R134: STATUS responds the masked code, whose prescaler bits are zero for every content of the register; it has no
precondition and writes nothing. With five code bits the mask is 0xF8. -/
def Obligations.StatusRespondsMaskedCode : Prop :=
  ∀ s : State,
    decode s.cfg 0x0700000000#40 = .ok .status ∧
    exec .status s = .next { s with seq := Seq.idle, resp := some (0x10#8 ++ (s.status &&& s.cfg.statusMask)) } ∧
    (∀ j, j < s.cfg.statusPsBits → (s.status &&& s.cfg.statusMask).getLsbD j = false) ∧
    (∀ j, s.cfg.statusPsBits ≤ j → (s.status &&& s.cfg.statusMask).getLsbD j = s.status.getLsbD j) ∧
    (s.cfg.statusCodeBits = 5 → s.cfg.statusPsBits = 3 ∧ s.cfg.statusMask = 0xF8#8 ∧
      (s.status &&& s.cfg.statusMask) &&& 0x07#8 = 0x00#8)

/-! ### Bus primitives -/

/-- R131: what a launch writes, whatever the registers held, and the completion flag that is then waited for. INT is
written to clear it; the other fields written are what CTRL reads. With the positions of R8's table these are the bytes of
R131's table. -/
def Obligations.LaunchWritesControl : Prop :=
  (∀ s : State,
    ((launch .start s).ctrl = ctrlByte s.cfg.ctrlLayout [.sta, .en] ∧ (launch .start s).data = s.data) ∧
    ((launch .stop s).ctrl = ctrlByte s.cfg.ctrlLayout [.sto, .en] ∧ (launch .stop s).data = s.data) ∧
    (∀ b, (launch (.txa b) s).ctrl = ctrlByte s.cfg.ctrlLayout [.en] ∧ (launch (.txa b) s).data = b) ∧
    (∀ b, (launch (.txb b) s).ctrl = ctrlByte s.cfg.ctrlLayout [.en] ∧ (launch (.txb b) s).data = b) ∧
    ((launch (.rx true) s).ctrl = ctrlByte s.cfg.ctrlLayout [.ea, .en] ∧ (launch (.rx true) s).data = s.data) ∧
    ((launch (.rx false) s).ctrl = ctrlByte s.cfg.ctrlLayout [.en] ∧ (launch (.rx false) s).data = s.data) ∧
    ∀ p, (launch p s).seq = { s.seq with wait := some p } ∧
      (launch p s).ctrl = ctrlWrite s.cfg.ctrlLayout s.ctrl (launchWord s.cfg.ctrlLayout p) ∧
      launch p s = { s with
        data := (launch p s).data
        ctrl := (launch p s).ctrl
        inflight := some p
        seq := (launch p s).seq }) ∧
  (∀ (l : Config.CtrlLayout) (fs : List CtrlField),
    (∀ f, ctrlField l f (ctrlByte l fs) = decide (f ∈ fs)) ∧ ctrlByte l fs &&& ~~~(ctrlUsed l) = 0x00#8) ∧
  (∀ (l : Config.CtrlLayout) (c : Byte),
    completionSeen l .stop c = !ctrlField l .sto c ∧ completionSeen l .start c = ctrlField l .int c ∧
    (∀ b, completionSeen l (.txa b) c = ctrlField l .int c ∧ completionSeen l (.txb b) c = ctrlField l .int c) ∧
    ∀ ack, completionSeen l (.rx ack) c = ctrlField l .int c) ∧
  launchWord defaultCtrlLayout .start = 0xA4#8 ∧ ctrlByte defaultCtrlLayout [.sta, .en] = 0x24#8 ∧
  launchWord defaultCtrlLayout .stop = 0x94#8 ∧ ctrlByte defaultCtrlLayout [.sto, .en] = 0x14#8 ∧
  (∀ b, launchWord defaultCtrlLayout (.txa b) = 0x84#8 ∧ launchWord defaultCtrlLayout (.txb b) = 0x84#8) ∧
  launchWord defaultCtrlLayout (.rx true) = 0xC4#8 ∧ ctrlByte defaultCtrlLayout [.ea, .en] = 0x44#8 ∧
  launchWord defaultCtrlLayout (.rx false) = 0x84#8 ∧ ctrlByte defaultCtrlLayout [.en] = 0x04#8

/-- R140: START in every phase, granted or lost; all else unchanged. -/
def Obligations.StartCompletes : Prop :=
  ∀ s s1 : State, s.ready → s.initialized = true → 3 ≤ s.pace →
    (pollEnv .start s = (some .granted, s1) →
      exec .start s = .next { s with
        ctrl := ctrlByte s.cfg.ctrlLayout [.int, .sta, .en]
        status := withCode s.cfg s.status (if s.phase = .idle then s.cfg.codes.start else s.cfg.codes.rstart)
        phase := .started
        seq := Seq.idle
        resp := some 0x0000#16
        busHistory := s.busHistory ++ [if s.phase = .idle then .s else .sr]
        diagHistory := s.diagHistory ++ traceOf s [if s.phase = .idle then s.cfg.codes.start else s.cfg.codes.rstart]
        env := s1.env
        draws := s1.draws }) ∧
    (pollEnv .start s = (some .arbLost, s1) →
      exec .start s = .next { s with
        ctrl := ctrlByte s.cfg.ctrlLayout [.int, .sta, .en]
        status := withCode s.cfg s.status s.cfg.codes.arbLost
        phase := .idle
        seq := Seq.idle
        resp := some 0x0000#16
        busHistory := s.busHistory ++ [.lost .start]
        diagHistory := s.diagHistory ++ traceOf s [s.cfg.codes.arbLost]
        env := s1.env
        draws := s1.draws })

/-- R144: STOP in a phase other than IDLE; INT is not set, STO has returned to 0, DATA and RESULT stay. -/
def Obligations.StopCompletes : Prop :=
  ∀ s s1 : State, s.ready → s.initialized = true → s.phase ≠ .idle → 3 ≤ s.pace →
    pollEnv .stop s = (some .done, s1) →
    exec .stop s = .next { s with
      ctrl := ctrlByte s.cfg.ctrlLayout [.en]
      status := withCode s.cfg s.status (stopStatus s.cfg (s.status &&& s.cfg.statusMask))
      phase := .idle
      seq := Seq.idle
      resp := some 0x0000#16
      busHistory := s.busHistory ++ [.p]
      diagHistory := s.diagHistory ++ traceOf s [stopStatus s.cfg (s.status &&& s.cfg.statusMask)]
      env := s1.env
      draws := s1.draws }

/-- R148: TXA in phase STARTED, by direction and outcome; after a lost arbitration DATA is a free value. -/
def Obligations.TxaCompletes : Prop :=
  ∀ (s s1 : State) (sla : BitVec 7) (rw : BitVec 1),
    s.ready → s.initialized = true → s.phase = .started → 3 ≤ s.pace →
    (∀ a : AckBit, pollEnv (.txa (sla ++ rw)) s = (some (answerOf a), s1) →
      exec (.txa sla rw) s = .next { s with
        ctrl := ctrlByte s.cfg.ctrlLayout [.int, .en]
        data := sla ++ rw
        status := withCode s.cfg s.status (if rw = s.cfg.dirWrite then slaWCode s.cfg a else slaRCode s.cfg a)
        phase := if rw = s.cfg.dirWrite then .mt else .mr
        seq := Seq.idle
        resp := some 0x0000#16
        busHistory := s.busHistory ++ [.tx (sla ++ rw) a]
        diagHistory := s.diagHistory ++ traceOf s [if rw = s.cfg.dirWrite then slaWCode s.cfg a else slaRCode s.cfg a]
        env := s1.env
        draws := s1.draws }) ∧
    (pollEnv (.txa (sla ++ rw)) s = (some .arbLost, s1) →
      ∃ dd : Byte, exec (.txa sla rw) s = .next { s with
        ctrl := ctrlByte s.cfg.ctrlLayout [.int, .en]
        data := dd
        status := withCode s.cfg s.status s.cfg.codes.arbLost
        phase := .idle
        seq := Seq.idle
        resp := some 0x0000#16
        busHistory := s.busHistory ++ [.lost (.tx (sla ++ rw))]
        diagHistory := s.diagHistory ++ traceOf s [s.cfg.codes.arbLost]
        env := s1.env
        draws := s1.draws + 1 })

/-- R151: TXB in phase MT; the phase stays MT after ACK and after NAK. -/
def Obligations.TxbCompletes : Prop :=
  ∀ (s s1 : State) (b : Byte),
    s.ready → s.initialized = true → s.phase = .mt → 3 ≤ s.pace →
    (∀ a : AckBit, pollEnv (.txb b) s = (some (answerOf a), s1) →
      exec (.txb b) s = .next { s with
        ctrl := ctrlByte s.cfg.ctrlLayout [.int, .en]
        data := b
        status := withCode s.cfg s.status (dataWCode s.cfg a)
        seq := Seq.idle
        resp := some 0x0000#16
        busHistory := s.busHistory ++ [.tx b a]
        diagHistory := s.diagHistory ++ traceOf s [dataWCode s.cfg a]
        env := s1.env
        draws := s1.draws }) ∧
    (pollEnv (.txb b) s = (some .arbLost, s1) →
      ∃ dd : Byte, exec (.txb b) s = .next { s with
        ctrl := ctrlByte s.cfg.ctrlLayout [.int, .en]
        data := dd
        status := withCode s.cfg s.status s.cfg.codes.arbLost
        phase := .idle
        seq := Seq.idle
        resp := some 0x0000#16
        busHistory := s.busHistory ++ [.lost (.tx b)]
        diagHistory := s.diagHistory ++ traceOf s [s.cfg.codes.arbLost]
        env := s1.env
        draws := s1.draws + 1 })

/-- R154: RX in phase MR; the byte is in DATA, RESULT and the response; the code records the acknowledge returned. -/
def Obligations.RxCompletes : Prop :=
  ∀ (s s1 : State) (ack : Bool),
    s.ready → s.initialized = true → s.phase = .mr → 3 ≤ s.pace →
    (∀ d : Byte, pollEnv (.rx ack) s = (some (.byte d), s1) →
      exec (.rx ack) s = .next { s with
        ctrl := ctrlByte s.cfg.ctrlLayout (if ack then [.int, .ea, .en] else [.int, .en])
        data := d
        result := d
        status := withCode s.cfg s.status (dataRCode s.cfg (policyBit ack))
        seq := Seq.idle
        resp := some (0x10#8 ++ d)
        busHistory := s.busHistory ++ [.rx d (policyBit ack)]
        diagHistory := s.diagHistory ++ traceOf s [dataRCode s.cfg (policyBit ack)]
        env := s1.env
        draws := s1.draws }) ∧
    (pollEnv (.rx ack) s = (some .arbLost, s1) →
      ∃ dd : Byte, exec (.rx ack) s = .next { s with
        ctrl := ctrlByte s.cfg.ctrlLayout (if ack then [.int, .ea, .en] else [.int, .en])
        data := dd
        result := dd
        status := withCode s.cfg s.status s.cfg.codes.arbLost
        phase := .idle
        seq := Seq.idle
        resp := some (0x10#8 ++ dd)
        busHistory := s.busHistory ++ [.lost .rx]
        diagHistory := s.diagHistory ++ traceOf s [s.cfg.codes.arbLost]
        env := s1.env
        draws := s1.draws + 1 })

/-- R135: the contracts of the primitives, in every ready state; START alone has none but `initialized`. -/
def Obligations.BrokenContractsAreRefused : Prop :=
  ∀ s : State, s.ready →
    (s.initialized = false →
      exec .start s = .refused .notInitialized ∧ exec .stop s = .refused .notInitialized ∧
      (∀ sla rw, exec (.txa sla rw) s = .refused .notInitialized) ∧
      (∀ b, exec (.txb b) s = .refused .notInitialized) ∧
      (∀ a, exec (.rx a) s = .refused .notInitialized) ∧
      (∀ a, exec (.rdByte a) s = .refused .notInitialized) ∧
      (∀ a d, exec (.wrByte a d) s = .refused .notInitialized) ∧
      (∀ a n, n ≠ 0#8 → exec (.wrPage a n) s = .refused .notInitialized) ∧
      (∀ a n, n ≠ 0#8 → exec (.seqRd a n) s = .refused .notInitialized) ∧
      exec .waitWc s = .refused .notInitialized) ∧
    (s.initialized = true →
      (∀ r, exec .start s ≠ .refused r) ∧
      (s.phase = .idle → exec .stop s = .refused .stopWithoutStart) ∧
      (s.phase ≠ .started → ∀ sla rw, exec (.txa sla rw) s = .refused .addressNotAfterStart) ∧
      (s.phase ≠ .mt → ∀ b, exec (.txb b) s = .refused .transmitNotInWrite) ∧
      (s.phase ≠ .mr → ∀ a, exec (.rx a) s = .refused .receiveNotInRead))

/-- R251, R73: a primitive whose outcome never comes stays in flight for ever: no response, no time-out, no change, in
whatever command it is; and each of the five primitive commands, in a phase legal for it, comes to stand so. The bus that
never answers is a script with no answer left (log 12). -/
def Obligations.UnansweredPrimitiveHangs : Prop :=
  ∀ s : State, s.env = .scripted [] [] → s.resetPin = [] →
    (∀ p, s.Inv → s.inflight = some p → ∀ n, Host.Core.run Sys2Proof.core n s = .next s) ∧
    ∀ (i : Instr) (p : Prim), s.ready → s.initialized = true → legalPhase p s.phase →
      ((i = .start ∧ p = .start) ∨ (i = .stop ∧ p = .stop) ∨ (∃ sla rw, i = .txa sla rw ∧ p = .txa (sla ++ rw)) ∨
        (∃ b, i = .txb b ∧ p = .txb b) ∨ ∃ ack, i = .rx ack ∧ p = .rx ack) →
      ∃ t, exec i s = .next t ∧ t.inflight = some p ∧ t.seq.cmd = some i ∧ t.ctrl = (launch p s).ctrl ∧
        t.data = (launch p s).data ∧ t.status = s.status ∧ t.phase = s.phase ∧ t.busHistory = s.busHistory ∧
        ∀ n, Host.Core.run Sys2Proof.core n t = .next t

/-! ### Transactions -/

/-- R180: RD_BYTE, whatever the acknowledges received; it aborts on none (R173). -/
def Obligations.RdByteCompletes : Prop :=
  ∀ (s : State) (addr : Byte) (a1 a2 a3 : AckBit) (d : Byte) (rest again : List Answer),
    s.ready → s.initialized = true → 21 ≤ s.pace →
    s.env = .scripted
      (.granted :: answerOf a1 :: answerOf a2 :: .granted :: answerOf a3 :: .byte d :: .done :: rest) again →
    exec (.rdByte addr) s = .next { s with
      ctrl := ctrlByte s.cfg.ctrlLayout [.en]
      data := d
      result := d
      status := withCode s.cfg s.status (stopStatus s.cfg (statusCode s.cfg s.cfg.codes.dataRNak))
      phase := .idle
      seq := Seq.idle
      resp := some (0x10#8 ++ d)
      busHistory := s.busHistory ++
        [startEvent s.phase, .tx (slaW s.cfg) a1, .tx addr a2, .sr, .tx (slaR s.cfg) a3, .rx d .nak, .p]
      diagHistory := s.diagHistory ++ traceOf s
        [startCode s.cfg s.phase, slaWCode s.cfg a1, dataWCode s.cfg a2, s.cfg.codes.rstart, slaRCode s.cfg a3,
         s.cfg.codes.dataRNak, stopStatus s.cfg (statusCode s.cfg s.cfg.codes.dataRNak)]
      env := .scripted rest again }

/-- R181: WR_BYTE, whatever the acknowledges received. -/
def Obligations.WrByteCompletes : Prop :=
  ∀ (s : State) (addr data : Byte) (a1 a2 a3 : AckBit) (rest again : List Answer),
    s.ready → s.initialized = true → 15 ≤ s.pace →
    s.env = .scripted (.granted :: answerOf a1 :: answerOf a2 :: answerOf a3 :: .done :: rest) again →
    exec (.wrByte addr data) s = .next { s with
      ctrl := ctrlByte s.cfg.ctrlLayout [.en]
      data := data
      status := withCode s.cfg s.status (stopStatus s.cfg (statusCode s.cfg (dataWCode s.cfg a3)))
      phase := .idle
      seq := Seq.idle
      resp := some 0x0000#16
      busHistory := s.busHistory ++
        [startEvent s.phase, .tx (slaW s.cfg) a1, .tx addr a2, .tx data a3, .p]
      diagHistory := s.diagHistory ++ traceOf s
        [startCode s.cfg s.phase, slaWCode s.cfg a1, dataWCode s.cfg a2, dataWCode s.cfg a3,
         stopStatus s.cfg (statusCode s.cfg (dataWCode s.cfg a3))]
      env := .scripted rest again }

/-- R183: WR_PAGE sends `BUF[0..len-1]` from first to last and STOP, for every length and whatever the acknowledges;
BUF is unchanged. -/
def Obligations.WrPageCompletes : Prop :=
  ∀ (s : State) (addr len : Byte) (a1 a2 : AckBit) (vs : List Byte) (acks : List AckBit) (v : Byte) (a : AckBit)
    (rest again : List Answer),
    s.ready → s.initialized = true → 3 * (vs.length + 5) ≤ s.pace →
    len.toNat = vs.length + 1 → acks.length = vs.length →
    (∀ k, k < len.toNat → readBuf (BitVec.ofNat 8 k) s = (vs ++ [v])[k]?) →
    s.env = .scripted
      (.granted :: answerOf a1 :: answerOf a2 :: ((acks ++ [a]).map answerOf ++ .done :: rest)) again →
    exec (.wrPage addr len) s = .next { s with
      ctrl := ctrlByte s.cfg.ctrlLayout [.en]
      data := v
      status := withCode s.cfg s.status (stopStatus s.cfg (statusCode s.cfg (dataWCode s.cfg a)))
      phase := .idle
      seq := Seq.idle
      resp := some 0x0000#16
      busHistory := s.busHistory ++
        ([startEvent s.phase, .tx (slaW s.cfg) a1, .tx addr a2] ++
          List.zipWith BusEvent.tx (vs ++ [v]) (acks ++ [a]) ++ [.p])
      diagHistory := s.diagHistory ++ traceOf s
        ([startCode s.cfg s.phase, slaWCode s.cfg a1, dataWCode s.cfg a2] ++
          (acks ++ [a]).map (dataWCode s.cfg) ++ [stopStatus s.cfg (statusCode s.cfg (dataWCode s.cfg a))])
      env := .scripted rest again }

/-- R185: SEQ_RD receives exactly `len` bytes, ACKNOWLEDGE for all but the last, into `BUF[0..len-1]` (every index below
`len` is one of BUF with the table's `BUF_SIZE`; at other values log 23); the rest of BUF is unchanged. -/
def Obligations.SeqRdCompletes : Prop :=
  ∀ (s : State) (addr len : Byte) (a1 a2 a3 : AckBit) (ds : List Byte) (d : Byte) (rest again : List Answer),
    s.ready → s.initialized = true → 3 * (ds.length + 7) ≤ s.pace → len.toNat = ds.length + 1 →
    s.env = .scripted
      (.granted :: answerOf a1 :: answerOf a2 :: .granted :: answerOf a3 ::
        ((ds ++ [d]).map Answer.byte ++ .done :: rest)) again →
    ∃ t, exec (.seqRd addr len) s = .next t ∧
      t = { s with
        ctrl := ctrlByte s.cfg.ctrlLayout [.en]
        data := d
        result := d
        status := withCode s.cfg s.status (stopStatus s.cfg (statusCode s.cfg s.cfg.codes.dataRNak))
        phase := .idle
        seq := Seq.idle
        buf := t.buf
        resp := some 0x0000#16
        busHistory := s.busHistory ++
          ([startEvent s.phase, .tx (slaW s.cfg) a1, .tx addr a2, .sr, .tx (slaR s.cfg) a3] ++
            ds.map (fun b => BusEvent.rx b .ack) ++ [.rx d .nak, .p])
        diagHistory := s.diagHistory ++ traceOf s
          ([startCode s.cfg s.phase, slaWCode s.cfg a1, dataWCode s.cfg a2, s.cfg.codes.rstart, slaRCode s.cfg a3] ++
            ds.map (fun _ => s.cfg.codes.dataRAck) ++
            [s.cfg.codes.dataRNak, stopStatus s.cfg (statusCode s.cfg s.cfg.codes.dataRNak)])
        env := .scripted rest again } ∧
      (∀ k : Byte, k.toNat < len.toNat → k.toNat < s.cfg.bufSize → readBuf k t = (ds ++ [d])[k.toNat]?) ∧
      (∀ k : Byte, len.toNat ≤ k.toNat → readBuf k t = readBuf k s)

/-- R186, R188: WAIT_WC against a bus that refuses the control byte `n` times and then acknowledges it issues exactly
`n + 1` pairs of START and address, sends no STOP and leaves phase MT. A TXA that lost arbitration is a refusal among
others: the next START is an `S` (R186, corner case 2). -/
def Obligations.WaitWcCompletes : Prop :=
  ∀ (s : State) (n : Nat) (rest again : List Answer), s.ready → s.initialized = true → s.cfg.codesWf →
    (7 * n + 6 ≤ s.pace → s.env = .scripted (waitAnswers n ++ rest) again →
      exec .waitWc s = .next { s with
        ctrl := ctrlByte s.cfg.ctrlLayout [.int, .en]
        data := slaW s.cfg
        status := withCode s.cfg s.status s.cfg.codes.slaWAck
        phase := .mt
        seq := Seq.idle
        resp := some 0x0000#16
        busHistory := s.busHistory ++ waitEvents (slaW s.cfg) s.phase n
        diagHistory := s.diagHistory ++ traceOf s (waitCodes s.cfg s.phase n)
        env := .scripted rest again }) ∧
    (7 * n + 13 ≤ s.pace → s.env = .scripted (.granted :: .arbLost :: (waitAnswers n ++ rest)) again →
      exec .waitWc s = .next { s with
        ctrl := ctrlByte s.cfg.ctrlLayout [.int, .en]
        data := slaW s.cfg
        status := withCode s.cfg s.status s.cfg.codes.slaWAck
        phase := .mt
        seq := Seq.idle
        resp := some 0x0000#16
        busHistory := s.busHistory ++
          (startEvent s.phase :: .lost (.tx (slaW s.cfg)) :: waitEvents (slaW s.cfg) .idle n)
        diagHistory := s.diagHistory ++ traceOf s
          (startCode s.cfg s.phase :: s.cfg.codes.arbLost :: waitCodes s.cfg .idle n)
        env := .scripted rest again
        draws := s.draws + 1 })

/-- R186, R288: against a bus that never acknowledges, WAIT_WC never responds and never stops: no retry bound. -/
def Obligations.WaitWcNeverGivesUp : Prop :=
  ∀ (s : State) (n : Nat), s.ready → s.initialized = true → s.cfg.codesWf →
    s.env = .scripted [] [.granted, .nak] →
    ∃ t, runMoves n (accept .waitWc s) = .next t ∧ t.seq.cmd = some .waitWc

/-- R87, R186: against any reference device, in both forms of R87 and however
long its busy window lasts, WAIT_WC responds, with the device not busy and addressed for writing. -/
def Obligations.WaitWcEndsAgainstTheDevice : Prop :=
  ∀ (s : State) (d : Device), s.ready → s.initialized = true → s.cfg.codesWf → s.env = .device d →
    ∃ n t d', runMoves n (accept .waitWc s) = .next t ∧ t.seq.cmd = none ∧ t.resp = some 0x0000#16 ∧ t.phase = .mt ∧
      t.env = .device d' ∧ d'.busy = false ∧ d'.mode = .pointer ∧ d'.mem = d.mem

/-- R63, R183: WR_PAGE sends the bytes of BUF that stand before the first one never written, whatever the acknowledges, and is
refused at that one: `3 * vs.length + 9` moves send START, the control byte, the offset and `vs`, and the command ends in
the refusal. -/
def Obligations.WrPageOfUnwrittenByteIsRefused : Prop :=
  ∀ (s : State) (addr len : Byte) (a1 a2 : AckBit) (vs : List Byte) (acks : List AckBit) (rest again : List Answer),
    s.ready → s.initialized = true → 3 * vs.length + 9 ≤ s.pace → acks.length = vs.length → vs.length < len.toNat →
    (∀ k, k < vs.length → readBuf (BitVec.ofNat 8 k) s = vs[k]?) → readBuf (BitVec.ofNat 8 vs.length) s = none →
    s.env = .scripted (.granted :: answerOf a1 :: answerOf a2 :: (acks.map answerOf ++ rest)) again →
    (∃ u, runMoves (3 * vs.length + 9) (accept (.wrPage addr len) s) = .next u ∧
      u.busHistory = s.busHistory ++
        ([startEvent s.phase, .tx (slaW s.cfg) a1, .tx addr a2] ++ List.zipWith BusEvent.tx vs acks)) ∧
    exec (.wrPage addr len) s = .refused .unwrittenBuffer

/-- R174: arbitration lost inside a transaction refuses it at its next primitive, unless that is START (R182, R186: the
offset byte of a read, TXA of WAIT_WC). Each transaction, at each of its primitives; in the data loops at every byte. -/
def Obligations.LostArbitrationRefusesTransaction : Prop :=
  ∀ (s : State) (addr data len : Byte) (a1 a2 a3 : AckBit) (acks : List AckBit) (ds : List Byte)
    (rest again : List Answer),
    s.ready → s.initialized = true → 18 ≤ s.pace → len ≠ 0#8 →
    (s.env = .scripted (.arbLost :: rest) again →
      exec (.rdByte addr) s = .refused .addressNotAfterStart ∧
      exec (.wrByte addr data) s = .refused .addressNotAfterStart ∧
      exec (.wrPage addr len) s = .refused .addressNotAfterStart ∧
      exec (.seqRd addr len) s = .refused .addressNotAfterStart ∧
      exec .waitWc s = .refused .addressNotAfterStart) ∧
    (s.env = .scripted (.granted :: .arbLost :: rest) again →
      exec (.rdByte addr) s = .refused .transmitNotInWrite ∧
      exec (.wrByte addr data) s = .refused .transmitNotInWrite ∧
      exec (.wrPage addr len) s = .refused .transmitNotInWrite ∧
      exec (.seqRd addr len) s = .refused .transmitNotInWrite) ∧
    (s.env = .scripted (.granted :: answerOf a1 :: .arbLost :: rest) again →
      exec (.wrByte addr data) s = .refused .transmitNotInWrite ∧
      (readBuf 0#8 s ≠ none → exec (.wrPage addr len) s = .refused .transmitNotInWrite)) ∧
    (s.env = .scripted (.granted :: answerOf a1 :: answerOf a2 :: .arbLost :: rest) again →
      exec (.rdByte addr) s = .refused .addressNotAfterStart ∧
      exec (.wrByte addr data) s = .refused .stopWithoutStart ∧
      exec (.seqRd addr len) s = .refused .addressNotAfterStart) ∧
    (s.env = .scripted (.granted :: answerOf a1 :: answerOf a2 :: .granted :: .arbLost :: rest) again →
      exec (.rdByte addr) s = .refused .receiveNotInRead ∧
      exec (.seqRd addr len) s = .refused .receiveNotInRead) ∧
    (s.env = .scripted (.granted :: answerOf a1 :: answerOf a2 :: .granted :: answerOf a3 :: .arbLost :: rest) again →
      exec (.rdByte addr) s = .refused .stopWithoutStart) ∧
    (s.env = .scripted
        (.granted :: answerOf a1 :: answerOf a2 :: (acks.map answerOf ++ .arbLost :: rest)) again →
      3 * acks.length + 12 ≤ s.pace → acks.length < len.toNat →
      (∀ k : Byte, k.toNat < len.toNat → readBuf k s ≠ none) →
      exec (.wrPage addr len) s =
        .refused (if acks.length + 1 < len.toNat then .transmitNotInWrite else .stopWithoutStart)) ∧
    (s.env = .scripted
        (.granted :: answerOf a1 :: answerOf a2 :: .granted :: answerOf a3 ::
          (ds.map Answer.byte ++ .arbLost :: rest)) again →
      3 * ds.length + 18 ≤ s.pace → ds.length < len.toNat →
      exec (.seqRd addr len) s =
        .refused (if ds.length + 1 < len.toNat then .receiveNotInRead else .stopWithoutStart))

/-- R182: arbitration lost in the offset byte does not refuse a read: its second START is an `S` and it runs on. -/
def Obligations.ReadRunsOnAfterLostOffset : Prop :=
  ∀ (s : State) (addr : Byte) (a1 a3 : AckBit) (rest again : List Answer), s.ready → s.initialized = true →
    (∀ d : Byte, 21 ≤ s.pace →
      s.env = .scripted
        (.granted :: answerOf a1 :: .arbLost :: .granted :: answerOf a3 :: .byte d :: .done :: rest) again →
      ∃ t, exec (.rdByte addr) s = .next t ∧ t.seq.cmd = none ∧ t.resp = some (0x10#8 ++ d) ∧ t.phase = .idle ∧
        t.data = d ∧ t.busHistory = s.busHistory ++
          [startEvent s.phase, .tx (slaW s.cfg) a1, .lost (.tx addr), .s, .tx (slaR s.cfg) a3, .rx d .nak, .p]) ∧
    (∀ (len : Byte) (ds : List Byte) (d : Byte), 3 * (ds.length + 7) ≤ s.pace → len.toNat = ds.length + 1 →
      s.env = .scripted
        (.granted :: answerOf a1 :: .arbLost :: .granted :: answerOf a3 ::
          ((ds ++ [d]).map Answer.byte ++ .done :: rest)) again →
      ∃ t, exec (.seqRd addr len) s = .next t ∧ t.seq.cmd = none ∧ t.resp = some 0x0000#16 ∧ t.phase = .idle ∧
        t.data = d ∧ t.busHistory = s.busHistory ++
          ([startEvent s.phase, .tx (slaW s.cfg) a1, .lost (.tx addr), .s, .tx (slaR s.cfg) a3] ++
            ds.map (fun b => BusEvent.rx b .ack) ++ [.rx d .nak, .p]) ∧
        (∀ k : Byte, k.toNat < len.toNat → k.toNat < s.cfg.bufSize → readBuf k t = (ds ++ [d])[k.toNat]?) ∧
        ∀ k : Byte, len.toNat ≤ k.toNat → readBuf k t = readBuf k s)

/-- R174, last sentence: with a single master no transaction is refused, but WR_PAGE for a buffer byte never written. -/
def Obligations.SingleMasterNeverRefuses : Prop :=
  ∀ (s : State) (n : Nat) (i : Instr) (r : Refusal),
    s.ready → s.initialized = true → s.env.singleMaster →
    ((∃ a, i = .rdByte a) ∨ (∃ a d, i = .wrByte a d) ∨ (∃ a l, i = .seqRd a l) ∨ i = .waitWc →
      runMoves n (accept i s) ≠ .refused r) ∧
    ((∃ a l, i = .wrPage a l) → runMoves n (accept i s) = .refused r → r = .unwrittenBuffer)

/-- R171: in every environment a transaction does what the host would do by issuing its primitives one after another, but
for the one response and the bytes SEQ_RD stores; and it is refused where the host would be. -/
def Obligations.TransactionEqualsItsPrimitives : Prop :=
  ∀ (s : State), s.ready →
    (∀ (addr : Byte) (prims : List Instr),
      prims = [.start, .txa (deviceSla s.cfg) s.cfg.dirWrite, .txb addr, .start, .txa (deviceSla s.cfg) s.cfg.dirRead,
        .rx false, .stop] →
      (∀ t, hostRun prims s = .next t → t.seq.cmd = none →
        ∃ n, runMoves n (accept (.rdByte addr) s) = .next { t with resp := some (0x10#8 ++ t.result) }) ∧
      (∀ r, hostRun prims s = .refused r → ∃ n, runMoves n (accept (.rdByte addr) s) = .refused r)) ∧
    (∀ (addr data : Byte) (prims : List Instr),
      prims = [.start, .txa (deviceSla s.cfg) s.cfg.dirWrite, .txb addr, .txb data, .stop] →
      (∀ t, hostRun prims s = .next t → t.seq.cmd = none →
        ∃ n, runMoves n (accept (.wrByte addr data) s) = .next { t with resp := some 0x0000#16 }) ∧
      (∀ r, hostRun prims s = .refused r → ∃ n, runMoves n (accept (.wrByte addr data) s) = .refused r)) ∧
    (∀ (addr len : Byte) (vs : List Byte) (prims : List Instr),
      len ≠ 0#8 → vs.length = len.toNat → (∀ k, k < len.toNat → readBuf (BitVec.ofNat 8 k) s = vs[k]?) →
      prims = [.start, .txa (deviceSla s.cfg) s.cfg.dirWrite, .txb addr] ++ vs.map Instr.txb ++ [.stop] →
      (∀ t, hostRun prims s = .next t → t.seq.cmd = none →
        ∃ n, runMoves n (accept (.wrPage addr len) s) = .next { t with resp := some 0x0000#16 }) ∧
      (∀ r, hostRun prims s = .refused r → ∃ n, runMoves n (accept (.wrPage addr len) s) = .refused r)) ∧
    (∀ (addr len : Byte) (prims : List Instr),
      len ≠ 0#8 →
      prims = [.start, .txa (deviceSla s.cfg) s.cfg.dirWrite, .txb addr, .start, .txa (deviceSla s.cfg) s.cfg.dirRead] ++
        (List.range len.toNat).map (fun k => Instr.rx (decide (k + 1 < len.toNat))) ++ [.stop] →
      (∀ t, hostRun prims s = .next t → t.seq.cmd = none →
        ∃ n u, runMoves n (accept (.seqRd addr len) s) = .next u ∧
          u = { t with resp := some 0x0000#16, buf := u.buf } ∧
          (∀ (k : Byte) (v : State), k.toNat < len.toNat → k.toNat < s.cfg.bufSize →
            hostRun (prims.take (6 + k.toNat)) s = .next v → readBuf k u = some v.result) ∧
          ∀ k : Byte, len.toNat ≤ k.toNat → readBuf k u = readBuf k s) ∧
      (∀ r, hostRun prims s = .refused r → ∃ n, runMoves n (accept (.seqRd addr len) s) = .refused r)) ∧
    (∀ (m : Nat) (pairs : Nat → List Instr),
      (∀ k, pairs k = (List.replicate (k + 1) [Instr.start, .txa (deviceSla s.cfg) s.cfg.dirWrite]).flatten) →
      (∀ k v, k < m → hostRun (pairs k) s = .next v → v.status &&& s.cfg.statusMask ≠ s.cfg.codes.slaWAck) →
      (∀ t, hostRun (pairs m) s = .next t → t.seq.cmd = none → t.status &&& s.cfg.statusMask = s.cfg.codes.slaWAck →
        ∃ n, runMoves n (accept .waitWc s) = .next { t with resp := some 0x0000#16 }) ∧
      (∀ r, hostRun (pairs m) s = .refused r → ∃ n, runMoves n (accept .waitWc s) = .refused r))

/-! ### The reference device -/

/-- R82: the control byte, sent by TXA or TXB, once the device's busy window is as it stands. -/
def Obligations.DeviceAnswersControlByte : Prop :=
  ∀ (d : Device) (c : Config.Params) (drawn b : Byte) (time : Nat), d.mode = .control →
    ∀ p, p = Prim.txa b ∨ p = Prim.txb b →
    (d.cycleDone.busy = false → b.extractLsb' 1 7 = c.devAddr.extractLsb' 1 7 →
      (d.answer c drawn time p).1 = .ack ∧
      (d.answer c drawn time p).2 =
        { d.cycleDone with mode := if b.extractLsb' 0 1 = c.dirWrite then .pointer else .read }) ∧
    (d.cycleDone.busy = true ∨ b.extractLsb' 1 7 ≠ c.devAddr.extractLsb' 1 7 →
      (d.answer c drawn time p).1 = .nak ∧ (d.answer c drawn time p).2.mode = .deaf ∧
      (d.answer c drawn time p).2.mem = d.mem ∧ (d.answer c drawn time p).2.ptr = d.ptr ∧
      (d.answer c drawn time p).2.pending = d.pending)

/-- R83, R84, R85, R88: pointer byte, data bytes with the page wrap, read bytes, and what an unselected device does. `e` is
the device once its busy window is as it stands; `write_cycle_done` is the environment's own step (R87). The last two
clauses say the wraps as R84 and R85 write them, for the table's `PAGE_SIZE` and `EEPROM_SIZE`; what an offset is at other
values of them is the model's choice (log 23). -/
def Obligations.DeviceMovesBytes : Prop :=
  ∀ (d e : Device) (c : Config.Params) (drawn b : Byte) (time : Nat) (ack : Bool), e = d.cycleDone →
    (∀ p, p = Prim.txa b ∨ p = Prim.txb b →
      (d.mode = .pointer → d.answer c drawn time p =
        (.ack, { e with ptr := deviceOffset c b.toNat, mode := .write })) ∧
      (d.mode = .write → d.answer c drawn time p =
        (.ack, { e with pending := d.pending ++ [(d.ptr, b)], ptr := pageOffset c d.ptr 1 })) ∧
      (d.mode = .idle ∨ d.mode = .deaf ∨ d.mode = .read → d.answer c drawn time p = (.nak, e))) ∧
    (d.mode = .read → d.answer c drawn time (.rx ack) =
      (.byte (d.byteAt d.ptr),
        { e with ptr := deviceOffset c (d.ptr.toNat + 1), mode := if ack then .read else .deaf })) ∧
    (d.mode ≠ .read → d.answer c drawn time (.rx ack) = (.byte drawn, e)) ∧
    (∀ p, (d.answer c drawn time p).1 ≠ .arbLost) ∧
    (d.busy = false ∨ d.busyPolls ≠ none → e = d) ∧ e = { d with busy := e.busy, polls := e.polls } ∧
    (c.eepromSize = 256 → deviceOffset c b.toNat = b ∧ deviceOffset c (d.ptr.toNat + 1) = d.ptr + 1#8) ∧
    (c.pageSize = 8 → pageOffset c d.ptr 1 = d.ptr.extractLsb' 3 5 ++ (d.ptr.extractLsb' 0 3 + 1#3))

/-- R86, R87: the STOP of a write with a data byte commits the bytes in order, the last one to an offset standing, and opens
the busy window, `busy_polls` refusals long (none is 0) or, without a counter, until `write_cycle_done`; the STOP of a
pointer-only write and of any other mode commits nothing and opens none. -/
def Obligations.StopOpensTheBusyWindow : Prop :=
  ∀ (d : Device) (c : Config.Params) (drawn : Byte) (time : Nat),
    (d.mode = .write → d.pending ≠ [] →
      ∃ d', d.answer c drawn time .stop = (.done, d') ∧ d'.mode = .idle ∧ d'.pending = [] ∧ d'.ptr = d.ptr ∧
        d'.busyPolls = d.busyPolls ∧
        (∀ n, d.busyPolls = some n → d'.busy = decide (0 < n) ∧ d'.polls = n) ∧
        (d.busyPolls = none → d'.busy = true) ∧
        ∀ o, d'.byteAt o = (((d.pending.filter (fun w => w.1 = o)).getLast?).map Prod.snd).getD (d.byteAt o)) ∧
    (d.mode ≠ .write ∨ d.pending = [] →
      d.answer c drawn time .stop = (.done, { d.cycleDone with pending := [], mode := .idle }))

/-- R73, R88: the reference device always answers and never loses arbitration, whatever the host goes on to do. -/
def Obligations.DeviceIsResponsiveSingleMaster : Prop :=
  ∀ (s : State), s.env.referenceDevice → s.responsive ∧ s.env.singleMaster ∧
    ∀ n t p, runMoves n s = .next t → (pollEnv p t).1 ≠ some .arbLost

/-- R87, R188: a device busy for `n` refusals (counter form) makes WAIT_WC issue exactly `n + 1` pairs and is then
addressed for writing and not busy. -/
def Obligations.WaitWcWaitsOutTheWriteCycle : Prop :=
  ∀ (s : State) (d : Device) (m n : Nat),
    s.ready → s.initialized = true → s.cfg.codesWf → 7 * n + 6 ≤ s.pace →
    s.env = .device d → d.busyPolls = some m → ((d.busy = true ∧ d.polls = n ∧ 1 ≤ n) ∨ (d.busy = false ∧ n = 0)) →
    ∃ t d', exec .waitWc s = .next t ∧ t.resp = some 0x0000#16 ∧ t.phase = .mt ∧
      t.busHistory = s.busHistory ++ waitEvents (slaW s.cfg) s.phase n ∧
      t.env = .device d' ∧ d'.busy = false ∧ d'.mode = .pointer ∧ d'.mem = d.mem

/-- R89: the round-trip law against the reference device in counter form, from any ready state with the device not busy:
every offset, every byte (an offset is modulo `EEPROM_SIZE`, at a value other than the table's 256 by log 23). -/
def Obligations.RoundTripThroughTheDevice : Prop :=
  ∀ (s : State) (d : Device) (n : Nat) (addr data : Byte),
    s.ready → s.initialized = true → s.cfg.codesWf → 21 ≤ s.pace → 7 * n + 6 ≤ s.pace →
    s.env = .device d → d.busy = false → d.busyPolls = some n →
    ∃ s1 s2 s3 d3, exec (.wrByte addr data) s = .next s1 ∧ s1.resp = some 0x0000#16 ∧
      exec .waitWc s1 = .next s2 ∧ s2.resp = some 0x0000#16 ∧
      exec (.rdByte addr) s2 = .next s3 ∧ s3.resp = some (0x10#8 ++ data) ∧
      s3.env = .device d3 ∧ d3.byteAt (deviceOffset s.cfg addr.toNat) = data ∧
      ∀ o, o ≠ deviceOffset s.cfg addr.toNat → d3.byteAt o = d.byteAt o

/-- R91: the law of sequential read against the reference device, not busy; the read pointer wraps at `EEPROM_SIZE`
(at a value other than the table's 256, and for an index that is not below `BUF_SIZE`, the model's choice, log 23). -/
def Obligations.SequentialReadThroughTheDevice : Prop :=
  ∀ (s : State) (d : Device) (addr len : Byte) (b : Nat → Byte),
    s.ready → s.initialized = true → 3 * (len.toNat + 6) ≤ s.pace → len ≠ 0#8 →
    s.env = .device d → d.busy = false → (∀ k, b k = d.byteAt (BitVec.ofNat 8 ((addr.toNat + k) % s.cfg.eepromSize))) →
    ∃ t, exec (.seqRd addr len) s = .next t ∧ t.resp = some 0x0000#16 ∧
      (∀ k : Byte, k.toNat < len.toNat → k.toNat < s.cfg.bufSize → readBuf k t = some (b k.toNat)) ∧
      (∀ k : Byte, len.toNat ≤ k.toNat → readBuf k t = readBuf k s) ∧
      t.busHistory = s.busHistory ++
        ([startEvent s.phase, .tx (slaW s.cfg) .ack, .tx addr .ack, .sr, .tx (slaR s.cfg) .ack] ++
          (List.range (len.toNat - 1)).map (fun k => BusEvent.rx (b k) .ack) ++ [.rx (b (len.toNat - 1)) .nak, .p])

/-- R84, R86, R183: a page write of any length against the reference device, not busy: the last `PAGE_SIZE` bytes sent stand
at their offsets within the page, every offset that no byte was sent to is unchanged, and the busy window is open
(R87). What an offset is at sizes other than the table's is the model's choice (log 23). -/
def Obligations.PageWriteWrapsInThePage : Prop :=
  ∀ (s : State) (d : Device) (addr a len : Byte) (vs : List Byte),
    s.ready → s.initialized = true → 3 * (len.toNat + 4) ≤ s.pace → len ≠ 0#8 → vs.length = len.toNat →
    (∀ k, k < len.toNat → readBuf (BitVec.ofNat 8 k) s = vs[k]?) →
    s.env = .device d → d.busy = false → a = deviceOffset s.cfg addr.toNat →
    ∃ t d', exec (.wrPage addr len) s = .next t ∧ t.resp = some 0x0000#16 ∧ t.buf = s.buf ∧
      t.env = .device d' ∧
      d'.mode = .idle ∧ (∀ n, d.busyPolls = some n → d'.busy = decide (0 < n) ∧ d'.polls = n) ∧
      (d.busyPolls = none → d'.busy = true) ∧
      (∀ k v, vs[k]? = some v → len.toNat ≤ k + s.cfg.pageSize → d'.byteAt (pageOffset s.cfg a k) = v) ∧
      (∀ o, (∀ k, k < len.toNat → pageOffset s.cfg a k ≠ o) → d'.byteAt o = d.byteAt o)

/-! ### Decoder and access commands -/

/-- R202, R203, R210: DECODE responds the label id of its operand, 11 for every code that is not known; exactly eleven
codes are known. -/
def Obligations.DecodeRespondsTheLabel : Prop :=
  ∀ (s : State) (code : Byte), s.cfg.codesWf →
    (∃ id : Byte, exec (.decode code) s = .next { s with seq := Seq.idle, resp := some (0x10#8 ++ id) } ∧
      (∀ k : Nat, s.cfg.codes.known[k]? = some code → id = BitVec.ofNat 8 k) ∧
      (code ∉ s.cfg.codes.known → id = 11#8)) ∧
    (Finset.univ.filter (fun c : Byte => labelOf s.cfg.codes c ≠ .unknown)).card = 11

/-- R206: the line of an event, for any label texts: a known code shows its label's text, every other code the fallback's four
characters and the code in two uppercase hexadecimal digits. -/
def Obligations.FallbackLineShowsTheCode : Prop :=
  defaultParams.labelText[11]? = some "N/A " ∧
  ∀ (c : Config.Params) (code : Byte) (line : String), c.codesWf →
    line = renderLine c ⟨(decodeStatus c.codes code).1, (decodeStatus c.codes code).2⟩ →
    (∀ k : Nat, c.codes.known[k]? = some code → c.labelText[k]? = some line) ∧
    (code ∉ c.codes.known →
      ∃ (text : String) (h1 h2 : Char), c.labelText[11]? = some text ∧
        ("0123456789ABCDEF".toList)[code.toNat / 16]? = some h1 ∧
        ("0123456789ABCDEF".toList)[code.toNat % 16]? = some h2 ∧ line = text ++ String.ofList [h1, h2])

/-- R221: TRACE writes `trace_en` only. -/
def Obligations.TraceSetsTheEnable : Prop :=
  ∀ (s : State) (en : Bool),
    exec (.trace en) s = .next { s with traceEn := en, seq := Seq.idle, resp := some 0x0000#16 }

/-- R222, R34: REG_RD of each register's address returns it raw, with no side effect; FSMSTATE is
`{0b0000, trace_en, initialized, phase}`. A ready block never shows a pending STOP request. -/
def Obligations.RegRdReturnsTheRegister : Prop :=
  ∀ s : State,
    exec (.regRd s.cfg.registers.ctrl) s = .next { s with seq := Seq.idle, resp := some (0x10#8 ++ s.ctrl) } ∧
    exec (.regRd s.cfg.registers.rate) s = .next { s with seq := Seq.idle, resp := some (0x10#8 ++ s.rate) } ∧
    exec (.regRd s.cfg.registers.status) s = .next { s with seq := Seq.idle, resp := some (0x10#8 ++ s.status) } ∧
    exec (.regRd s.cfg.registers.data) s = .next { s with seq := Seq.idle, resp := some (0x10#8 ++ s.data) } ∧
    (∃ v : Byte,
      exec (.regRd s.cfg.registers.fsmState) s = .next { s with seq := Seq.idle, resp := some (0x10#8 ++ v) } ∧
      v.extractLsb' 4 4 = 0#4 ∧ v.getLsbD 3 = s.traceEn ∧ v.getLsbD 2 = s.initialized ∧
      (v.extractLsb' 0 2).toNat = match s.phase with | .idle => 0 | .started => 1 | .mt => 2 | .mr => 3) ∧
    (s.Inv → s.ready → ctrlField s.cfg.ctrlLayout .sto s.ctrl = false)

/-- R223, R62: BUF_WR writes one byte of BUF (each index below `BUF_SIZE` has one; with the table's value every index,
at others log 23) and leaves every other byte and register alone. -/
def Obligations.BufWrWritesOneByte : Prop :=
  ∀ (s : State) (idx val : Byte),
    ∃ t, exec (.bufWr idx val) s = .next t ∧
      t = { s with buf := t.buf, seq := Seq.idle, resp := some 0x0000#16 } ∧
      (idx.toNat < s.cfg.bufSize → readBuf idx t = some val) ∧ ∀ k, k ≠ idx → readBuf k t = readBuf k s

/-- R224, R63: BUF_RD responds the byte, and is refused when it was never written. -/
def Obligations.BufRdReturnsWrittenByte : Prop :=
  ∀ (s : State) (idx : Byte),
    (∀ v, readBuf idx s = some v →
      exec (.bufRd idx) s = .next { s with seq := Seq.idle, resp := some (0x10#8 ++ v) }) ∧
    (readBuf idx s = none → exec (.bufRd idx) s = .refused .unwrittenBuffer)

/-! ### Frames and whole-machine rules -/

/-- R136, R171 and the Writes lines of R140 to R186: what no bus command changes, in whatever state its model step ends. -/
def Obligations.BusCommandFrame : Prop :=
  ∀ (s t : State) (i : Instr), sequenceOf s.cfg i ≠ [] → exec i s = .next t →
    t.cfg = s.cfg ∧ t.rate = s.rate ∧ t.initialized = s.initialized ∧ t.traceEn = s.traceEn ∧
    t.port = s.port ∧ t.resetPin = s.resetPin ∧ statusPs s.cfg t.status = statusPs s.cfg s.status ∧
    ((∀ a, i ≠ .rx a) → (∀ a, i ≠ .rdByte a) → (∀ a l, i ≠ .seqRd a l) → t.result = s.result) ∧
    ((∀ a l, i ≠ .seqRd a l) → ∀ k, readBuf k t = readBuf k s)

/-- R185, R62: SEQ_RD stores to no byte of BUF at or above `len`, in whatever state its model step ends. -/
def Obligations.SeqRdStoresBelowLen : Prop :=
  ∀ (s t : State) (addr len : Byte), exec (.seqRd addr len) s = .next t →
    ∀ k : Byte, len.toNat ≤ k.toNat → readBuf k t = readBuf k s

/-- R29, R30, R35, R38: unless it is a reset, no step writes the prescaler bits, none clears `initialized`, RATE changes
only at the first INIT, and the histories only grow. -/
def Obligations.OnlyResetUndoesInit : Prop :=
  ∀ s t : State, s.resetPin.head? ≠ some true → step s = .next t →
    t.cfg = s.cfg ∧ statusPs s.cfg t.status = statusPs s.cfg s.status ∧ (s.initialized = true → t.initialized = true) ∧
    (t.rate ≠ s.rate → s.initialized = false ∧ t.initialized = true) ∧
    s.busHistory <+: t.busHistory ∧ s.diagHistory <+: t.diagHistory

/-- R62: a step changes BUF only in BUF_WR and SEQ_RD. -/
def Obligations.OnlyBufWrAndSeqRdWriteBuf : Prop :=
  ∀ s t : State, step s = .next t → t.buf ≠ s.buf →
    (∃ a l, s.seq.cmd = some (.seqRd a l)) ∨
    ∃ w ws, s.seq.cmd = none ∧ s.port = w :: ws ∧
      ((∃ a l, decode s.cfg w = .ok (.seqRd a l)) ∨ ∃ k v, decode s.cfg w = .ok (.bufWr k v))

/-- R205, R221: tracing changes nothing but the diagnostic history: every command but TRACE and REG_RD of FSMSTATE, and the
rest of a command, do the same with it and without. -/
def Obligations.TracingChangesNothingElse : Prop :=
  (∀ (s : State) (i : Instr), (∀ en, i ≠ .trace en) → i ≠ .regRd s.cfg.registers.fsmState →
    (∀ t, exec i s = .next t → ∃ u, exec i s.untraced = .next u ∧ u.untraced = t.untraced) ∧
    (∀ r, exec i s = .refused r → exec i s.untraced = .refused r)) ∧
  (∀ s : State,
    (∀ t, resume s = .next t → ∃ u, resume s.untraced = .next u ∧ u.untraced = t.untraced) ∧
    (∀ r, resume s = .refused r → resume s.untraced = .refused r))

/-- The invariant holds at reset. -/
def Obligations.ResetMeetsInvariant : Prop := State.reset.Inv

/-- R25, R26, R27, R36, R37, R62, R135: every step from a state that meets the invariant gives one that does. -/
def Obligations.StepKeepsInvariant : Prop :=
  ∀ s t : State, s.Inv → step s = .next t → t.Inv

/-- R107, R110: TXA of a pre-shifted address drops its bit 0, and the pseudo-instructions expand as listed, BUF_FILL to as
many commands as bytes. -/
def Obligations.PseudoInstructionsExpand : Prop :=
  (∀ (dev : Byte) (rw : BitVec 1),
    encode (Asm.txaOf dev rw) = 0x04000000#32 ++ ((dev &&& 0xFE#8) ||| rw.zeroExtend 8)) ∧
  ∀ c : Config.Params,
    Asm.Pseudo.rxa.expand c = [.rx true] ∧ Asm.Pseudo.rxn.expand c = [.rx false] ∧
    (∀ dev, (Asm.Pseudo.txaw dev).expand c = [Asm.txaOf dev c.dirWrite]) ∧
    (∀ dev, (Asm.Pseudo.txar dev).expand c = [Asm.txaOf dev c.dirRead]) ∧
    (∀ vs : List Byte, ((Asm.Pseudo.bufFill vs).expand c).length = vs.length ∧
      ∀ (k : Nat) (v : Byte), vs[k]? = some v →
        ((Asm.Pseudo.bufFill vs).expand c)[k]? = some (.bufWr (BitVec.ofNat 8 k) v))
end

