-- ==== Sys2Proof/Laws/Memory.lean ====
section
/-! SUPPORT. Laws/Memory.lean: the laws of a byte memory: a read after a write, and that every operation keeps the
canonical form. -/

namespace Sys2Proof.Machine

/-- An address that no cell lists reads as blank. -/
theorem Memory.read_unlisted {blank : Option Byte} {m : Memory} {a : Nat} (h : ∀ c ∈ m, c.1 ≠ a) :
    Memory.read blank m a = blank := by
  induction m with
  | nil => rfl
  | cons c m ih =>
    have hc := h c (by simp)
    simp only [Memory.read, hc, if_false]
    exact ih (fun d hd => h d (by simp [hd]))

@[simp] theorem Memory.read_insert_same (blank : Option Byte) (m : Memory) (a : Nat) (v : Byte) :
    Memory.read blank (Memory.insert a v m) a = some v := by
  induction m with
  | nil => simp [Memory.insert, Memory.read]
  | cons c m ih =>
    unfold Memory.insert
    split
    · simp [Memory.read]
    · split
      · simp [Memory.read]
      · next h => simp only [Memory.read, if_neg (Ne.symm h), ih]

theorem Memory.read_insert_other {blank : Option Byte} {m : Memory} {a b : Nat} {v : Byte} (h : a ≠ b) :
    Memory.read blank (Memory.insert a v m) b = Memory.read blank m b := by
  induction m with
  | nil => simp [Memory.insert, Memory.read, h]
  | cons c m ih =>
    unfold Memory.insert
    split
    · simp [Memory.read, h]
    · split
      · next e => subst e; simp [Memory.read, h]
      · simp [Memory.read, ih]

@[simp] theorem Memory.read_erase_same (blank : Option Byte) (m : Memory) (a : Nat) :
    Memory.read blank (Memory.erase a m) a = blank := by
  apply Memory.read_unlisted
  intro c hc
  simpa using (List.mem_filter.mp hc).2

theorem Memory.read_erase_other {blank : Option Byte} {m : Memory} {a b : Nat} (h : a ≠ b) :
    Memory.read blank (Memory.erase a m) b = Memory.read blank m b := by
  induction m with
  | nil => rfl
  | cons c m ih =>
    unfold Memory.erase at ih ⊢
    by_cases hc : c.1 = a
    · have hb : c.1 ≠ b := fun e => h (hc.symm.trans e)
      simp only [Memory.read, hb, if_false]
      rw [List.filter_cons_of_neg (by simp [hc])]
      exact ih
    · rw [List.filter_cons_of_pos (by simp [hc])]
      simp only [Memory.read, ih]

/-- A byte written is the byte read. -/
@[simp] theorem Memory.read_write_same (blank : Option Byte) (m : Memory) (a : Nat) (v : Byte) :
    Memory.read blank (Memory.write blank m a v) a = some v := by
  unfold Memory.write
  split
  · next h => simp [h]
  · simp

/-- A write leaves every other byte alone. -/
theorem Memory.read_write_other {blank : Option Byte} {m : Memory} {a b : Nat} {v : Byte} (h : a ≠ b) :
    Memory.read blank (Memory.write blank m a v) b = Memory.read blank m b := by
  unfold Memory.write
  split
  · exact Memory.read_erase_other h
  · exact Memory.read_insert_other h

/-- The cells after an insertion are the new one and old ones. -/
theorem Memory.mem_insert {m : Memory} {a : Nat} {v : Byte} {c : Host.Cell} (h : c ∈ Memory.insert a v m) :
    c = (a, v) ∨ c ∈ m := by
  induction m with
  | nil => simpa [Memory.insert] using h
  | cons d m ih =>
    unfold Memory.insert at h
    split at h
    · simpa using h
    · split at h
      · rcases List.mem_cons.mp h with h | h
        · exact .inl h
        · exact .inr (by simp [h])
      · rcases List.mem_cons.mp h with h | h
        · exact .inr (by simp [h])
        · rcases ih h with h | h
          · exact .inl h
          · exact .inr (by simp [h])

theorem Memory.insert_sorted {m : Memory} {a : Nat} {v : Byte} (h : (m.map Prod.fst).Pairwise (· < ·)) :
    ((Memory.insert a v m).map Prod.fst).Pairwise (· < ·) := by
  induction m with
  | nil => simp [Memory.insert]
  | cons c m ih =>
    simp only [List.map_cons, List.pairwise_cons] at h
    unfold Memory.insert
    split
    · next hlt =>
      simp only [List.map_cons, List.pairwise_cons, List.mem_cons]
      refine ⟨?_, h.1, h.2⟩
      rintro x (rfl | hx)
      · exact hlt
      · exact Nat.lt_trans hlt (h.1 x hx)
    · split
      · next e => subst e; simpa using h
      · next hlt hne =>
        simp only [List.map_cons, List.pairwise_cons]
        refine ⟨?_, ih h.2⟩
        intro x hx
        obtain ⟨d, hd, rfl⟩ := List.mem_map.mp hx
        rcases Memory.mem_insert hd with rfl | hd
        · exact Nat.lt_of_le_of_ne (Nat.le_of_not_lt hlt) (fun e => hne e.symm)
        · exact h.1 _ (List.mem_map_of_mem hd)

/-- A write below `size` keeps the canonical form. -/
theorem Memory.write_wf {blank : Option Byte} {size : Nat} {m : Memory} {a : Nat} {v : Byte}
    (h : Memory.wf blank size m) (ha : a < size) : Memory.wf blank size (Memory.write blank m a v) := by
  unfold Memory.write
  split
  · refine ⟨?_, fun c hc => h.2 c (List.mem_of_mem_filter hc)⟩
    exact List.Pairwise.sublist (List.Sublist.map _ List.filter_sublist) h.1
  · next hv =>
    refine ⟨Memory.insert_sorted h.1, fun c hc => ?_⟩
    rcases Memory.mem_insert hc with rfl | hc
    · exact ⟨ha, hv⟩
    · exact h.2 c hc

/-- A memory with nothing listed is in canonical form. -/
theorem Memory.nil_wf (blank : Option Byte) (size : Nat) : Memory.wf blank size [] := by simp [Memory.wf]

/-- Committing bytes at offsets below `size` keeps the device's `mem` in canonical form. -/
theorem Device.commit_wf {m : Memory} {size : Nat} {pending : List (Byte × Byte)} (h : Memory.wf eepromBlank size m)
    (hp : ∀ w ∈ pending, w.1.toNat < size) : Memory.wf eepromBlank size (Device.commit m pending) := by
  induction pending generalizing m with
  | nil => exact h
  | cons c cs ih =>
    exact ih (Memory.write_wf h (hp c (by simp))) (fun w hw => hp w (by simp [hw]))

end Sys2Proof.Machine
end

