-- ==== Sys2Proof/Laws/Operands.lean ====
section
/-! SUPPORT. Laws/Operands.lean: the fields of a control byte, and that the offsets of the device stay below `EEPROM_SIZE`
and in their page. -/

namespace Sys2Proof.Machine

@[simp] theorem directionOf_append (sla : BitVec 7) (rw : BitVec 1) : directionOf (sla ++ rw) = rw :=
  BitVec.extractLsb'_append_eq_right

@[simp] theorem addressOf_append (sla : BitVec 7) (rw : BitVec 1) : addressOf (sla ++ rw) = sla :=
  BitVec.extractLsb'_append_eq_left

@[simp] theorem directionOf_slaW (c : Config.Params) : directionOf (slaW c) = c.dirWrite :=
  directionOf_append _ _

@[simp] theorem directionOf_slaR (c : Config.Params) : directionOf (slaR c) = c.dirRead :=
  directionOf_append _ _

@[simp] theorem addressOf_slaW (c : Config.Params) : addressOf (slaW c) = addressOf c.devAddr :=
  addressOf_append _ _

@[simp] theorem addressOf_slaR (c : Config.Params) : addressOf (slaR c) = addressOf c.devAddr :=
  addressOf_append _ _

/-- The two values of the direction bit differ. -/
@[simp] theorem dirRead_ne_dirWrite (c : Config.Params) : (c.dirRead = c.dirWrite) = False := by
  unfold Config.Params.dirRead
  generalize c.dirWrite = w
  have : ∀ w : BitVec 1, (~~~w = w) = False := by decide
  exact this w

/-- A control byte is its address field and its direction bit (30_encoding.md R107). -/
@[simp] theorem addressOf_append_directionOf (b : Byte) : addressOf b ++ directionOf b = b := by
  have : ∀ b : Byte, addressOf b ++ directionOf b = b := by decide
  exact this b

/-- An offset of the device is below `EEPROM_SIZE` (00_scope.md R8). -/
@[simp] theorem deviceOffset_toNat (c : Config.Params) (n : Nat) : (deviceOffset c n).toNat = n % c.eepromSize := by
  have h := Nat.mod_lt n c.eepromFits.1
  have h' := c.eepromFits.2
  unfold deviceOffset
  rw [BitVec.toNat_ofNat]
  exact Nat.mod_eq_of_lt (by omega)

theorem deviceOffset_lt (c : Config.Params) (n : Nat) : (deviceOffset c n).toNat < c.eepromSize := by
  rw [deviceOffset_toNat]
  exact Nat.mod_lt n c.eepromFits.1

/-- The pages of the device hold a byte each at least. -/
theorem pageSize_pos (c : Config.Params) : 0 < c.pageSize := Nat.pos_of_dvd_of_pos c.wholePages c.eepromFits.1

/-- A place in the page of an offset of the device is an offset of the device (20_memory.md R68). -/
theorem pagePlace_lt {c : Config.Params} {p : Nat} (h : p < c.eepromSize) (k : Nat) :
    p / c.pageSize * c.pageSize + k % c.pageSize < c.eepromSize := by
  have hk := Nat.mod_lt k (pageSize_pos c)
  obtain ⟨m, hm⟩ := c.wholePages
  have hq : p / c.pageSize < m := Nat.div_lt_of_lt_mul (by rwa [← hm])
  calc p / c.pageSize * c.pageSize + k % c.pageSize
      < p / c.pageSize * c.pageSize + c.pageSize := by omega
    _ = (p / c.pageSize + 1) * c.pageSize := by ring
    _ ≤ m * c.pageSize := Nat.mul_le_mul_right _ hq
    _ = c.eepromSize := by rw [hm, Nat.mul_comm]

/-- The pointer advances within its page (20_memory.md R84). -/
theorem pageNext_toNat {c : Config.Params} {ptr : Byte} (h : ptr.toNat < c.eepromSize) :
    (pageNext c ptr).toNat = ptr.toNat / c.pageSize * c.pageSize + (ptr.toNat + 1) % c.pageSize := by
  have h1 := pagePlace_lt h (ptr.toNat + 1)
  have h' := c.eepromFits.2
  unfold pageNext
  rw [BitVec.toNat_ofNat]
  exact Nat.mod_eq_of_lt (by omega)

theorem pageNext_lt {c : Config.Params} {ptr : Byte} (h : ptr.toNat < c.eepromSize) :
    (pageNext c ptr).toNat < c.eepromSize := by
  rw [pageNext_toNat h]
  exact pagePlace_lt h _

/-- With pages of 8 bytes only the low three bits of the pointer advance (20_memory.md R84). -/
theorem pageNext_eight {c : Config.Params} (h : c.pageSize = 8) (ptr : Byte) :
    pageNext c ptr = ptr.extractLsb' 3 5 ++ (ptr.extractLsb' 0 3 + 1#3) := by
  have : ∀ p : Byte, BitVec.ofNat 8 (p.toNat / 8 * 8 + (p.toNat + 1) % 8) =
      p.extractLsb' 3 5 ++ (p.extractLsb' 0 3 + 1#3) := by decide
  unfold pageNext
  rw [h]
  exact this ptr

end Sys2Proof.Machine
end

