-- ==== Sys2Proof/Laws/Device.lean ====
section
/-! SUPPORT. Laws/Device.lean: what the reference device keeps: `write_cycle_done` and the countdown of refusals touch the
busy window only, and every answer keeps `mem` in canonical form and the offsets below `EEPROM_SIZE`. -/

namespace Sys2Proof.Machine

/-- `write_cycle_done` changes the busy window and nothing else (20_memory.md R87). -/
theorem Device.cycleDone_eq (d : Device) : d.cycleDone = { d with busy := d.cycleDone.busy, polls := d.cycleDone.polls } := by
  unfold Device.cycleDone
  split <;> (try split) <;> (try split) <;> rfl

@[simp] theorem Device.cycleDone_mem (d : Device) : d.cycleDone.mem = d.mem := by rw [Device.cycleDone_eq]
@[simp] theorem Device.cycleDone_ptr (d : Device) : d.cycleDone.ptr = d.ptr := by rw [Device.cycleDone_eq]
@[simp] theorem Device.cycleDone_mode (d : Device) : d.cycleDone.mode = d.mode := by rw [Device.cycleDone_eq]
@[simp] theorem Device.cycleDone_pending (d : Device) : d.cycleDone.pending = d.pending := by rw [Device.cycleDone_eq]
@[simp] theorem Device.cycleDone_busyPolls (d : Device) : d.cycleDone.busyPolls = d.busyPolls := by rw [Device.cycleDone_eq]

@[simp] theorem Device.cycleDone_byteAt (d : Device) (o : Byte) : d.cycleDone.byteAt o = d.byteAt o := by
  simp [Device.byteAt]

/-- A device that is not busy, or that counts its refusals, is not changed by `write_cycle_done`. -/
theorem Device.cycleDone_idle {d : Device} (h : d.busy = false ∨ d.busyPolls ≠ none) : d.cycleDone = d := by
  unfold Device.cycleDone
  split
  · rfl
  · next hn => simp_all

/-- Without a counter a busy window of `polls` further events is one event shorter after an event, and one of none ends: it
ends (20_memory.md R87). -/
theorem Device.cycleDone_free {d : Device} (hn : d.busyPolls = none) (hb : d.busy = true) :
    (d.polls = 0 ∧ d.cycleDone.busy = false) ∨
      (d.cycleDone.busy = true ∧ d.cycleDone.polls + 1 = d.polls) := by
  unfold Device.cycleDone
  by_cases hp : d.polls = 0
  · simp [hn, hb, hp]
  · right
    simp only [hn, hb, hp, if_true, if_false, true_and]
    omega

/-- A refusal counts the busy window down and does nothing else (20_memory.md R87). -/
theorem Device.countRefusal_eq (d : Device) :
    d.countRefusal = { d with busy := d.countRefusal.busy, polls := d.countRefusal.polls } := by
  unfold Device.countRefusal; split <;> rfl

@[simp] theorem Device.countRefusal_mem (d : Device) : d.countRefusal.mem = d.mem := by rw [Device.countRefusal_eq]
@[simp] theorem Device.countRefusal_ptr (d : Device) : d.countRefusal.ptr = d.ptr := by rw [Device.countRefusal_eq]
@[simp] theorem Device.countRefusal_pending (d : Device) : d.countRefusal.pending = d.pending := by
  rw [Device.countRefusal_eq]

/-- Everything an answer can do to `mem`: nothing, or the commit of the pending bytes at STOP (20_memory.md R86). -/
theorem Device.answer_mem (c : Config.Params) (drawn : Byte) (time : Nat) (p : Prim) (d : Device) :
    (d.answer c drawn time p).2.mem = d.mem ∨
      (p = .stop ∧ (d.answer c drawn time p).2.mem = Device.commit d.mem d.pending) := by
  cases p with
  | start => exact .inl (by simp [Device.answer, Device.onStart])
  | stop =>
    have hs : (d.answer c drawn time .stop).2 = (d.cycleDone.onStop time).2 := rfl
    rw [hs]
    unfold Device.onStop
    dsimp only
    split
    · next w ws hm hp => exact .inr ⟨rfl, by rw [← Device.cycleDone_pending d, hp, Device.cycleDone_mem]⟩
    · exact .inl (by simp)
  | txa b =>
    left
    simp only [Device.answer, Device.onTx, Device.onControl]
    split <;> (try split) <;> (try split) <;> (try split) <;> simp
  | txb b =>
    left
    simp only [Device.answer, Device.onTx, Device.onControl]
    split <;> (try split) <;> (try split) <;> (try split) <;> simp
  | rx ack =>
    left
    simp only [Device.answer, Device.onRx]
    split <;> simp

/-- Every answer of a device whose offsets fit keeps `mem` in canonical form. -/
theorem Device.answer_wf {c : Config.Params} {drawn : Byte} {time : Nat} {p : Prim} {d : Device}
    (h : Memory.wf eepromBlank c.eepromSize d.mem) (ho : d.offsetsFit c) :
    Memory.wf eepromBlank c.eepromSize (d.answer c drawn time p).2.mem := by
  rcases Device.answer_mem c drawn time p d with e | ⟨_, e⟩
  · rw [e]; exact h
  · rw [e]; exact Device.commit_wf h ho.2

/-- The offsets of a device with another busy window. -/
@[simp] theorem Device.offsetsFit_cycleDone {c : Config.Params} {d : Device} :
    d.cycleDone.offsetsFit c ↔ d.offsetsFit c := by
  simp [Device.offsetsFit]

/-- Every answer keeps the device's offsets below `EEPROM_SIZE` (20_memory.md R68, R84, R85). -/
theorem Device.answer_offsetsFit {c : Config.Params} {drawn : Byte} {time : Nat} {p : Prim} {d : Device}
    (h : d.offsetsFit c) : (d.answer c drawn time p).2.offsetsFit c := by
  rw [← Device.offsetsFit_cycleDone] at h
  have htx : ∀ b, (d.cycleDone.onTx c b).2.offsetsFit c := by
    intro b
    have hr : d.cycleDone.countRefusal.offsetsFit c := by
      unfold Device.countRefusal
      split <;> exact h
    unfold Device.onTx Device.onControl
    split
    · split
      · split
        · exact hr
        · split <;> exact h
      · exact h
    · exact ⟨deviceOffset_lt c _, h.2⟩
    · refine ⟨pageNext_lt h.1, fun w hw => ?_⟩
      rcases List.mem_append.mp hw with hw | hw
      · exact h.2 w hw
      · rw [List.mem_singleton.mp hw]; exact h.1
    all_goals exact h
  cases p with
  | start => exact ⟨h.1, by simp [Device.answer, Device.onStart]⟩
  | stop =>
    unfold Device.answer Device.onStop Device.startCycle
    dsimp only
    split
    · split <;> exact ⟨h.1, by simp⟩
    · exact ⟨h.1, by simp⟩
  | txa b => exact htx b
  | txb b => exact htx b
  | rx ack =>
    unfold Device.answer Device.onRx
    dsimp only
    split
    · exact ⟨deviceOffset_lt c _, h.2⟩
    · exact h

/-- The byte of a device memory after one byte is written. -/
theorem Device.byteAt_write (d : Device) (a o v : Byte) :
    ({ d with mem := Memory.write eepromBlank d.mem a.toNat v } : Device).byteAt o = if o = a then v else d.byteAt o := by
  unfold Device.byteAt
  by_cases h : o = a
  · simp [h]
  · have hn : a.toNat ≠ o.toNat := fun e => h (BitVec.eq_of_toNat_eq e.symm)
    simp [h, Memory.read_write_other hn]

end Sys2Proof.Machine
end

