-- ==== Sys2Proof/Laws/Flags.lean ====
section
/-! SUPPORT. Laws/Flags.lean: the fields of CTRL and STATUS after the operations on them. -/

namespace Sys2Proof.Machine

/-- Two fields of CTRL stand at two positions (10_state.md R25). -/
theorem CtrlLayout.pos_inj (l : Config.CtrlLayout) {f g : CtrlField} (h : l.pos f = l.pos g) : f = g := by
  have hd := l.distinct
  simp only [List.nodup_cons, List.mem_cons, List.not_mem_nil, or_false, not_or] at hd
  cases f <;> cases g <;> simp_all [Config.CtrlLayout.pos]

@[simp] theorem CtrlLayout.pos_eq (l : Config.CtrlLayout) (f g : CtrlField) : l.pos f = l.pos g ↔ f = g :=
  ⟨CtrlLayout.pos_inj l, fun h => h ▸ rfl⟩

/-- A bit of a byte of one field. -/
theorem getLsbD_ctrlMask (l : Config.CtrlLayout) (f : CtrlField) (j : Fin 8) :
    (ctrlMask l f).getLsbD j = decide (l.pos f = j) := by
  unfold ctrlMask
  rw [BitVec.getLsbD_twoPow]
  have hj := j.isLt
  by_cases h : l.pos f = j
  · simp [h]
  · have h' : (l.pos f : Nat) ≠ (j : Nat) := fun e => h (Fin.ext e)
    simp [h, h']

/-- A field of a byte of fields is 1 exactly if it is among them. -/
@[simp] theorem ctrlField_ctrlByte (l : Config.CtrlLayout) (g : CtrlField) (fs : List CtrlField) :
    ctrlField l g (ctrlByte l fs) = decide (g ∈ fs) := by
  unfold ctrlField
  induction fs with
  | nil => simp [ctrlByte]
  | cons f fs ih =>
    rw [ctrlByte, BitVec.getLsbD_or, ih, getLsbD_ctrlMask]
    by_cases h : f = g
    · simp [h]
    · simp [h, Ne.symm h]

/-- A position of CTRL is a field's, or is reserved. -/
theorem getLsbD_ctrlByte (l : Config.CtrlLayout) (fs : List CtrlField) (j : Fin 8) :
    (ctrlByte l fs).getLsbD j = decide (∃ f ∈ fs, l.pos f = j) := by
  induction fs with
  | nil => simp [ctrlByte]
  | cons f fs ih =>
    rw [ctrlByte, BitVec.getLsbD_or, ih, getLsbD_ctrlMask]
    by_cases h : l.pos f = j <;> simp [h]

/-- Bytes of CTRL are equal if their eight positions are. -/
theorem ctrl_ext {a b : Byte} (h : ∀ j : Fin 8, a.getLsbD j = b.getLsbD j) : a = b :=
  BitVec.eq_of_getLsbD_eq (fun j hj => h ⟨j, hj⟩)

/-- CTRL while a primitive is in flight does not depend on what it was (40_bus_driver_primitives.md R131). -/
theorem ctrlWrite_launchWord (l : Config.CtrlLayout) (old : Byte) (p : Prim) :
    ctrlWrite l old (launchWord l p) = ctrlByte l (launchFields p) := by
  have hint : ctrlField l .int (launchWord l p) = true := by simp [launchWord]
  unfold ctrlWrite
  rw [hint]
  apply ctrl_ext
  intro j
  simp only [launchWord, ctrlStored, BitVec.getLsbD_or, BitVec.getLsbD_and, getLsbD_ctrlByte, if_true]
  have hj : ∀ f g : CtrlField, l.pos f = j → (l.pos g = j ↔ g = f) := fun f g h => by rw [← h]; simp
  by_cases hu : ∃ f, l.pos f = j
  · obtain ⟨f, hf⟩ := hu
    cases p with
    | rx ack => cases ack <;> cases f <;> simp [launchFields, hj _ _ hf]
    | _ => cases f <;> simp [launchFields, hj _ _ hf]
  · have hn : ∀ f, ¬ l.pos f = j := fun f h => hu ⟨f, h⟩
    simp [hn]

/-- A launch clears the flag the sequencer waits for. -/
@[simp] theorem completionSeen_launch (l : Config.CtrlLayout) (old : Byte) (p : Prim) :
    completionSeen l p (ctrlWrite l old (launchWord l p)) = false := by
  rw [ctrlWrite_launchWord]
  cases p with
  | rx ack => cases ack <;> simp [completionSeen, launchFields]
  | _ => simp [completionSeen, launchFields]

@[simp] theorem ctrlField_setInt (l : Config.CtrlLayout) (f : CtrlField) (c : Byte) :
    ctrlField l f (ctrlSetInt l c) = (decide (f = .int) || ctrlField l f c) := by
  unfold ctrlField ctrlSetInt
  rw [BitVec.getLsbD_or, getLsbD_ctrlMask]
  by_cases h : f = .int
  · simp [h]
  · have : (CtrlField.int = f) = False := by simp [Ne.symm h]
    simp [h, this]

@[simp] theorem ctrlField_clearSto (l : Config.CtrlLayout) (f : CtrlField) (c : Byte) :
    ctrlField l f (ctrlClearSto l c) = (decide (f ≠ .sto) && ctrlField l f c) := by
  unfold ctrlField ctrlClearSto
  rw [BitVec.getLsbD_and, BitVec.getLsbD_not, getLsbD_ctrlMask]
  by_cases h : f = .sto
  · simp [h]
  · have : (CtrlField.sto = f) = False := by simp [Ne.symm h]
    simp [h, this]

/-- Completion raises it. -/
@[simp] theorem completionSeen_complete (l : Config.CtrlLayout) (c : Byte) (p : Prim) :
    completionSeen l p (ctrlComplete l p c) = true := by
  cases p <;> simp [completionSeen, ctrlComplete]

/-- CTRL after a completed primitive other than STOP: INT and what the launch stored (10_state.md R26, R28). -/
theorem ctrlSetInt_ctrlByte (l : Config.CtrlLayout) (fs : List CtrlField) :
    ctrlSetInt l (ctrlByte l fs) = ctrlByte l (.int :: fs) := rfl

/-- CTRL after a completed STOP: EN (10_state.md R27, R28). -/
theorem ctrlClearSto_stop (l : Config.CtrlLayout) :
    ctrlClearSto l (ctrlByte l [.sto, .en]) = ctrlByte l [.en] := by
  unfold ctrlClearSto
  apply ctrl_ext
  intro j
  simp only [BitVec.getLsbD_and, BitVec.getLsbD_not, getLsbD_ctrlMask, getLsbD_ctrlByte]
  have hj : ∀ f g : CtrlField, l.pos f = j → (l.pos g = j ↔ g = f) := fun f g h => by rw [← h]; simp
  by_cases hu : ∃ f, l.pos f = j
  · obtain ⟨f, hf⟩ := hu
    cases f <;> simp [hj _ _ hf]
  · have hn : ∀ f, ¬ l.pos f = j := fun f h => hu ⟨f, h⟩
    simp [hn]

/-- Completion leaves the reserved bits of CTRL as they were. -/
theorem ctrlReserved_complete {l : Config.CtrlLayout} {c : Byte} (p : Prim)
    (h : c &&& ~~~(ctrlUsed l) = 0x00#8) : ctrlComplete l p c &&& ~~~(ctrlUsed l) = 0x00#8 := by
  have hset : ctrlSetInt l c &&& ~~~(ctrlUsed l) = 0x00#8 := by
    rw [← h]
    apply ctrl_ext
    intro j
    simp only [ctrlSetInt, ctrlUsed, BitVec.getLsbD_and, BitVec.getLsbD_or, BitVec.getLsbD_not, getLsbD_ctrlMask,
      getLsbD_ctrlByte]
    by_cases hi : l.pos .int = j <;> simp [hi]
  have hclr : ctrlClearSto l c &&& ~~~(ctrlUsed l) = 0x00#8 := by
    rw [ctrlClearSto, BitVec.and_assoc, BitVec.and_comm (~~~ctrlMask l .sto), ← BitVec.and_assoc, h]
    simp
  cases p <;> assumption

/-- A byte of fields has its reserved bits 0. -/
theorem ctrlReserved_ctrlByte (l : Config.CtrlLayout) (fs : List CtrlField) :
    ctrlByte l fs &&& ~~~(ctrlUsed l) = 0x00#8 := by
  apply ctrl_ext
  intro j
  simp only [ctrlUsed, BitVec.getLsbD_and, BitVec.getLsbD_not, getLsbD_ctrlByte]
  by_cases hu : ∃ f ∈ fs, l.pos f = j
  · obtain ⟨f, -, hf⟩ := hu
    have : ∃ g ∈ [CtrlField.int, .ea, .sta, .sto, .en], l.pos g = j := ⟨f, by cases f <;> simp, hf⟩
    rw [decide_eq_true this]
    simp
  · simp [hu]

/-- A completion writes the code field and no prescaler bit (10_state.md R30). -/
@[simp] theorem statusPs_withCode (c : Config.Params) (status code : Byte) :
    statusPs c (withCode c status code) = statusPs c status := by
  unfold statusPs withCode
  ext i hi
  simp only [BitVec.getElem_and, BitVec.getElem_or, BitVec.getElem_not]
  cases c.statusMask[i] <;> simp

/-- The code read back is the one written, without its prescaler bits. -/
@[simp] theorem statusCode_withCode (c : Config.Params) (status code : Byte) :
    statusCode c (withCode c status code) = statusCode c code := by
  unfold statusCode withCode
  ext i hi
  simp only [BitVec.getElem_and, BitVec.getElem_or, BitVec.getElem_not]
  cases c.statusMask[i] <;> simp

/-- A later code replaces an earlier one. -/
@[simp] theorem withCode_withCode (c : Config.Params) (status a b : Byte) :
    withCode c (withCode c status a) b = withCode c status b := by
  unfold withCode
  ext i hi
  simp only [BitVec.getElem_and, BitVec.getElem_or, BitVec.getElem_not]
  cases c.statusMask[i] <;> simp

/-- A known code is its own masked value (00_scope.md R9). -/
theorem statusCode_known {c : Config.Params} (h : c.codesWf) {k : Byte} (hk : k ∈ c.codes.known) :
    statusCode c k = k := by
  have h0 := h.2.1 k hk
  unfold statusCode
  have hk' : k &&& c.statusMask ||| k &&& ~~~c.statusMask = k := by
    ext i hi
    simp only [BitVec.getElem_and, BitVec.getElem_or, BitVec.getElem_not]
    cases c.statusMask[i] <;> simp
  rw [h0] at hk'
  simpa using hk'

/-- `STATUS_MASK` has a 1 exactly above the prescaler bits (00_scope.md R8). -/
theorem getLsbD_statusMask (c : Config.Params) (j : Nat) :
    c.statusMask.getLsbD j = decide (c.statusPsBits ≤ j ∧ j < 8) := by
  have h : ∀ n : Fin 9, ∀ j : Fin 8,
      (BitVec.ofNat 8 ((2 ^ n.val - 1) * 2 ^ (8 - n.val))).getLsbD j = decide (8 - n.val ≤ j.val) := by decide
  by_cases hj : j < 8
  · unfold Config.Params.statusMask Config.Params.statusPsBits
    rw [h c.statusCodeBits ⟨j, hj⟩]
    simp [hj]
  · rw [BitVec.getLsbD_of_ge _ _ (by omega)]
    simp [hj]

end Sys2Proof.Machine
end

