-- ==== Sys2Proof/Laws/State.lean ====
section
/-! SUPPORT. Laws/State.lean: what each named operation does to each field of State, one lemma a field, so that no later
proof unfolds a record update. A field an operation changes only in some cases has its lemma in the operation's own file. -/

namespace Sys2Proof.Machine

@[simp] theorem respond_cfg (k : RespKind) (v : Byte) (s : State) : (respond k v s).cfg = s.cfg := rfl
@[simp] theorem respond_ctrl (k : RespKind) (v : Byte) (s : State) : (respond k v s).ctrl = s.ctrl := rfl
@[simp] theorem respond_rate (k : RespKind) (v : Byte) (s : State) : (respond k v s).rate = s.rate := rfl
@[simp] theorem respond_status (k : RespKind) (v : Byte) (s : State) : (respond k v s).status = s.status := rfl
@[simp] theorem respond_data (k : RespKind) (v : Byte) (s : State) : (respond k v s).data = s.data := rfl
@[simp] theorem respond_phase (k : RespKind) (v : Byte) (s : State) : (respond k v s).phase = s.phase := rfl
@[simp] theorem respond_inflight (k : RespKind) (v : Byte) (s : State) : (respond k v s).inflight = s.inflight := rfl
@[simp] theorem respond_initialized (k : RespKind) (v : Byte) (s : State) : (respond k v s).initialized = s.initialized := rfl
@[simp] theorem respond_traceEn (k : RespKind) (v : Byte) (s : State) : (respond k v s).traceEn = s.traceEn := rfl
@[simp] theorem respond_result (k : RespKind) (v : Byte) (s : State) : (respond k v s).result = s.result := rfl
@[simp] theorem respond_seq (k : RespKind) (v : Byte) (s : State) : (respond k v s).seq = Seq.idle := rfl
@[simp] theorem respond_buf (k : RespKind) (v : Byte) (s : State) : (respond k v s).buf = s.buf := rfl
@[simp] theorem respond_resp (k : RespKind) (v : Byte) (s : State) : (respond k v s).resp = some (respWord k 0#4 v) := rfl
@[simp] theorem respond_busHistory (k : RespKind) (v : Byte) (s : State) : (respond k v s).busHistory = s.busHistory := rfl
@[simp] theorem respond_diagHistory (k : RespKind) (v : Byte) (s : State) : (respond k v s).diagHistory = s.diagHistory := rfl
@[simp] theorem respond_env (k : RespKind) (v : Byte) (s : State) : (respond k v s).env = s.env := rfl
@[simp] theorem respond_draws (k : RespKind) (v : Byte) (s : State) : (respond k v s).draws = s.draws := rfl
@[simp] theorem respond_port (k : RespKind) (v : Byte) (s : State) : (respond k v s).port = s.port := rfl
@[simp] theorem respond_resetPin (k : RespKind) (v : Byte) (s : State) : (respond k v s).resetPin = s.resetPin := rfl
@[simp] theorem respond_pace (k : RespKind) (v : Byte) (s : State) : (respond k v s).pace = s.pace := rfl

@[simp] theorem raiseIllegal_cfg (c : IllegalCause) (s : State) : (raiseIllegal c s).cfg = s.cfg := rfl
@[simp] theorem raiseIllegal_ctrl (c : IllegalCause) (s : State) : (raiseIllegal c s).ctrl = s.ctrl := rfl
@[simp] theorem raiseIllegal_rate (c : IllegalCause) (s : State) : (raiseIllegal c s).rate = s.rate := rfl
@[simp] theorem raiseIllegal_status (c : IllegalCause) (s : State) : (raiseIllegal c s).status = s.status := rfl
@[simp] theorem raiseIllegal_data (c : IllegalCause) (s : State) : (raiseIllegal c s).data = s.data := rfl
@[simp] theorem raiseIllegal_phase (c : IllegalCause) (s : State) : (raiseIllegal c s).phase = s.phase := rfl
@[simp] theorem raiseIllegal_inflight (c : IllegalCause) (s : State) : (raiseIllegal c s).inflight = s.inflight := rfl
@[simp] theorem raiseIllegal_initialized (c : IllegalCause) (s : State) : (raiseIllegal c s).initialized = s.initialized := rfl
@[simp] theorem raiseIllegal_traceEn (c : IllegalCause) (s : State) : (raiseIllegal c s).traceEn = s.traceEn := rfl
@[simp] theorem raiseIllegal_result (c : IllegalCause) (s : State) : (raiseIllegal c s).result = s.result := rfl
@[simp] theorem raiseIllegal_seq (c : IllegalCause) (s : State) : (raiseIllegal c s).seq = s.seq := rfl
@[simp] theorem raiseIllegal_buf (c : IllegalCause) (s : State) : (raiseIllegal c s).buf = s.buf := rfl
@[simp] theorem raiseIllegal_resp (c : IllegalCause) (s : State) : (raiseIllegal c s).resp = some (respWord .err c.code 0x00#8) := rfl
@[simp] theorem raiseIllegal_busHistory (c : IllegalCause) (s : State) : (raiseIllegal c s).busHistory = s.busHistory := rfl
@[simp] theorem raiseIllegal_diagHistory (c : IllegalCause) (s : State) : (raiseIllegal c s).diagHistory = s.diagHistory := rfl
@[simp] theorem raiseIllegal_env (c : IllegalCause) (s : State) : (raiseIllegal c s).env = s.env := rfl
@[simp] theorem raiseIllegal_draws (c : IllegalCause) (s : State) : (raiseIllegal c s).draws = s.draws := rfl
@[simp] theorem raiseIllegal_port (c : IllegalCause) (s : State) : (raiseIllegal c s).port = s.port := rfl
@[simp] theorem raiseIllegal_resetPin (c : IllegalCause) (s : State) : (raiseIllegal c s).resetPin = s.resetPin := rfl
@[simp] theorem raiseIllegal_pace (c : IllegalCause) (s : State) : (raiseIllegal c s).pace = s.pace := rfl

@[simp] theorem accept_cfg (i : Instr) (s : State) : (accept i s).cfg = s.cfg := rfl
@[simp] theorem accept_ctrl (i : Instr) (s : State) : (accept i s).ctrl = s.ctrl := rfl
@[simp] theorem accept_rate (i : Instr) (s : State) : (accept i s).rate = s.rate := rfl
@[simp] theorem accept_status (i : Instr) (s : State) : (accept i s).status = s.status := rfl
@[simp] theorem accept_data (i : Instr) (s : State) : (accept i s).data = s.data := rfl
@[simp] theorem accept_phase (i : Instr) (s : State) : (accept i s).phase = s.phase := rfl
@[simp] theorem accept_inflight (i : Instr) (s : State) : (accept i s).inflight = s.inflight := rfl
@[simp] theorem accept_initialized (i : Instr) (s : State) : (accept i s).initialized = s.initialized := rfl
@[simp] theorem accept_traceEn (i : Instr) (s : State) : (accept i s).traceEn = s.traceEn := rfl
@[simp] theorem accept_result (i : Instr) (s : State) : (accept i s).result = s.result := rfl
@[simp] theorem accept_seq (i : Instr) (s : State) : (accept i s).seq = ⟨some i, 0, 0#8, none⟩ := rfl
@[simp] theorem accept_buf (i : Instr) (s : State) : (accept i s).buf = s.buf := rfl
@[simp] theorem accept_resp (i : Instr) (s : State) : (accept i s).resp = none := rfl
@[simp] theorem accept_busHistory (i : Instr) (s : State) : (accept i s).busHistory = s.busHistory := rfl
@[simp] theorem accept_diagHistory (i : Instr) (s : State) : (accept i s).diagHistory = s.diagHistory := rfl
@[simp] theorem accept_env (i : Instr) (s : State) : (accept i s).env = s.env := rfl
@[simp] theorem accept_draws (i : Instr) (s : State) : (accept i s).draws = s.draws := rfl
@[simp] theorem accept_port (i : Instr) (s : State) : (accept i s).port = s.port := rfl
@[simp] theorem accept_resetPin (i : Instr) (s : State) : (accept i s).resetPin = s.resetPin := rfl
@[simp] theorem accept_pace (i : Instr) (s : State) : (accept i s).pace = s.pace := rfl

@[simp] theorem launch_cfg (p : Prim) (s : State) : (launch p s).cfg = s.cfg := rfl
@[simp] theorem launch_ctrl (p : Prim) (s : State) : (launch p s).ctrl = ctrlWrite s.cfg.ctrlLayout s.ctrl (launchWord s.cfg.ctrlLayout p) := rfl
@[simp] theorem launch_rate (p : Prim) (s : State) : (launch p s).rate = s.rate := rfl
@[simp] theorem launch_status (p : Prim) (s : State) : (launch p s).status = s.status := rfl
@[simp] theorem launch_data (p : Prim) (s : State) : (launch p s).data = launchData p s.data := rfl
@[simp] theorem launch_phase (p : Prim) (s : State) : (launch p s).phase = s.phase := rfl
@[simp] theorem launch_inflight (p : Prim) (s : State) : (launch p s).inflight = some p := rfl
@[simp] theorem launch_initialized (p : Prim) (s : State) : (launch p s).initialized = s.initialized := rfl
@[simp] theorem launch_traceEn (p : Prim) (s : State) : (launch p s).traceEn = s.traceEn := rfl
@[simp] theorem launch_result (p : Prim) (s : State) : (launch p s).result = s.result := rfl
@[simp] theorem launch_seq (p : Prim) (s : State) : (launch p s).seq = { s.seq with wait := some p } := rfl
@[simp] theorem launch_buf (p : Prim) (s : State) : (launch p s).buf = s.buf := rfl
@[simp] theorem launch_resp (p : Prim) (s : State) : (launch p s).resp = s.resp := rfl
@[simp] theorem launch_busHistory (p : Prim) (s : State) : (launch p s).busHistory = s.busHistory := rfl
@[simp] theorem launch_diagHistory (p : Prim) (s : State) : (launch p s).diagHistory = s.diagHistory := rfl
@[simp] theorem launch_env (p : Prim) (s : State) : (launch p s).env = s.env := rfl
@[simp] theorem launch_draws (p : Prim) (s : State) : (launch p s).draws = s.draws := rfl
@[simp] theorem launch_port (p : Prim) (s : State) : (launch p s).port = s.port := rfl
@[simp] theorem launch_resetPin (p : Prim) (s : State) : (launch p s).resetPin = s.resetPin := rfl
@[simp] theorem launch_pace (p : Prim) (s : State) : (launch p s).pace = s.pace := rfl

@[simp] theorem complete_cfg (p : Prim) (a : Answer) (s : State) : (complete p a s).cfg = s.cfg := rfl
@[simp] theorem complete_ctrl (p : Prim) (a : Answer) (s : State) : (complete p a s).ctrl = ctrlComplete s.cfg.ctrlLayout p s.ctrl := rfl
@[simp] theorem complete_rate (p : Prim) (a : Answer) (s : State) : (complete p a s).rate = s.rate := rfl
@[simp] theorem complete_status (p : Prim) (a : Answer) (s : State) : (complete p a s).status = withCode s.cfg s.status (outcomeCode s.cfg s.phase (statusCode s.cfg s.status) p a) := rfl
@[simp] theorem complete_data (p : Prim) (a : Answer) (s : State) : (complete p a s).data = outcomeData s.data (Config.freeByte s.draws) p a := rfl
@[simp] theorem complete_phase (p : Prim) (a : Answer) (s : State) : (complete p a s).phase = outcomePhase s.cfg s.phase p a := rfl
@[simp] theorem complete_inflight (p : Prim) (a : Answer) (s : State) : (complete p a s).inflight = none := rfl
@[simp] theorem complete_initialized (p : Prim) (a : Answer) (s : State) : (complete p a s).initialized = s.initialized := rfl
@[simp] theorem complete_traceEn (p : Prim) (a : Answer) (s : State) : (complete p a s).traceEn = s.traceEn := rfl
@[simp] theorem complete_result (p : Prim) (a : Answer) (s : State) : (complete p a s).result = s.result := rfl
@[simp] theorem complete_seq (p : Prim) (a : Answer) (s : State) : (complete p a s).seq = s.seq := rfl
@[simp] theorem complete_buf (p : Prim) (a : Answer) (s : State) : (complete p a s).buf = s.buf := rfl
@[simp] theorem complete_resp (p : Prim) (a : Answer) (s : State) : (complete p a s).resp = s.resp := rfl
@[simp] theorem complete_busHistory (p : Prim) (a : Answer) (s : State) : (complete p a s).busHistory = s.busHistory ++ [outcomeEvent s.phase p a] := rfl
@[simp] theorem complete_diagHistory (p : Prim) (a : Answer) (s : State) : (complete p a s).diagHistory = s.diagHistory := rfl
@[simp] theorem complete_env (p : Prim) (a : Answer) (s : State) : (complete p a s).env = s.env := rfl
@[simp] theorem complete_draws (p : Prim) (a : Answer) (s : State) : (complete p a s).draws = if drawsData p a then s.draws + 1 else s.draws := rfl
@[simp] theorem complete_port (p : Prim) (a : Answer) (s : State) : (complete p a s).port = s.port := rfl
@[simp] theorem complete_resetPin (p : Prim) (a : Answer) (s : State) : (complete p a s).resetPin = s.resetPin := rfl
@[simp] theorem complete_pace (p : Prim) (a : Answer) (s : State) : (complete p a s).pace = s.pace := rfl

@[simp] theorem writeBuf_cfg (idx v : Byte) (s : State) : (writeBuf idx v s).cfg = s.cfg := rfl
@[simp] theorem writeBuf_ctrl (idx v : Byte) (s : State) : (writeBuf idx v s).ctrl = s.ctrl := rfl
@[simp] theorem writeBuf_rate (idx v : Byte) (s : State) : (writeBuf idx v s).rate = s.rate := rfl
@[simp] theorem writeBuf_status (idx v : Byte) (s : State) : (writeBuf idx v s).status = s.status := rfl
@[simp] theorem writeBuf_data (idx v : Byte) (s : State) : (writeBuf idx v s).data = s.data := rfl
@[simp] theorem writeBuf_phase (idx v : Byte) (s : State) : (writeBuf idx v s).phase = s.phase := rfl
@[simp] theorem writeBuf_inflight (idx v : Byte) (s : State) : (writeBuf idx v s).inflight = s.inflight := rfl
@[simp] theorem writeBuf_initialized (idx v : Byte) (s : State) : (writeBuf idx v s).initialized = s.initialized := rfl
@[simp] theorem writeBuf_traceEn (idx v : Byte) (s : State) : (writeBuf idx v s).traceEn = s.traceEn := rfl
@[simp] theorem writeBuf_result (idx v : Byte) (s : State) : (writeBuf idx v s).result = s.result := rfl
@[simp] theorem writeBuf_seq (idx v : Byte) (s : State) : (writeBuf idx v s).seq = s.seq := rfl
@[simp] theorem writeBuf_buf (idx v : Byte) (s : State) : (writeBuf idx v s).buf = if idx.toNat < s.cfg.bufSize then Memory.write bufBlank s.buf idx.toNat v else s.buf := rfl
@[simp] theorem writeBuf_resp (idx v : Byte) (s : State) : (writeBuf idx v s).resp = s.resp := rfl
@[simp] theorem writeBuf_busHistory (idx v : Byte) (s : State) : (writeBuf idx v s).busHistory = s.busHistory := rfl
@[simp] theorem writeBuf_diagHistory (idx v : Byte) (s : State) : (writeBuf idx v s).diagHistory = s.diagHistory := rfl
@[simp] theorem writeBuf_env (idx v : Byte) (s : State) : (writeBuf idx v s).env = s.env := rfl
@[simp] theorem writeBuf_draws (idx v : Byte) (s : State) : (writeBuf idx v s).draws = s.draws := rfl
@[simp] theorem writeBuf_port (idx v : Byte) (s : State) : (writeBuf idx v s).port = s.port := rfl
@[simp] theorem writeBuf_resetPin (idx v : Byte) (s : State) : (writeBuf idx v s).resetPin = s.resetPin := rfl
@[simp] theorem writeBuf_pace (idx v : Byte) (s : State) : (writeBuf idx v s).pace = s.pace := rfl

@[simp] theorem countLoop_cfg (len : Byte) (s : State) : (countLoop len s).cfg = s.cfg := rfl
@[simp] theorem countLoop_ctrl (len : Byte) (s : State) : (countLoop len s).ctrl = s.ctrl := rfl
@[simp] theorem countLoop_rate (len : Byte) (s : State) : (countLoop len s).rate = s.rate := rfl
@[simp] theorem countLoop_status (len : Byte) (s : State) : (countLoop len s).status = s.status := rfl
@[simp] theorem countLoop_data (len : Byte) (s : State) : (countLoop len s).data = s.data := rfl
@[simp] theorem countLoop_phase (len : Byte) (s : State) : (countLoop len s).phase = s.phase := rfl
@[simp] theorem countLoop_inflight (len : Byte) (s : State) : (countLoop len s).inflight = s.inflight := rfl
@[simp] theorem countLoop_initialized (len : Byte) (s : State) : (countLoop len s).initialized = s.initialized := rfl
@[simp] theorem countLoop_traceEn (len : Byte) (s : State) : (countLoop len s).traceEn = s.traceEn := rfl
@[simp] theorem countLoop_result (len : Byte) (s : State) : (countLoop len s).result = s.result := rfl
@[simp] theorem countLoop_seq (len : Byte) (s : State) : (countLoop len s).seq = { s.seq with i := s.seq.i + 1#8, pc := if loopGoesOn (s.seq.i + 1#8) len then s.seq.pc else s.seq.pc + 1 } := rfl
@[simp] theorem countLoop_buf (len : Byte) (s : State) : (countLoop len s).buf = s.buf := rfl
@[simp] theorem countLoop_resp (len : Byte) (s : State) : (countLoop len s).resp = s.resp := rfl
@[simp] theorem countLoop_busHistory (len : Byte) (s : State) : (countLoop len s).busHistory = s.busHistory := rfl
@[simp] theorem countLoop_diagHistory (len : Byte) (s : State) : (countLoop len s).diagHistory = s.diagHistory := rfl
@[simp] theorem countLoop_env (len : Byte) (s : State) : (countLoop len s).env = s.env := rfl
@[simp] theorem countLoop_draws (len : Byte) (s : State) : (countLoop len s).draws = s.draws := rfl
@[simp] theorem countLoop_port (len : Byte) (s : State) : (countLoop len s).port = s.port := rfl
@[simp] theorem countLoop_resetPin (len : Byte) (s : State) : (countLoop len s).resetPin = s.resetPin := rfl
@[simp] theorem countLoop_pace (len : Byte) (s : State) : (countLoop len s).pace = s.pace := rfl

@[simp] theorem resetEvent_cfg (s : State) : (resetEvent s).cfg = s.cfg := rfl
@[simp] theorem resetEvent_ctrl (s : State) : (resetEvent s).ctrl = 0x00#8 := rfl
@[simp] theorem resetEvent_rate (s : State) : (resetEvent s).rate = 0x00#8 := rfl
@[simp] theorem resetEvent_status (s : State) : (resetEvent s).status = statusAtReset s.cfg := rfl
@[simp] theorem resetEvent_data (s : State) : (resetEvent s).data = s.cfg.resetData := rfl
@[simp] theorem resetEvent_phase (s : State) : (resetEvent s).phase = .idle := rfl
@[simp] theorem resetEvent_inflight (s : State) : (resetEvent s).inflight = none := rfl
@[simp] theorem resetEvent_initialized (s : State) : (resetEvent s).initialized = false := rfl
@[simp] theorem resetEvent_traceEn (s : State) : (resetEvent s).traceEn = false := rfl
@[simp] theorem resetEvent_result (s : State) : (resetEvent s).result = 0x00#8 := rfl
@[simp] theorem resetEvent_seq (s : State) : (resetEvent s).seq = Seq.idle := rfl
@[simp] theorem resetEvent_buf (s : State) : (resetEvent s).buf = s.buf := rfl
@[simp] theorem resetEvent_resp (s : State) : (resetEvent s).resp = none := rfl
@[simp] theorem resetEvent_busHistory (s : State) : (resetEvent s).busHistory = s.busHistory ++ [.reset] := rfl
@[simp] theorem resetEvent_diagHistory (s : State) : (resetEvent s).diagHistory = s.diagHistory := rfl
@[simp] theorem resetEvent_env (s : State) : (resetEvent s).env = s.env := rfl
@[simp] theorem resetEvent_draws (s : State) : (resetEvent s).draws = s.draws := rfl
@[simp] theorem resetEvent_port (s : State) : (resetEvent s).port = s.port := rfl
@[simp] theorem resetEvent_resetPin (s : State) : (resetEvent s).resetPin = s.resetPin := rfl
@[simp] theorem resetEvent_pace (s : State) : (resetEvent s).pace = s.pace := rfl

@[simp] theorem emitTrace_cfg (s : State) : (emitTrace s).cfg = s.cfg := by unfold emitTrace; split <;> rfl
@[simp] theorem emitTrace_ctrl (s : State) : (emitTrace s).ctrl = s.ctrl := by unfold emitTrace; split <;> rfl
@[simp] theorem emitTrace_rate (s : State) : (emitTrace s).rate = s.rate := by unfold emitTrace; split <;> rfl
@[simp] theorem emitTrace_status (s : State) : (emitTrace s).status = s.status := by unfold emitTrace; split <;> rfl
@[simp] theorem emitTrace_data (s : State) : (emitTrace s).data = s.data := by unfold emitTrace; split <;> rfl
@[simp] theorem emitTrace_phase (s : State) : (emitTrace s).phase = s.phase := by unfold emitTrace; split <;> rfl
@[simp] theorem emitTrace_inflight (s : State) : (emitTrace s).inflight = s.inflight := by unfold emitTrace; split <;> rfl
@[simp] theorem emitTrace_initialized (s : State) : (emitTrace s).initialized = s.initialized := by unfold emitTrace; split <;> rfl
@[simp] theorem emitTrace_traceEn (s : State) : (emitTrace s).traceEn = s.traceEn := by unfold emitTrace; split <;> rfl
@[simp] theorem emitTrace_result (s : State) : (emitTrace s).result = s.result := by unfold emitTrace; split <;> rfl
@[simp] theorem emitTrace_seq (s : State) : (emitTrace s).seq = s.seq := by unfold emitTrace; split <;> rfl
@[simp] theorem emitTrace_buf (s : State) : (emitTrace s).buf = s.buf := by unfold emitTrace; split <;> rfl
@[simp] theorem emitTrace_resp (s : State) : (emitTrace s).resp = s.resp := by unfold emitTrace; split <;> rfl
@[simp] theorem emitTrace_busHistory (s : State) : (emitTrace s).busHistory = s.busHistory := by unfold emitTrace; split <;> rfl
@[simp] theorem emitTrace_env (s : State) : (emitTrace s).env = s.env := by unfold emitTrace; split <;> rfl
@[simp] theorem emitTrace_draws (s : State) : (emitTrace s).draws = s.draws := by unfold emitTrace; split <;> rfl
@[simp] theorem emitTrace_port (s : State) : (emitTrace s).port = s.port := by unfold emitTrace; split <;> rfl
@[simp] theorem emitTrace_resetPin (s : State) : (emitTrace s).resetPin = s.resetPin := by unfold emitTrace; split <;> rfl
@[simp] theorem emitTrace_pace (s : State) : (emitTrace s).pace = s.pace := by unfold emitTrace; split <;> rfl

@[simp] theorem latchResult_cfg (p : Prim) (s : State) : (latchResult p s).cfg = s.cfg := by cases p <;> rfl
@[simp] theorem latchResult_ctrl (p : Prim) (s : State) : (latchResult p s).ctrl = s.ctrl := by cases p <;> rfl
@[simp] theorem latchResult_rate (p : Prim) (s : State) : (latchResult p s).rate = s.rate := by cases p <;> rfl
@[simp] theorem latchResult_status (p : Prim) (s : State) : (latchResult p s).status = s.status := by cases p <;> rfl
@[simp] theorem latchResult_data (p : Prim) (s : State) : (latchResult p s).data = s.data := by cases p <;> rfl
@[simp] theorem latchResult_phase (p : Prim) (s : State) : (latchResult p s).phase = s.phase := by cases p <;> rfl
@[simp] theorem latchResult_inflight (p : Prim) (s : State) : (latchResult p s).inflight = s.inflight := by cases p <;> rfl
@[simp] theorem latchResult_initialized (p : Prim) (s : State) : (latchResult p s).initialized = s.initialized := by cases p <;> rfl
@[simp] theorem latchResult_traceEn (p : Prim) (s : State) : (latchResult p s).traceEn = s.traceEn := by cases p <;> rfl
@[simp] theorem latchResult_seq (p : Prim) (s : State) : (latchResult p s).seq = s.seq := by cases p <;> rfl
@[simp] theorem latchResult_buf (p : Prim) (s : State) : (latchResult p s).buf = s.buf := by cases p <;> rfl
@[simp] theorem latchResult_resp (p : Prim) (s : State) : (latchResult p s).resp = s.resp := by cases p <;> rfl
@[simp] theorem latchResult_busHistory (p : Prim) (s : State) : (latchResult p s).busHistory = s.busHistory := by cases p <;> rfl
@[simp] theorem latchResult_diagHistory (p : Prim) (s : State) : (latchResult p s).diagHistory = s.diagHistory := by cases p <;> rfl
@[simp] theorem latchResult_env (p : Prim) (s : State) : (latchResult p s).env = s.env := by cases p <;> rfl
@[simp] theorem latchResult_draws (p : Prim) (s : State) : (latchResult p s).draws = s.draws := by cases p <;> rfl
@[simp] theorem latchResult_port (p : Prim) (s : State) : (latchResult p s).port = s.port := by cases p <;> rfl
@[simp] theorem latchResult_resetPin (p : Prim) (s : State) : (latchResult p s).resetPin = s.resetPin := by cases p <;> rfl
@[simp] theorem latchResult_pace (p : Prim) (s : State) : (latchResult p s).pace = s.pace := by cases p <;> rfl

@[simp] theorem finishEntry_cfg (act : SeqAct) (s : State) : (finishEntry act s).cfg = s.cfg := by cases act <;> rfl
@[simp] theorem finishEntry_ctrl (act : SeqAct) (s : State) : (finishEntry act s).ctrl = s.ctrl := by cases act <;> rfl
@[simp] theorem finishEntry_rate (act : SeqAct) (s : State) : (finishEntry act s).rate = s.rate := by cases act <;> rfl
@[simp] theorem finishEntry_status (act : SeqAct) (s : State) : (finishEntry act s).status = s.status := by cases act <;> rfl
@[simp] theorem finishEntry_data (act : SeqAct) (s : State) : (finishEntry act s).data = s.data := by cases act <;> rfl
@[simp] theorem finishEntry_phase (act : SeqAct) (s : State) : (finishEntry act s).phase = s.phase := by cases act <;> rfl
@[simp] theorem finishEntry_inflight (act : SeqAct) (s : State) : (finishEntry act s).inflight = s.inflight := by cases act <;> rfl
@[simp] theorem finishEntry_initialized (act : SeqAct) (s : State) : (finishEntry act s).initialized = s.initialized := by cases act <;> rfl
@[simp] theorem finishEntry_traceEn (act : SeqAct) (s : State) : (finishEntry act s).traceEn = s.traceEn := by cases act <;> rfl
@[simp] theorem finishEntry_result (act : SeqAct) (s : State) : (finishEntry act s).result = s.result := by cases act <;> rfl
@[simp] theorem finishEntry_resp (act : SeqAct) (s : State) : (finishEntry act s).resp = s.resp := by cases act <;> rfl
@[simp] theorem finishEntry_busHistory (act : SeqAct) (s : State) : (finishEntry act s).busHistory = s.busHistory := by cases act <;> rfl
@[simp] theorem finishEntry_diagHistory (act : SeqAct) (s : State) : (finishEntry act s).diagHistory = s.diagHistory := by cases act <;> rfl
@[simp] theorem finishEntry_env (act : SeqAct) (s : State) : (finishEntry act s).env = s.env := by cases act <;> rfl
@[simp] theorem finishEntry_draws (act : SeqAct) (s : State) : (finishEntry act s).draws = s.draws := by cases act <;> rfl
@[simp] theorem finishEntry_port (act : SeqAct) (s : State) : (finishEntry act s).port = s.port := by cases act <;> rfl
@[simp] theorem finishEntry_resetPin (act : SeqAct) (s : State) : (finishEntry act s).resetPin = s.resetPin := by cases act <;> rfl
@[simp] theorem finishEntry_pace (act : SeqAct) (s : State) : (finishEntry act s).pace = s.pace := by cases act <;> rfl

@[simp] theorem pollEnv_cfg (p : Prim) (s : State) : ((pollEnv p s).2).cfg = s.cfg := by unfold pollEnv; split <;> rfl
@[simp] theorem pollEnv_ctrl (p : Prim) (s : State) : ((pollEnv p s).2).ctrl = s.ctrl := by unfold pollEnv; split <;> rfl
@[simp] theorem pollEnv_rate (p : Prim) (s : State) : ((pollEnv p s).2).rate = s.rate := by unfold pollEnv; split <;> rfl
@[simp] theorem pollEnv_status (p : Prim) (s : State) : ((pollEnv p s).2).status = s.status := by unfold pollEnv; split <;> rfl
@[simp] theorem pollEnv_data (p : Prim) (s : State) : ((pollEnv p s).2).data = s.data := by unfold pollEnv; split <;> rfl
@[simp] theorem pollEnv_phase (p : Prim) (s : State) : ((pollEnv p s).2).phase = s.phase := by unfold pollEnv; split <;> rfl
@[simp] theorem pollEnv_inflight (p : Prim) (s : State) : ((pollEnv p s).2).inflight = s.inflight := by unfold pollEnv; split <;> rfl
@[simp] theorem pollEnv_initialized (p : Prim) (s : State) : ((pollEnv p s).2).initialized = s.initialized := by unfold pollEnv; split <;> rfl
@[simp] theorem pollEnv_traceEn (p : Prim) (s : State) : ((pollEnv p s).2).traceEn = s.traceEn := by unfold pollEnv; split <;> rfl
@[simp] theorem pollEnv_result (p : Prim) (s : State) : ((pollEnv p s).2).result = s.result := by unfold pollEnv; split <;> rfl
@[simp] theorem pollEnv_seq (p : Prim) (s : State) : ((pollEnv p s).2).seq = s.seq := by unfold pollEnv; split <;> rfl
@[simp] theorem pollEnv_buf (p : Prim) (s : State) : ((pollEnv p s).2).buf = s.buf := by unfold pollEnv; split <;> rfl
@[simp] theorem pollEnv_resp (p : Prim) (s : State) : ((pollEnv p s).2).resp = s.resp := by unfold pollEnv; split <;> rfl
@[simp] theorem pollEnv_busHistory (p : Prim) (s : State) : ((pollEnv p s).2).busHistory = s.busHistory := by unfold pollEnv; split <;> rfl
@[simp] theorem pollEnv_diagHistory (p : Prim) (s : State) : ((pollEnv p s).2).diagHistory = s.diagHistory := by unfold pollEnv; split <;> rfl
@[simp] theorem pollEnv_port (p : Prim) (s : State) : ((pollEnv p s).2).port = s.port := by unfold pollEnv; split <;> rfl
@[simp] theorem pollEnv_resetPin (p : Prim) (s : State) : ((pollEnv p s).2).resetPin = s.resetPin := by unfold pollEnv; split <;> rfl
@[simp] theorem pollEnv_pace (p : Prim) (s : State) : ((pollEnv p s).2).pace = s.pace := by unfold pollEnv; split <;> rfl

@[simp] theorem busTurn_cfg (s : State) : (busTurn s).cfg = s.cfg := by unfold busTurn; split <;> [rfl; (split <;> simp)]
@[simp] theorem busTurn_rate (s : State) : (busTurn s).rate = s.rate := by unfold busTurn; split <;> [rfl; (split <;> simp)]
@[simp] theorem busTurn_initialized (s : State) : (busTurn s).initialized = s.initialized := by unfold busTurn; split <;> [rfl; (split <;> simp)]
@[simp] theorem busTurn_traceEn (s : State) : (busTurn s).traceEn = s.traceEn := by unfold busTurn; split <;> [rfl; (split <;> simp)]
@[simp] theorem busTurn_result (s : State) : (busTurn s).result = s.result := by unfold busTurn; split <;> [rfl; (split <;> simp)]
@[simp] theorem busTurn_seq (s : State) : (busTurn s).seq = s.seq := by unfold busTurn; split <;> [rfl; (split <;> simp)]
@[simp] theorem busTurn_buf (s : State) : (busTurn s).buf = s.buf := by unfold busTurn; split <;> [rfl; (split <;> simp)]
@[simp] theorem busTurn_resp (s : State) : (busTurn s).resp = s.resp := by unfold busTurn; split <;> [rfl; (split <;> simp)]
@[simp] theorem busTurn_diagHistory (s : State) : (busTurn s).diagHistory = s.diagHistory := by unfold busTurn; split <;> [rfl; (split <;> simp)]
@[simp] theorem busTurn_port (s : State) : (busTurn s).port = s.port := by unfold busTurn; split <;> [rfl; (split <;> simp)]
@[simp] theorem busTurn_resetPin (s : State) : (busTurn s).resetPin = s.resetPin := by unfold busTurn; split <;> [rfl; (split <;> simp)]
@[simp] theorem busTurn_pace (s : State) : (busTurn s).pace = s.pace := by unfold busTurn; split <;> [rfl; (split <;> simp)]

@[simp] theorem observe_cfg (act : SeqAct) (p : Prim) (s : State) : (observe act p s).cfg = s.cfg := by simp [observe]
@[simp] theorem observe_ctrl (act : SeqAct) (p : Prim) (s : State) : (observe act p s).ctrl = s.ctrl := by simp [observe]
@[simp] theorem observe_rate (act : SeqAct) (p : Prim) (s : State) : (observe act p s).rate = s.rate := by simp [observe]
@[simp] theorem observe_status (act : SeqAct) (p : Prim) (s : State) : (observe act p s).status = s.status := by simp [observe]
@[simp] theorem observe_data (act : SeqAct) (p : Prim) (s : State) : (observe act p s).data = s.data := by simp [observe]
@[simp] theorem observe_phase (act : SeqAct) (p : Prim) (s : State) : (observe act p s).phase = s.phase := by simp [observe]
@[simp] theorem observe_inflight (act : SeqAct) (p : Prim) (s : State) : (observe act p s).inflight = s.inflight := by simp [observe]
@[simp] theorem observe_initialized (act : SeqAct) (p : Prim) (s : State) : (observe act p s).initialized = s.initialized := by simp [observe]
@[simp] theorem observe_traceEn (act : SeqAct) (p : Prim) (s : State) : (observe act p s).traceEn = s.traceEn := by simp [observe]
@[simp] theorem observe_resp (act : SeqAct) (p : Prim) (s : State) : (observe act p s).resp = s.resp := by simp [observe]
@[simp] theorem observe_busHistory (act : SeqAct) (p : Prim) (s : State) : (observe act p s).busHistory = s.busHistory := by simp [observe]
@[simp] theorem observe_env (act : SeqAct) (p : Prim) (s : State) : (observe act p s).env = s.env := by simp [observe]
@[simp] theorem observe_draws (act : SeqAct) (p : Prim) (s : State) : (observe act p s).draws = s.draws := by simp [observe]
@[simp] theorem observe_port (act : SeqAct) (p : Prim) (s : State) : (observe act p s).port = s.port := by simp [observe]
@[simp] theorem observe_resetPin (act : SeqAct) (p : Prim) (s : State) : (observe act p s).resetPin = s.resetPin := by simp [observe]
@[simp] theorem observe_pace (act : SeqAct) (p : Prim) (s : State) : (observe act p s).pace = s.pace := by simp [observe]

/-- A pointed constructor of the sequencer position. -/
@[simp] theorem Seq.idle_cmd : Seq.idle.cmd = none := rfl
@[simp] theorem Seq.idle_pc : Seq.idle.pc = 0 := rfl
@[simp] theorem Seq.idle_i : Seq.idle.i = 0#8 := rfl
@[simp] theorem Seq.idle_wait : Seq.idle.wait = none := rfl

end Sys2Proof.Machine
end

