-- ==== Sys2Proof/Laws/Ops.lean ====
section
/-! SUPPORT. Laws/Ops.lean: what each named operation of Machine/Ops.lean does: the response words, the register and
buffer accesses, the exception, and the cases of the port. -/

namespace Sys2Proof.Machine

/-- The word of a response with data (30_encoding.md R106). -/
@[simp] theorem respWord_okData (v : Byte) : respWord .okData 0#4 v = 0x10#8 ++ v := rfl

/-- The word of a response without data (30_encoding.md R106). -/
@[simp] theorem respWord_ok : respWord .ok 0#4 0x00#8 = 0x0000#16 := rfl

/-- The word of the exception by its cause (30_encoding.md R106, 60_exceptions.md R242). -/
theorem respWord_err (c : IllegalCause) :
    respWord .err c.code 0x00#8 =
      match c with
      | .reservedOpcode => 0xE100#16
      | .reservedBit => 0xE200#16
      | .illegalField => 0xE300#16 := by
  cases c <;> rfl

/-- A byte of BUF that was written is the byte read (20_memory.md R62). -/
@[simp] theorem readBuf_writeBuf_same {k v : Byte} {s : State} (h : k.toNat < s.cfg.bufSize) :
    readBuf k (writeBuf k v s) = some v := by
  simp [readBuf, writeBuf, h]

/-- A write leaves every other byte of BUF alone. -/
theorem readBuf_writeBuf_other {k j v : Byte} {s : State} (h : k ≠ j) :
    readBuf j (writeBuf k v s) = readBuf j s := by
  have hn : k.toNat ≠ j.toNat := fun e => h (BitVec.eq_of_toNat_eq e)
  unfold readBuf writeBuf
  by_cases hk : k.toNat < s.cfg.bufSize <;> simp [hk, Memory.read_write_other hn]

/-- A write keeps BUF in canonical form. -/
theorem writeBuf_wf {k v : Byte} {s : State} (h : Memory.wf bufBlank s.cfg.bufSize s.buf) :
    Memory.wf bufBlank s.cfg.bufSize (writeBuf k v s).buf := by
  unfold writeBuf
  dsimp only
  split
  · next hk => exact Memory.write_wf h hk
  · exact h

/-- BUF is what a read of it depends on. -/
theorem readBuf_congr {s t : State} (hc : s.cfg = t.cfg) (h : s.buf = t.buf) (k : Byte) : readBuf k s = readBuf k t := by
  unfold readBuf; rw [h, hc]

@[simp] theorem readBuf_respond (j : Byte) (k : RespKind) (v : Byte) (s : State) :
    readBuf j (respond k v s) = readBuf j s := rfl

/-! What stands at each register's address (10_state.md R22). -/

@[simp] theorem readRegister_ctrl (s : State) : readRegister s.cfg.registers.ctrl s = some s.ctrl := by
  simp [readRegister]

@[simp] theorem readRegister_rate (s : State) : readRegister s.cfg.registers.rate s = some s.rate := by
  have h := s.cfg.registers.distinct
  simp only [List.nodup_cons, List.mem_cons, not_or] at h
  simp [readRegister, Ne.symm h.1.1]

@[simp] theorem readRegister_status (s : State) : readRegister s.cfg.registers.status s = some s.status := by
  have h := s.cfg.registers.distinct
  simp only [List.nodup_cons, List.mem_cons, not_or] at h
  simp [readRegister, Ne.symm h.1.2.1, Ne.symm h.2.1.1]

@[simp] theorem readRegister_data (s : State) : readRegister s.cfg.registers.data s = some s.data := by
  have h := s.cfg.registers.distinct
  simp only [List.nodup_cons, List.mem_cons, not_or] at h
  simp [readRegister, Ne.symm h.1.2.2.1, Ne.symm h.2.1.2.1, Ne.symm h.2.2.1.1]

@[simp] theorem readRegister_fsmState (s : State) : readRegister s.cfg.registers.fsmState s = some s.fsmState := by
  have h := s.cfg.registers.distinct
  simp only [List.nodup_cons, List.mem_cons, not_or] at h
  simp [readRegister, Ne.symm h.1.2.2.2.1, Ne.symm h.2.1.2.2.1, Ne.symm h.2.2.1.2.1, Ne.symm h.2.2.2.1.1]

/-- Nothing stands at any other address. -/
theorem readRegister_reserved {reg : BitVec 3} {s : State} (h : reg ∉ s.cfg.registers.addrs) :
    readRegister reg s = none := by
  simp only [Config.RegisterMap.addrs, List.mem_cons, List.not_mem_nil, or_false, not_or] at h
  simp [readRegister, h]

/-- Everything the inputs can bring, with the reset input asserted. -/
theorem samplePort_reset {s : State} {pins : List Bool} (h : s.resetPin = true :: pins) :
    samplePort s = .reset { s with resetPin := pins } := by
  simp [samplePort, h]

/-- Everything the inputs can bring, with the reset input not asserted. -/
theorem samplePort_free {s : State} (h : s.resetPin.head? ≠ some true) :
    samplePort s =
      match s.seq.cmd, s.port with
      | some _, _ => .busy { s with resetPin := s.resetPin.tail }
      | none, [] => .idle { s with resetPin := s.resetPin.tail }
      | none, w :: ws => .word w { s with port := ws, resetPin := s.resetPin.tail } := by
  unfold samplePort
  cases hr : s.resetPin with
  | nil => rfl
  | cons b bs =>
    cases b with
    | true => simp [hr] at h
    | false => rfl

/-- The word presented is the one the next step takes. -/
theorem samplePort_presentWord (w : CmdWord) (s : State) :
    ∃ t, samplePort (presentWord w s) = .word w t ∧ t.seq.cmd = none ∧ t.port = s.port := by
  have hc : (presentWord w s).seq.cmd = none := by
    by_cases h : s.seq.cmd = none <;> simp [presentWord, h, Seq.idle]
  have hp : (presentWord w s).resetPin.head? ≠ some true := by
    by_cases h : s.resetPin.head? = some true <;> simp [presentWord, h]
  refine ⟨{ presentWord w s with port := s.port, resetPin := (presentWord w s).resetPin.tail }, ?_, hc, rfl⟩
  rw [samplePort_free hp, hc]
  rfl

end Sys2Proof.Machine
end

