-- ==== Sys2Proof/Laws/PerInstr.lean ====
section
/-! SUPPORT. Laws/PerInstr.lean: facts about every instruction as syntax, one lemma per constructor. -/

namespace Sys2Proof.Laws

/-- The opcode byte of an encoded instruction is its opcode's (30_encoding.md R101, R103). -/
def OpcodeByte.Statement (i : Instr) : Prop := (encode i).extractLsb' 32 8 = i.opcode.code

/-- The reserved bits of an encoded well-formed instruction are 0 (30_encoding.md R102, R104). -/
def ReservedZero.Statement (i : Instr) : Prop :=
  ∀ c : Config.Params, i.wellFormed c = true → encode i &&& i.opcode.format.reserved c = 0#40

/-- The opcode byte stands above any argument. -/
theorem OpcodeByte.of_any (i : Instr) : OpcodeByte.Statement i := BitVec.extractLsb'_append_eq_left

theorem OpcodeByte.init (freq : BitVec 32) : OpcodeByte.Statement (.init freq) := OpcodeByte.of_any _
theorem OpcodeByte.start : OpcodeByte.Statement (.start) := OpcodeByte.of_any _
theorem OpcodeByte.stop : OpcodeByte.Statement (.stop) := OpcodeByte.of_any _
theorem OpcodeByte.txa (sla : BitVec 7) (rw : BitVec 1) : OpcodeByte.Statement (.txa sla rw) := OpcodeByte.of_any _
theorem OpcodeByte.txb (byte : Byte) : OpcodeByte.Statement (.txb byte) := OpcodeByte.of_any _
theorem OpcodeByte.rx (ack : Bool) : OpcodeByte.Statement (.rx ack) := OpcodeByte.of_any _
theorem OpcodeByte.status : OpcodeByte.Statement (.status) := OpcodeByte.of_any _
theorem OpcodeByte.rdByte (addr : Byte) : OpcodeByte.Statement (.rdByte addr) := OpcodeByte.of_any _
theorem OpcodeByte.wrByte (addr : Byte) (data : Byte) : OpcodeByte.Statement (.wrByte addr data) := OpcodeByte.of_any _
theorem OpcodeByte.wrPage (start : Byte) (len : Byte) : OpcodeByte.Statement (.wrPage start len) := OpcodeByte.of_any _
theorem OpcodeByte.seqRd (start : Byte) (len : Byte) : OpcodeByte.Statement (.seqRd start len) := OpcodeByte.of_any _
theorem OpcodeByte.waitWc : OpcodeByte.Statement (.waitWc) := OpcodeByte.of_any _
theorem OpcodeByte.decode (code : Byte) : OpcodeByte.Statement (.decode code) := OpcodeByte.of_any _
theorem OpcodeByte.trace (en : Bool) : OpcodeByte.Statement (.trace en) := OpcodeByte.of_any _
theorem OpcodeByte.regRd (reg : BitVec 3) : OpcodeByte.Statement (.regRd reg) := OpcodeByte.of_any _
theorem OpcodeByte.bufWr (idx : Byte) (val : Byte) : OpcodeByte.Statement (.bufWr idx val) := OpcodeByte.of_any _
theorem OpcodeByte.bufRd (idx : Byte) : OpcodeByte.Statement (.bufRd idx) := OpcodeByte.of_any _

/-- A bit of the word is a bit of the argument, or of the opcode byte above it. -/
theorem getLsbD_encode (i : Instr) (j : Nat) :
    (encode i).getLsbD j = if j < 32 then i.arg.getLsbD j else i.opcode.code.getLsbD (j - 32) := by
  unfold encode
  rw [BitVec.getLsbD_append]

/-- Every field of a format lies outside its reserved bits. -/
theorem ReservedZero.of_any (i : Instr) : ReservedZero.Statement i := by
  intro c hw
  apply BitVec.eq_of_getLsbD_eq
  intro j hj
  cases i with
  | init freq =>
    simp only [Instr.wellFormed, beq_iff_eq] at hw
    have hb : ∀ k, c.freqW ≤ k → freq.getLsbD k = false := by
      intro k hk
      have := congrArg (fun v => v.getLsbD (k - c.freqW)) hw
      simpa [BitVec.getLsbD_ushiftRight, show c.freqW + (k - c.freqW) = k by omega] using this
    by_cases h32 : j < 32
    · by_cases hk : c.freqW ≤ j
      · rw [BitVec.getLsbD_and, getLsbD_encode, if_pos h32]
        simp only [Instr.arg, hb j hk, Bool.false_and, BitVec.getLsbD_zero]
      · simp [Format.reserved, Opcode.format, Instr.opcode, BitVec.getLsbD_shiftLeft, Nat.lt_of_not_le hk]
    · have : (0x00FFFFFFFF#40).getLsbD j = false := by interval_cases j <;> first | omega | rfl
      simp [Format.reserved, Opcode.format, Instr.opcode, this]
  | _ =>
    simp only [BitVec.getLsbD_and, getLsbD_encode, Instr.opcode, Instr.arg, Opcode.format, Format.reserved,
      BitVec.getLsbD_append]
    interval_cases j <;> simp

theorem ReservedZero.init (freq : BitVec 32) : ReservedZero.Statement (.init freq) := ReservedZero.of_any _
theorem ReservedZero.start : ReservedZero.Statement (.start) := ReservedZero.of_any _
theorem ReservedZero.stop : ReservedZero.Statement (.stop) := ReservedZero.of_any _
theorem ReservedZero.txa (sla : BitVec 7) (rw : BitVec 1) : ReservedZero.Statement (.txa sla rw) := ReservedZero.of_any _
theorem ReservedZero.txb (byte : Byte) : ReservedZero.Statement (.txb byte) := ReservedZero.of_any _
theorem ReservedZero.rx (ack : Bool) : ReservedZero.Statement (.rx ack) := ReservedZero.of_any _
theorem ReservedZero.status : ReservedZero.Statement (.status) := ReservedZero.of_any _
theorem ReservedZero.rdByte (addr : Byte) : ReservedZero.Statement (.rdByte addr) := ReservedZero.of_any _
theorem ReservedZero.wrByte (addr : Byte) (data : Byte) : ReservedZero.Statement (.wrByte addr data) := ReservedZero.of_any _
theorem ReservedZero.wrPage (start : Byte) (len : Byte) : ReservedZero.Statement (.wrPage start len) := ReservedZero.of_any _
theorem ReservedZero.seqRd (start : Byte) (len : Byte) : ReservedZero.Statement (.seqRd start len) := ReservedZero.of_any _
theorem ReservedZero.waitWc : ReservedZero.Statement (.waitWc) := ReservedZero.of_any _
theorem ReservedZero.decode (code : Byte) : ReservedZero.Statement (.decode code) := ReservedZero.of_any _
theorem ReservedZero.trace (en : Bool) : ReservedZero.Statement (.trace en) := ReservedZero.of_any _
theorem ReservedZero.regRd (reg : BitVec 3) : ReservedZero.Statement (.regRd reg) := ReservedZero.of_any _
theorem ReservedZero.bufWr (idx : Byte) (val : Byte) : ReservedZero.Statement (.bufWr idx val) := ReservedZero.of_any _
theorem ReservedZero.bufRd (idx : Byte) : ReservedZero.Statement (.bufRd idx) := ReservedZero.of_any _

end Sys2Proof.Laws
end

