-- ==== Sys2Proof/Laws/Sequencer.lean ====
section
/-! SUPPORT. Laws/Sequencer.lean: everything one move of the sequencer can do, the laws of a run of moves, and the three
moves of a primitive taken together. -/

namespace Sys2Proof.Machine

/-- Running to the end: a responded command makes no further move. -/
theorem runMoves_done {s : State} (h : s.seq.cmd = none) (n : Nat) : runMoves n s = .next s := by
  cases n with
  | zero => rfl
  | succ n => simp [runMoves, h]

/-- A move that answers next is the first of the run. -/
theorem runMoves_step {s t : State} {i : Instr} (hc : s.seq.cmd = some i) (h : move s = .next t) (n : Nat) :
    runMoves (n + 1) s = runMoves n t := by
  simp [runMoves, hc, h]

/-- A refusal ends the run. -/
theorem runMoves_refusal {s : State} {i : Instr} {r : Refusal} (hc : s.seq.cmd = some i) (h : move s = .refused r)
    (n : Nat) : runMoves (n + 1) s = .refused r := by
  simp [runMoves, hc, h]

/-- A run is its first moves and then the others. -/
theorem runMoves_add (m n : Nat) (s : State) :
    runMoves (m + n) s =
      match runMoves m s with
      | .next t => runMoves n t
      | .fault r => .fault r
      | .refused r => .refused r := by
  induction m generalizing s with
  | zero => simp [runMoves]
  | succ m ih =>
    rw [Nat.add_right_comm]
    by_cases hc : s.seq.cmd = none
    · simp only [runMoves, hc, if_true]
      rw [runMoves_done hc]
    · simp only [runMoves, hc, if_false]
      cases h : move s with
      | next t => exact ih t
      | fault r => rfl
      | refused r => rfl

/-- More moves change nothing once the command has responded. -/
theorem runMoves_mono {m n : Nat} {s t : State} (h : runMoves m s = .next t) (ht : t.seq.cmd = none) (hmn : m ≤ n) :
    runMoves n s = .next t := by
  obtain ⟨k, rfl⟩ := Nat.exists_eq_add_of_le hmn
  rw [runMoves_add, h]
  exact runMoves_done ht k

/-- More moves change nothing once the command is refused. -/
theorem runMoves_mono_refused {m n : Nat} {s : State} {r : Refusal} (h : runMoves m s = .refused r) (hmn : m ≤ n) :
    runMoves n s = .refused r := by
  obtain ⟨k, rfl⟩ := Nat.exists_eq_add_of_le hmn
  rw [runMoves_add, h]

/-- A relation to the start that every move keeps holds at the end of the run. -/
theorem runMoves_induct {P : State → Prop} (hstep : ∀ s t, P s → move s = .next t → P t) {n : Nat} {s t : State}
    (hs : P s) (h : runMoves n s = .next t) : P t := by
  induction n generalizing s with
  | zero => simp only [runMoves, Host.Outcome.next.injEq] at h; exact h ▸ hs
  | succ n ih =>
    unfold runMoves at h
    split at h
    · simp only [Host.Outcome.next.injEq] at h; exact h ▸ hs
    · cases hm : move s with
      | next u => rw [hm] at h; exact ih (hstep s u hs hm) h
      | fault r => rw [hm] at h; cases h
      | refused r => rw [hm] at h; cases h

/-- Everything a move can do: nothing (no command, or no entry), a launch whose contract holds, a response, the back-edge
of WAIT_WC, the observation of a completion, or the bus engine's turn. -/
theorem move_cases {s t : State} (h : move s = .next t) :
    (s.seq.cmd = none ∧ t = s) ∨
    ∃ i, s.seq.cmd = some i ∧
      (((sequenceOf s.cfg i)[s.seq.pc]? = none ∧ t = s) ∨
       ∃ act, (sequenceOf s.cfg i)[s.seq.pc]? = some act ∧
        ((s.seq.wait = none ∧
            ((∃ p, issue act s = issuePrim p s ∧ contract p s = none ∧ t = launch p s) ∨
             (∃ k v, issue act s = .next (respond k v s) ∧ t = respond k v s) ∨
             (act = .untilAck ∧ statusCode s.cfg s.status ≠ s.cfg.codes.slaWAck ∧ t = { s with seq := { s.seq with pc := 0 } }))) ∨
         (∃ p, s.seq.wait = some p ∧ completionSeen s.cfg.ctrlLayout p s.ctrl = true ∧ t = observe act p s) ∨
         (∃ p, s.seq.wait = some p ∧ completionSeen s.cfg.ctrlLayout p s.ctrl = false ∧ t = busTurn s))) := by
  have hprim : ∀ p, issuePrim p s = .next t → contract p s = none ∧ t = launch p s := by
    intro p hp
    unfold issuePrim at hp
    split at hp
    · cases hp
    · next hk => exact ⟨hk, by simpa using hp.symm⟩
  unfold move at h
  split at h
  · next hc => exact .inl ⟨hc, by simpa using h.symm⟩
  · next i hc =>
    refine .inr ⟨i, hc, ?_⟩
    split at h
    · next ht => exact .inl ⟨ht, by simpa using h.symm⟩
    · next act ht =>
      refine .inr ⟨act, ht, ?_⟩
      split at h
      · next hw =>
        refine .inl ⟨hw, ?_⟩
        cases act with
        | prim p => exact .inl ⟨p, rfl, hprim p h⟩
        | sendBuf len =>
          cases hb : readBuf s.seq.i s with
          | none => simp [issue, hb] at h
          | some v =>
            have he : issue (.sendBuf len) s = issuePrim (.txb v) s := by simp [issue, hb]
            exact .inl ⟨.txb v, he, hprim _ (he ▸ h)⟩
        | recvBuf len => exact .inl ⟨_, rfl, hprim _ h⟩
        | untilAck =>
          simp only [issue] at h
          split at h
          · next hk => exact .inr (.inl ⟨.ok, 0x00#8, by simp [issue, hk], by simpa using h.symm⟩)
          · next hk => exact .inr (.inr ⟨rfl, hk, by simpa using h.symm⟩)
        | respondOk => exact .inr (.inl ⟨_, _, rfl, by simpa [issue] using h.symm⟩)
        | respondResult => exact .inr (.inl ⟨_, _, rfl, by simpa [issue] using h.symm⟩)
      · next p hw =>
        split at h
        · next hs => exact .inr (.inl ⟨p, hw, hs, by simpa using h.symm⟩)
        · next hs => exact .inr (.inr ⟨p, hw, by simpa using hs, by simpa using h.symm⟩)

/-- The environment's answer does not depend on what a launch writes. -/
theorem pollEnv_launch (q p : Prim) (s : State) :
    pollEnv q (launch p s) = ((pollEnv q s).1, launch p (pollEnv q s).2) := by
  unfold pollEnv launch
  cases s.env <;> rfl

/-- A primitive from its launch to the next entry of the table, with outcome `a`. -/
def afterPrim (act : SeqAct) (p : Prim) (a : Answer) (s : State) : State :=
  observe act p (complete p a (launch p (pollEnv p s).2))

/-- The three moves of a primitive whose contract holds and that the environment answers. -/
theorem runMoves_prim {s : State} {i : Instr} {act : SeqAct} {p : Prim} {a : Answer}
    (hc : s.seq.cmd = some i) (hw : s.seq.wait = none) (ht : (sequenceOf s.cfg i)[s.seq.pc]? = some act)
    (hi : issue act s = issuePrim p s) (hk : contract p s = none) (ha : (pollEnv p s).1 = some a) (n : Nat) :
    runMoves (n + 3) s = runMoves n (afterPrim act p a s) := by
  have h1 : move s = .next (launch p s) := by
    unfold move
    simp only [hc, ht, hw, hi, issuePrim, hk]
  have h2 : move (launch p s) = .next (complete p a (launch p (pollEnv p s).2)) := by
    unfold move
    simp only [launch_seq, launch_cfg, launch_ctrl, hc, ht, completionSeen_launch, busTurn, launch_inflight,
      pollEnv_launch, ha, Bool.false_eq_true, if_false]
  have h3 : move (complete p a (launch p (pollEnv p s).2)) = .next (afterPrim act p a s) := by
    unfold move afterPrim
    simp only [complete_seq, launch_seq, complete_cfg, launch_cfg, complete_ctrl, pollEnv_seq, pollEnv_cfg, hc, ht,
      completionSeen_complete, if_true]
  rw [show n + 3 = (n + 2) + 1 from rfl, runMoves_step hc h1 (n + 2),
    runMoves_step (s := launch p s) (by simpa using hc) h2 (n + 1),
    runMoves_step (s := complete p a (launch p (pollEnv p s).2)) (by simpa using hc) h3 n]

/-- A response entry ends the run. -/
theorem runMoves_respond {s : State} {i : Instr} {act : SeqAct} {k : RespKind} {v : Byte}
    (hc : s.seq.cmd = some i) (hw : s.seq.wait = none) (ht : (sequenceOf s.cfg i)[s.seq.pc]? = some act)
    (hi : issue act s = .next (respond k v s)) (n : Nat) : runMoves (n + 1) s = .next (respond k v s) := by
  have h1 : move s = .next (respond k v s) := by
    unfold move
    simp only [hc, ht, hw, hi]
  rw [runMoves_step hc h1 n]
  exact runMoves_done rfl n

/-- A primitive whose contract is broken ends the run. -/
theorem runMoves_contract {s : State} {i : Instr} {act : SeqAct} {p : Prim} {r : Refusal}
    (hc : s.seq.cmd = some i) (hw : s.seq.wait = none) (ht : (sequenceOf s.cfg i)[s.seq.pc]? = some act)
    (hi : issue act s = issuePrim p s) (hk : contract p s = some r) (n : Nat) : runMoves (n + 1) s = .refused r := by
  have h1 : move s = .refused r := by
    unfold move
    simp only [hc, ht, hw, hi, issuePrim, hk]
  exact runMoves_refusal hc h1 n

end Sys2Proof.Machine
end

