-- ==== Sys2Proof/Laws/Primitive.lean ====
section
/-! SUPPORT. Laws/Primitive.lean: the environment's answers, and each field of the state after a primitive. -/

namespace Sys2Proof.Machine

/-- An outcome that arrives is one R72 gives the primitive. -/
theorem pollEnv_fits {p : Prim} {s : State} {a : Answer} (h : (pollEnv p s).1 = some a) : fits p a = true := by
  unfold pollEnv at h
  split at h
  · next now again _ =>
    unfold scriptAnswer at h
    split at h
    · split at h <;> simp_all
    · split at h
      · split at h <;> simp_all
      · simp at h
  · next d _ =>
    simp only [Option.some.injEq] at h
    subst h
    cases p with
    | start => rfl
    | stop =>
      simp only [Device.answer, Device.onStop]
      split <;> rfl
    | txa b =>
      simp only [Device.answer, Device.onTx, Device.onControl]
      split <;> (try split) <;> (try split) <;> (try split) <;> rfl
    | txb b =>
      simp only [Device.answer, Device.onTx, Device.onControl]
      split <;> (try split) <;> (try split) <;> (try split) <;> rfl
    | rx ack =>
      simp only [Device.answer, Device.onRx]
      split <;> rfl
  · cases hf : Config.freeAnswer s.draws p with
    | none => simp [hf] at h
    | some b => simp [hf, Option.filter] at h; exact h.2 ▸ h.1

/-- A scripted environment gives its next answer, if it fits. -/
theorem pollEnv_scripted {p : Prim} {s : State} {a : Answer} {now again : List Answer}
    (he : s.env = .scripted (a :: now) again) (hf : fits p a = true) :
    pollEnv p s = (some a, { s with env := .scripted now again }) := by
  simp [pollEnv, he, scriptAnswer, hf]

/-- The device gives its own answer. -/
theorem pollEnv_device {p : Prim} {s : State} {d : Device} (he : s.env = .device d) :
    pollEnv p s =
      (some (d.answer s.cfg (Config.freeByte s.draws) (Config.freeWriteTime s.draws) p).1,
       { s with
         env := .device (d.answer s.cfg (Config.freeByte s.draws) (Config.freeWriteTime s.draws) p).2
         draws := s.draws + 1 }) := by
  simp [pollEnv, he]

variable (act : SeqAct) (p : Prim) (a : Answer) (s : State)

@[simp] theorem afterPrim_cfg : (afterPrim act p a s).cfg = s.cfg := by simp [afterPrim]
@[simp] theorem afterPrim_ctrl :
    (afterPrim act p a s).ctrl =
      ctrlComplete s.cfg.ctrlLayout p (ctrlByte s.cfg.ctrlLayout (launchFields p)) := by
  simp [afterPrim, ctrlWrite_launchWord]
@[simp] theorem afterPrim_rate : (afterPrim act p a s).rate = s.rate := by simp [afterPrim]
@[simp] theorem afterPrim_status :
    (afterPrim act p a s).status =
      withCode s.cfg s.status (outcomeCode s.cfg s.phase (statusCode s.cfg s.status) p a) := by simp [afterPrim]
@[simp] theorem afterPrim_data :
    (afterPrim act p a s).data =
      outcomeData (launchData p s.data) (Config.freeByte (pollEnv p s).2.draws) p a := by simp [afterPrim]
@[simp] theorem afterPrim_phase : (afterPrim act p a s).phase = outcomePhase s.cfg s.phase p a := by simp [afterPrim]
@[simp] theorem afterPrim_inflight : (afterPrim act p a s).inflight = none := by simp [afterPrim]
@[simp] theorem afterPrim_initialized : (afterPrim act p a s).initialized = s.initialized := by simp [afterPrim]
@[simp] theorem afterPrim_traceEn : (afterPrim act p a s).traceEn = s.traceEn := by simp [afterPrim]
@[simp] theorem afterPrim_resp : (afterPrim act p a s).resp = s.resp := by simp [afterPrim]
@[simp] theorem afterPrim_busHistory :
    (afterPrim act p a s).busHistory = s.busHistory ++ [outcomeEvent s.phase p a] := by simp [afterPrim]
@[simp] theorem afterPrim_env : (afterPrim act p a s).env = (pollEnv p s).2.env := by simp [afterPrim]
@[simp] theorem afterPrim_draws :
    (afterPrim act p a s).draws =
      if drawsData p a then (pollEnv p s).2.draws + 1 else (pollEnv p s).2.draws := by simp [afterPrim]
@[simp] theorem afterPrim_port : (afterPrim act p a s).port = s.port := by simp [afterPrim]
@[simp] theorem afterPrim_pace : (afterPrim act p a s).pace = s.pace := by simp [afterPrim]
@[simp] theorem afterPrim_resetPin : (afterPrim act p a s).resetPin = s.resetPin := by simp [afterPrim]


/-- The trace event of a primitive, if tracing is enabled. -/
@[simp] theorem afterPrim_diagHistory :
    (afterPrim act p a s).diagHistory =
      s.diagHistory ++ traceOf s [outcomeCode s.cfg s.phase (statusCode s.cfg s.status) p a] := by
  have h : (afterPrim act p a s).diagHistory =
      (emitTrace (latchResult p { complete p a (launch p (pollEnv p s).2) with
        seq := { (complete p a (launch p (pollEnv p s).2)).seq with wait := none } })).diagHistory := by
    simp [afterPrim, observe]
  rw [h]
  unfold emitTrace traceOf
  split <;> simp_all

/-- RESULT is the byte received after RX, and unchanged after any other primitive. -/
@[simp] theorem afterPrim_result :
    (afterPrim act p a s).result =
      match p with
      | .rx _ => outcomeData (launchData p s.data) (Config.freeByte (pollEnv p s).2.draws) p a
      | _ => s.result := by
  cases p <;> simp [afterPrim, observe, latchResult]

/-- An entry that is a primitive leaves BUF alone. -/
@[simp] theorem afterPrim_prim_buf (q : Prim) : (afterPrim (.prim q) p a s).buf = s.buf := by
  simp [afterPrim, observe, finishEntry]

/-- An entry that is a primitive advances `seq.pc`. -/
@[simp] theorem afterPrim_prim_seq (q : Prim) :
    (afterPrim (.prim q) p a s).seq = { s.seq with pc := s.seq.pc + 1, wait := none } := by
  simp [afterPrim, observe, finishEntry]

/-! The outcomes of addressed and data bytes by the acknowledge bit received. -/

section Acknowledged
variable (b : Byte) (k : AckBit) (c : Config.Params) (ph : Phase) (old drawn : Byte)

@[simp] theorem fits_txa_answerOf : fits (.txa b) (answerOf k) = true := by cases k <;> rfl
@[simp] theorem fits_txb_answerOf : fits (.txb b) (answerOf k) = true := by cases k <;> rfl
@[simp] theorem drawsData_answerOf (p : Prim) : drawsData p (answerOf k) = false := by cases p <;> cases k <;> rfl
@[simp] theorem outcomeData_answerOf (p : Prim) : outcomeData old drawn p (answerOf k) = old := by
  cases p <;> cases k <;> rfl
@[simp] theorem outcomeEvent_txa : outcomeEvent ph (.txa b) (answerOf k) = .tx b k := by cases k <;> rfl
@[simp] theorem outcomeEvent_txb : outcomeEvent ph (.txb b) (answerOf k) = .tx b k := by cases k <;> rfl
@[simp] theorem outcomePhase_txa :
    outcomePhase c ph (.txa b) (answerOf k) = if directionOf b = c.dirWrite then .mt else .mr := by
  cases k <;> rfl
@[simp] theorem outcomePhase_txb : outcomePhase c ph (.txb b) (answerOf k) = ph := by cases k <;> rfl
@[simp] theorem outcomeCode_txa :
    outcomeCode c ph old (.txa b) (answerOf k) =
      if directionOf b = c.dirWrite then slaWCode c k else slaRCode c k := by
  cases k <;> rfl
@[simp] theorem outcomeCode_txb : outcomeCode c ph old (.txb b) (answerOf k) = dataWCode c k := by cases k <;> rfl
@[simp] theorem outcomeEvent_granted : outcomeEvent ph .start .granted = startEvent ph := rfl
@[simp] theorem outcomeCode_granted : outcomeCode c ph old .start .granted = startCode c ph := rfl
@[simp] theorem outcomePhase_granted : outcomePhase c ph .start .granted = .started := rfl
@[simp] theorem outcomeData_granted : outcomeData old drawn .start .granted = old := rfl
@[simp] theorem outcomeEvent_byte (ack : Bool) : outcomeEvent ph (.rx ack) (.byte b) = .rx b (policyBit ack) := by
  cases ack <;> rfl
@[simp] theorem outcomeCode_byte (ack : Bool) :
    outcomeCode c ph old (.rx ack) (.byte b) = dataRCode c (policyBit ack) := by cases ack <;> rfl
@[simp] theorem outcomePhase_byte (ack : Bool) : outcomePhase c ph (.rx ack) (.byte b) = ph := rfl
@[simp] theorem outcomeData_byte (ack : Bool) : outcomeData old drawn (.rx ack) (.byte b) = b := rfl
@[simp] theorem outcomeEvent_done : outcomeEvent ph .stop .done = .p := rfl
@[simp] theorem outcomeCode_done : outcomeCode c ph old .stop .done = stopStatus c old := rfl
@[simp] theorem outcomePhase_done : outcomePhase c ph .stop .done = .idle := rfl
@[simp] theorem outcomeData_done : outcomeData old drawn .stop .done = old := rfl
@[simp] theorem drawsData_granted : drawsData .start .granted = false := rfl
@[simp] theorem drawsData_byte (ack : Bool) : drawsData (.rx ack) (.byte b) = false := rfl
@[simp] theorem drawsData_done : drawsData .stop .done = false := rfl

end Acknowledged

/-! CTRL after each completed primitive (10_state.md R24, R26, R27). -/

section Control
variable (l : Config.CtrlLayout) (b : Byte) (ack : Bool)

@[simp] theorem ctrlComplete_start :
    ctrlComplete l .start (ctrlByte l (launchFields .start)) = ctrlByte l [.int, .sta, .en] := rfl
@[simp] theorem ctrlComplete_stop : ctrlComplete l .stop (ctrlByte l (launchFields .stop)) = ctrlByte l [.en] :=
  ctrlClearSto_stop l
@[simp] theorem ctrlComplete_txa :
    ctrlComplete l (.txa b) (ctrlByte l (launchFields (.txa b))) = ctrlByte l [.int, .en] := rfl
@[simp] theorem ctrlComplete_txb :
    ctrlComplete l (.txb b) (ctrlByte l (launchFields (.txb b))) = ctrlByte l [.int, .en] := rfl
@[simp] theorem ctrlComplete_rx :
    ctrlComplete l (.rx ack) (ctrlByte l (launchFields (.rx ack))) =
      ctrlByte l (if ack then [.int, .ea, .en] else [.int, .en]) := by
  cases ack <;> rfl

end Control

/-- The trace events depend on the enable bit and the codes only. -/
theorem traceOf_congr {s t : State} (h1 : t.traceEn = s.traceEn) (h2 : t.cfg = s.cfg) (l : List Byte) :
    traceOf t l = traceOf s l := by
  unfold traceOf; rw [h1, h2]

@[simp] theorem traceOf_afterPrim (l : List Byte) : traceOf (afterPrim act p a s) l = traceOf s l :=
  traceOf_congr (by simp) (by simp) l

@[simp] theorem traceOf_accept (i : Instr) (l : List Byte) : traceOf (accept i s) l = traceOf s l := rfl

theorem traceOf_append (l m : List Byte) : traceOf s (l ++ m) = traceOf s l ++ traceOf s m := by
  unfold traceOf; split <;> simp

theorem traceOf_cons (c : Byte) (l : List Byte) : traceOf s (c :: l) = traceOf s [c] ++ traceOf s l :=
  traceOf_append s [c] l

/-- The environment's answer does not depend on an acceptance. -/
@[simp] theorem pollEnv_accept (i : Instr) : pollEnv p (accept i s) = ((pollEnv p s).1, accept i (pollEnv p s).2) := by
  unfold pollEnv accept; cases s.env <;> rfl

variable {act p a s} in
/-- A table entry that launches a primitive answered by a script: the three moves, and what is left of the script. -/
theorem runMoves_act_scripted {i : Instr} {now again : List Answer} (hc : s.seq.cmd = some i) (hw : s.seq.wait = none)
    (ht : (sequenceOf s.cfg i)[s.seq.pc]? = some act) (hi : issue act s = issuePrim p s) (hk : contract p s = none)
    (he : s.env = .scripted (a :: now) again) (hf : fits p a = true) (n : Nat) :
    runMoves (n + 3) s = runMoves n (afterPrim act p a s) ∧
      (afterPrim act p a s).env = .scripted now again ∧
      (afterPrim act p a s).draws = if drawsData p a then s.draws + 1 else s.draws := by
  have hp := pollEnv_scripted he hf
  exact ⟨runMoves_prim hc hw ht hi hk (by rw [hp]) n, by simp [hp], by simp [hp]⟩

variable {p a s} in
/-- A primitive of the table answered by a script. -/
theorem runMoves_prim_scripted {i : Instr} {now again : List Answer} (hc : s.seq.cmd = some i) (hw : s.seq.wait = none)
    (ht : (sequenceOf s.cfg i)[s.seq.pc]? = some (.prim p)) (hk : contract p s = none)
    (he : s.env = .scripted (a :: now) again) (hf : fits p a = true) (n : Nat) :
    runMoves (n + 3) s = runMoves n (afterPrim (.prim p) p a s) ∧
      (afterPrim (.prim p) p a s).env = .scripted now again ∧
      (afterPrim (.prim p) p a s).draws = if drawsData p a then s.draws + 1 else s.draws :=
  runMoves_act_scripted hc hw ht rfl hk he hf n

end Sys2Proof.Machine
end

