-- ==== Sys2Proof/Laws/Run.lean ====
section
/-! SUPPORT. Laws/Run.lean: runs of the sequencer by table entry: the loops of WR_PAGE and SEQ_RD, the branch of WAIT_WC, a
command of one primitive, the shape of the tables, and what the environment keeps. -/

namespace Sys2Proof.Machine

/-- A bus command is a run of moves from its acceptance. -/
theorem runCommand_eq (i : Instr) (s : State) : runCommand i s = runMoves (s.pace + 1) (accept i s) := rfl

section Loops
variable (len : Byte) (p : Prim) (a : Answer) (s : State)

/-- A byte of WR_PAGE sent: the next byte, or the next entry (41_eeprom_client_transactions.md R183, R187). -/
theorem afterPrim_sendBuf_seq :
    (afterPrim (.sendBuf len) p a s).seq =
      { s.seq with
        i := s.seq.i + 1#8
        pc := if loopGoesOn (s.seq.i + 1#8) len then s.seq.pc else s.seq.pc + 1
        wait := none } := by
  simp [afterPrim, observe, finishEntry, countLoop]

/-- WR_PAGE leaves BUF alone. -/
@[simp] theorem afterPrim_sendBuf_buf : (afterPrim (.sendBuf len) p a s).buf = s.buf := by
  simp [afterPrim, observe, finishEntry, countLoop]

/-- A byte of SEQ_RD received: the next byte, or the next entry (R185, R187). -/
theorem afterPrim_recvBuf_seq :
    (afterPrim (.recvBuf len) p a s).seq =
      { s.seq with
        i := s.seq.i + 1#8
        pc := if loopGoesOn (s.seq.i + 1#8) len then s.seq.pc else s.seq.pc + 1
        wait := none } := by
  simp [afterPrim, observe, finishEntry, countLoop]

/-- SEQ_RD stores the byte received at `seq.i` (R185). -/
theorem afterPrim_recvBuf_buf (ack : Bool) :
    (afterPrim (.recvBuf len) (.rx ack) a s).buf =
      (writeBuf s.seq.i (afterPrim (.recvBuf len) (.rx ack) a s).result s).buf := by
  simp [afterPrim, observe, finishEntry, countLoop, latchResult, writeBuf]

end Loops

/-- WAIT_WC's branch: it responds when the code is `ST_SLA_W_ACK`, and else goes back to entry 0 (R186). -/
theorem move_untilAck {s : State} {j : Byte} (h : s.seq = ⟨some .waitWc, 2, j, none⟩) :
    move s =
      if statusCode s.cfg s.status = s.cfg.codes.slaWAck then .next (respond .ok 0x00#8 s)
      else .next { s with seq := { s.seq with pc := 0 } } := by
  unfold move
  simp [h, sequenceOf, waitWcSeq, issue]

/-- WAIT_WC ends. -/
theorem runMoves_untilAck_end {s : State} {j : Byte} (h : s.seq = ⟨some .waitWc, 2, j, none⟩)
    (hk : statusCode s.cfg s.status = s.cfg.codes.slaWAck) (n : Nat) :
    runMoves (n + 1) s = .next (respond .ok 0x00#8 s) := by
  rw [runMoves_step (i := .waitWc) (by simp [h]) (by rw [move_untilAck h, if_pos hk]) n]
  exact runMoves_done rfl n

/-- WAIT_WC tries again. -/
theorem runMoves_untilAck_back {s : State} {j : Byte} (h : s.seq = ⟨some .waitWc, 2, j, none⟩)
    (hk : statusCode s.cfg s.status ≠ s.cfg.codes.slaWAck) (n : Nat) :
    runMoves (n + 1) s = runMoves n { s with seq := { s.seq with pc := 0 } } := by
  rw [runMoves_step (i := .waitWc) (by simp [h]) (by rw [move_untilAck h, if_neg hk]) n]

/-- A command of one primitive: launch, completion, observation, response. -/
theorem runCommand_single {s : State} {i : Instr} {p : Prim} {a : Answer} {act : SeqAct} {k : RespKind} {v : State → Byte}
    (hs : sequenceOf s.cfg i = [.prim p, act]) (hk : contract p s = none) (ha : (pollEnv p s).1 = some a)
    (h3 : 3 ≤ s.pace) (hact : ∀ u, issue act u = .next (respond k (v u) u)) :
    runCommand i s =
      .next (respond k (v (afterPrim (.prim p) p a (accept i s))) (afterPrim (.prim p) p a (accept i s))) := by
  rw [runCommand_eq]
  obtain ⟨m, hm⟩ := Nat.exists_eq_add_of_le h3
  have hpoll : (pollEnv p (accept i s)).1 = some a := by simpa using ha
  have hc : contract p (accept i s) = none := by rw [← hk]; rfl
  rw [show s.pace + 1 = (m + 1) + 3 by omega,
    runMoves_prim (i := i) (act := .prim p) (p := p) (a := a) (by simp) (by simp) (by simp [hs]) rfl hc hpoll,
    runMoves_respond (i := i) (act := act) (k := k) (v := v (afterPrim (.prim p) p a (accept i s))) (by simp) (by simp)
      (by simp [hs]) (hact _)]

/-- A command whose first primitive breaks its contract is refused. -/
theorem runCommand_contract {s : State} {i : Instr} {p : Prim} {act : SeqAct} {acts : List SeqAct} {r : Refusal}
    (hs : sequenceOf s.cfg i = act :: acts) (hi : ∀ u, issue act u = issuePrim p u) (hk : contract p s = some r) :
    runCommand i s = .refused r := by
  rw [runCommand_eq]
  exact runMoves_contract (i := i) (act := act) (p := p) (by simp) (by simp) (by simp [hs]) (hi _)
    (by rw [← hk]; rfl) _

/-- After an entry that launches a primitive there is another entry: every table ends in a response or a branch. -/
theorem sequenceOf_next {c : Config.Params} {i : Instr} {n : Nat} {act : SeqAct}
    (h : (sequenceOf c i)[n]? = some act)
    (ha : (∃ p, act = .prim p) ∨ (∃ l, act = .sendBuf l) ∨ ∃ l, act = .recvBuf l) :
    n + 1 < (sequenceOf c i).length := by
  have hn := (List.getElem?_eq_some_iff.mp h).1
  rcases Nat.lt_or_ge (n + 1) (sequenceOf c i).length with h1 | h1
  · exact h1
  · exfalso
    obtain rfl : n = (sequenceOf c i).length - 1 := by omega
    rw [← List.getLast?_eq_getElem?] at h
    cases i <;>
      simp [sequenceOf, startSeq, stopSeq, txaSeq, txbSeq, rxSeq, rdByteSeq, wrByteSeq, wrPageSeq, seqRdSeq, waitWcSeq,
        openWrite, turnRead] at h <;> subst h <;> simp at ha

/-- A poll keeps the device's `mem` in canonical form and its offsets below `EEPROM_SIZE`. -/
theorem pollEnv_wf {s : State} {p : Prim}
    (h : ∀ d, s.env = .device d → Memory.wf eepromBlank s.cfg.eepromSize d.mem ∧ d.offsetsFit s.cfg) :
    ∀ d, (pollEnv p s).2.env = .device d → Memory.wf eepromBlank s.cfg.eepromSize d.mem ∧ d.offsetsFit s.cfg := by
  intro d hd
  unfold pollEnv at hd
  split at hd
  · simp only [scriptAnswer] at hd
    split at hd <;> (try split at hd) <;> (try split at hd) <;> cases hd
  · next d0 he =>
    simp only [Env.device.injEq] at hd
    subst hd
    exact ⟨Device.answer_wf (h d0 he).1 (h d0 he).2, Device.answer_offsetsFit (h d0 he).2⟩
  · next he => rw [he] at hd; cases hd

/-- A poll of the device leaves the device. -/
theorem pollEnv_referenceDevice {s : State} {p : Prim} (h : s.env.referenceDevice) :
    (pollEnv p s).2.env.referenceDevice := by
  obtain ⟨d, hd⟩ := h
  rw [pollEnv_device hd]
  exact ⟨_, rfl⟩

/-- The flag STO is set by the launch of STOP only. -/
theorem ctrlSto_launch {l : Config.CtrlLayout} {old : Byte} {p : Prim}
    (h : ctrlField l .sto (ctrlWrite l old (launchWord l p)) = true) : p = .stop := by
  rw [ctrlWrite_launchWord] at h
  cases p with
  | rx ack => cases ack <;> simp [launchFields] at h
  | _ => simp [launchFields] at h ⊢

/-- A launch leaves the reserved bits of CTRL 0 (10_state.md R24). -/
theorem ctrlReserved_launch (l : Config.CtrlLayout) (old : Byte) (p : Prim) :
    ctrlWrite l old (launchWord l p) &&& ~~~(ctrlUsed l) = 0x00#8 := by
  rw [ctrlWrite_launchWord]
  exact ctrlReserved_ctrlByte l _

end Sys2Proof.Machine
end

