-- ==== Sys2Proof/Laws/Step.lean ====
section
/-! SUPPORT. Laws/Step.lean: everything exec and step can do when they answer a next state, said once, and what no move
looks at: the pace. -/

namespace Sys2Proof.Machine

/-- Everything an instruction can do: run its table, answer an operand it does not take, program the divisor, read something
and respond it, write `trace_en`, write one byte of BUF. -/
theorem exec_cases {s t : State} {i : Instr} (h : exec i s = .next t) :
    (sequenceOf s.cfg i ≠ [] ∧ runCommand i s = .next t) ∨
    t = raiseIllegal .illegalField s ∨
    (∃ f d, i = .init f ∧ s.initialized = false ∧ divisor s.cfg f = some d ∧
      t = respond .ok 0x00#8 { s with rate := d, initialized := true }) ∨
    (∃ k v, t = respond k v s) ∨
    (∃ en, i = .trace en ∧ t = respond .ok 0x00#8 { s with traceEn := en }) ∨
    ∃ k v, i = .bufWr k v ∧ t = respond .ok 0x00#8 (writeBuf k v s) := by
  have hn : ∀ {u : State}, (Host.Outcome.next u : Host.Outcome State Fault Refusal) = .next t → t = u := by
    intro u hu; injection hu with hu; exact hu.symm
  cases i with
  | init f =>
    change execInit f s = _ at h
    unfold execInit at h
    split at h
    · cases h
    · next hi =>
      split at h
      · cases h
      · next d hd => exact .inr (.inr (.inl ⟨f, d, rfl, by simpa using hi, hd, hn h⟩))
  | status => exact .inr (.inr (.inr (.inl ⟨_, _, hn h⟩)))
  | decode c => exact .inr (.inr (.inr (.inl ⟨_, _, hn h⟩)))
  | trace en => exact .inr (.inr (.inr (.inr (.inl ⟨en, rfl, hn h⟩))))
  | regRd r =>
    change execRegRd r s = _ at h
    unfold execRegRd at h
    split at h
    · exact .inr (.inr (.inr (.inl ⟨_, _, hn h⟩)))
    · exact .inr (.inl (hn h))
  | bufWr k v => exact .inr (.inr (.inr (.inr (.inr ⟨k, v, rfl, hn h⟩))))
  | bufRd k =>
    change execBufRd k s = _ at h
    unfold execBufRd at h
    split at h
    · exact .inr (.inr (.inr (.inl ⟨_, _, hn h⟩)))
    · cases h
  | wrPage a l =>
    change execWrPage a l s = _ at h
    unfold execWrPage at h
    split at h
    · exact .inr (.inl (hn h))
    · exact .inl ⟨by simp [sequenceOf, wrPageSeq, openWrite], h⟩
  | seqRd a l =>
    change execSeqRd a l s = _ at h
    unfold execSeqRd at h
    split at h
    · exact .inr (.inl (hn h))
    · exact .inl ⟨by simp [sequenceOf, seqRdSeq, openWrite], h⟩
  | start => exact .inl ⟨by simp [sequenceOf, startSeq], h⟩
  | stop => exact .inl ⟨by simp [sequenceOf, stopSeq], h⟩
  | txa _ _ => exact .inl ⟨by simp [sequenceOf, txaSeq], h⟩
  | txb _ => exact .inl ⟨by simp [sequenceOf, txbSeq], h⟩
  | rx _ => exact .inl ⟨by simp [sequenceOf, rxSeq], h⟩
  | rdByte _ => exact .inl ⟨by simp [sequenceOf, rdByteSeq, openWrite], h⟩
  | wrByte _ _ => exact .inl ⟨by simp [sequenceOf, wrByteSeq, openWrite], h⟩
  | waitWc => exact .inl ⟨by simp [sequenceOf, waitWcSeq], h⟩

/-- Everything a step can do: reset the block, go on with its command, idle, execute the word on the port or reject it. -/
theorem step_cases {s t : State} (h : step s = .next t) :
    (∃ pins, s.resetPin = true :: pins ∧ t = resetEvent { s with resetPin := pins }) ∨
    (s.resetPin.head? ≠ some true ∧
      ((s.seq.cmd ≠ none ∧ resume { s with resetPin := s.resetPin.tail } = .next t) ∨
       (s.seq.cmd = none ∧ s.port = [] ∧ t = { s with resetPin := s.resetPin.tail }) ∨
       ∃ w ws, s.seq.cmd = none ∧ s.port = w :: ws ∧
         ((∃ i, decode s.cfg w = .ok i ∧ exec i { s with port := ws, resetPin := s.resetPin.tail } = .next t) ∨
          ∃ c, decode s.cfg w = .error c ∧ t = raiseIllegal c { s with port := ws, resetPin := s.resetPin.tail }))) := by
  by_cases hr : s.resetPin.head? = some true
  · obtain ⟨pins, hp⟩ : ∃ pins, s.resetPin = true :: pins := by
      cases hp : s.resetPin with
      | nil => simp [hp] at hr
      | cons b bs => simp only [hp, List.head?_cons, Option.some.injEq] at hr; exact ⟨bs, by rw [hr]⟩
    unfold step at h
    rw [samplePort_reset hp] at h
    injection h with h
    exact .inl ⟨pins, hp, h.symm⟩
  · refine .inr ⟨hr, ?_⟩
    unfold step at h
    rw [samplePort_free hr] at h
    cases hc : s.seq.cmd with
    | some i => simp only [hc] at h; exact .inl ⟨by simp, h⟩
    | none =>
      cases hp : s.port with
      | nil => simp only [hc, hp] at h; injection h with h; exact .inr (.inl ⟨rfl, rfl, h.symm⟩)
      | cons w ws =>
        simp only [hc, hp] at h
        refine .inr (.inr ⟨w, ws, rfl, rfl, ?_⟩)
        cases hd : decode s.cfg w with
        | ok i => simp only [hd] at h; exact .inl ⟨i, rfl, h⟩
        | error c => simp only [hd] at h; injection h with h; exact .inr ⟨c, rfl, h.symm⟩

/-- An outcome with its state changed. -/
def mapNext (f : State → State) : Host.Outcome State Fault Refusal → Host.Outcome State Fault Refusal
  | .next t => .next (f t)
  | .fault r => .fault r
  | .refused r => .refused r

/-- The state at another pace. -/
def State.withPace (k : Nat) (s : State) : State := { s with pace := k }

/-- A move does not look at the pace. -/
theorem move_withPace (k : Nat) (s : State) : move (s.withPace k) = mapNext (State.withPace k) (move s) := by
  have hp : ∀ p, issuePrim p (s.withPace k) = mapNext (State.withPace k) (issuePrim p s) := by
    intro p
    unfold issuePrim
    rw [show contract p (s.withPace k) = contract p s from rfl]
    cases contract p s <;> rfl
  have hi : ∀ act, issue act (s.withPace k) = mapNext (State.withPace k) (issue act s) := by
    intro act
    cases act with
    | prim p => exact hp p
    | recvBuf len => exact hp _
    | respondOk => rfl
    | respondResult => rfl
    | sendBuf len =>
      simp only [issue]
      rw [show readBuf (s.withPace k).seq.i (s.withPace k) = readBuf s.seq.i s from rfl]
      cases readBuf s.seq.i s with
      | none => rfl
      | some v => exact hp _
    | untilAck =>
      simp only [issue]
      rw [show statusCode (s.withPace k).cfg (s.withPace k).status = statusCode s.cfg s.status from rfl,
        show (s.withPace k).cfg.codes.slaWAck = s.cfg.codes.slaWAck from rfl]
      split <;> rfl
  have ho : ∀ act p, observe act p (s.withPace k) = (observe act p s).withPace k := by
    intro act p
    have he : ∀ u : State, emitTrace (u.withPace k) = (emitTrace u).withPace k := by
      intro u
      unfold emitTrace
      rw [show (u.withPace k).traceEn = u.traceEn from rfl]
      split <;> rfl
    have hl : ∀ u : State, latchResult p (u.withPace k) = (latchResult p u).withPace k := by intro u; cases p <;> rfl
    have hf : ∀ u : State, finishEntry act (u.withPace k) = (finishEntry act u).withPace k := by intro u; cases act <;> rfl
    unfold observe
    rw [← hf, ← he, ← hl]
    rfl
  have hpoll : ∀ p, pollEnv p (s.withPace k) = ((pollEnv p s).1, (pollEnv p s).2.withPace k) := by
    intro p
    unfold pollEnv State.withPace
    cases s.env <;> rfl
  have hb : busTurn (s.withPace k) = (busTurn s).withPace k := by
    unfold busTurn
    rw [show (s.withPace k).inflight = s.inflight from rfl]
    cases s.inflight with
    | none => rfl
    | some p =>
      simp only [hpoll]
      cases (pollEnv p s).1 <;> rfl
  unfold move
  rw [show (s.withPace k).seq = s.seq from rfl, show (s.withPace k).cfg = s.cfg from rfl,
    show (s.withPace k).ctrl = s.ctrl from rfl]
  split
  · rfl
  · split
    · rfl
    · split
      · exact hi _
      · split
        · simp only [ho]; rfl
        · simp only [hb]; rfl

/-- A run of moves does not look at the pace. -/
theorem runMoves_withPace (k n : Nat) (s : State) :
    runMoves n (s.withPace k) = mapNext (State.withPace k) (runMoves n s) := by
  induction n generalizing s with
  | zero => rfl
  | succ n ih =>
    unfold runMoves
    rw [show (s.withPace k).seq = s.seq from rfl, move_withPace]
    split
    · rfl
    · cases move s with
      | next t => exact ih t
      | fault r => rfl
      | refused r => rfl

end Sys2Proof.Machine
end

