-- ==== Sys2Proof/Tests/Slice0.lean ====
section
/-! SUPPORT. Tests/Slice0.lean: the well-formedness smoke test, words written out from 30_encoding.md, single steps against
the derived vectors of 95_test_vectors.md (named in each comment), and for every statement with hypotheses a concrete
state and operands that meet them. -/

namespace Sys2Proof.Tests

open Sys2Proof Sys2Proof.Machine

/-! ### Helpers -/

/-- A block just initialized, with a scripted environment, at a pace at which a step makes a whole command. -/
def scripted (now : List Answer) : State :=
  { State.reset with initialized := true, env := .scripted now [], pace := commandPace }

/-- A block just initialized, with the reference device, at the same pace. -/
def withDevice (d : Device) : State := { State.reset with initialized := true, env := .device d, pace := commandPace }

/-- The state at the least pace that is long enough. -/
def short (k : Nat) (s : State) : State := { s with pace := k }

/-- The state answered, if the answer is one. -/
def nextOf : Host.Outcome State Fault Refusal → Option State
  | .next t => some t
  | _ => none

/-- The refusal answered, if the answer is one. -/
def refusalOf : Host.Outcome State Fault Refusal → Option Refusal
  | .refused r => some r
  | _ => none

/-- The response after a command. -/
def respOf (i : Instr) (s : State) : Option RespWord := (nextOf (exec i s)).bind State.resp

/-- CTRL, DATA, the raw STATUS and the phase after a command. -/
def regsOf (i : Instr) (s : State) : Option (Byte × Byte × Byte × Phase) :=
  (nextOf (exec i s)).map (fun t => (t.ctrl, t.data, t.status, t.phase))

/-- The bus history after a command. -/
def eventsOf (i : Instr) (s : State) : Option (List BusEvent) := (nextOf (exec i s)).map State.busHistory

/-- The device after a command. -/
def deviceOf (i : Instr) (s : State) : Option Device :=
  (nextOf (exec i s)).bind (fun t => match t.env with | .device d => some d | _ => none)

/-! ### Well-formedness: each check refuses an ill-formed term (30_encoding.md R105 step 3) -/

theorem test_wrPage_zero_length_illformed : (Instr.wrPage 0x08#8 0x00#8).wellFormed defaultParams = false := by decide
theorem test_seqRd_zero_length_illformed : (Instr.seqRd 0x00#8 0x00#8).wellFormed defaultParams = false := by decide
theorem test_regRd_reserved_illformed :
    (Instr.regRd 5#3).wellFormed defaultParams = false ∧ (Instr.regRd 6#3).wellFormed defaultParams = false ∧
      (Instr.regRd 7#3).wellFormed defaultParams = false := by decide
theorem test_boundaries_wellformed :
    (Instr.wrPage 0xFF#8 0x01#8).wellFormed defaultParams = true ∧ (Instr.seqRd 0x00#8 0xFF#8).wellFormed defaultParams = true ∧
      (Instr.regRd 4#3).wellFormed defaultParams = true := by decide

/-! ### Decoding: the words of 30_encoding.md section 8 and the edge words of V-INIT, V-TXA -/

theorem test_decode_init :
    decode defaultParams 0x01000186A0#40 = .ok (.init 100000#32) ∧ decode defaultParams 0x01FFFFFFFF#40 = .ok (.init 4294967295#32) := by decide
theorem test_decode_start_stop : decode defaultParams 0x0200000000#40 = .ok .start ∧ decode defaultParams 0x0300000000#40 = .ok .stop := by decide
theorem test_decode_txa :
    decode defaultParams 0x04000000A0#40 = .ok (.txa 0x50#7 0#1) ∧ decode defaultParams 0x04000000FF#40 = .ok (.txa 0x7F#7 1#1) := by decide
theorem test_decode_txb_rx :
    decode defaultParams 0x0500000010#40 = .ok (.txb 0x10#8) ∧ decode defaultParams 0x0600000001#40 = .ok (.rx true) ∧
      decode defaultParams 0x0600000000#40 = .ok (.rx false) := by decide
theorem test_decode_status : decode defaultParams 0x0700000000#40 = .ok .status := by decide
theorem test_decode_transactions :
    decode defaultParams 0x1000000010#40 = .ok (.rdByte 0x10#8) ∧ decode defaultParams 0x110000AB10#40 = .ok (.wrByte 0x10#8 0xAB#8) ∧
      decode defaultParams 0x120000040E#40 = .ok (.wrPage 0x0E#8 4#8) ∧ decode defaultParams 0x13000003FE#40 = .ok (.seqRd 0xFE#8 3#8) ∧
      decode defaultParams 0x1400000000#40 = .ok .waitWc := by decide
theorem test_decode_access :
    decode defaultParams 0x2000000099#40 = .ok (.decode 0x99#8) ∧ decode defaultParams 0x2100000001#40 = .ok (.trace true) ∧
      decode defaultParams 0x2200000004#40 = .ok (.regRd 4#3) ∧ decode defaultParams 0x2300005A03#40 = .ok (.bufWr 3#8 0x5A#8) ∧
      decode defaultParams 0x2400000003#40 = .ok (.bufRd 3#8) := by decide
/-- V-ILL-1, 4, 7: the reserved opcodes. -/
theorem test_illegal_opcode :
    decode defaultParams 0x0000000000#40 = .error .reservedOpcode ∧ decode defaultParams 0x1500000000#40 = .error .reservedOpcode ∧
      decode defaultParams 0xFFFFFFFFFF#40 = .error .reservedOpcode := by decide
/-- V-ILL-9 to 15: a reserved bit of each format. -/
theorem test_illegal_bit :
    decode defaultParams 0x0380000000#40 = .error .reservedBit ∧ decode defaultParams 0x0400000100#40 = .error .reservedBit ∧
      decode defaultParams 0x0600000002#40 = .error .reservedBit ∧ decode defaultParams 0x1100010000#40 = .error .reservedBit ∧
      decode defaultParams 0x2200000008#40 = .error .reservedBit := by decide
/-- V-ILL-16, 18, 20, 21: field values, and reserved bits before field values. -/
theorem test_illegal_field :
    decode defaultParams 0x2200000005#40 = .error .illegalField ∧ decode defaultParams 0x1200000008#40 = .error .illegalField ∧
      decode defaultParams 0x1200010008#40 = .error .reservedBit ∧ decode defaultParams 0x220000000D#40 = .error .reservedBit := by decide
theorem test_decode_table_word :
    decodeTableWord 40 0x2100000001 = some (.trace true) ∧ decodeTableWord 40 0x2100000003 = none ∧
      decodeTableWord 48 0x2100000001 = none := by decide

/-! ### The assembler (30_encoding.md section 8, R109, R110) -/

theorem test_assemble_operands :
    Asm.assemble defaultParams ["INIT 100000", "TXA 0xA1, R ; bit 0 of dev is dropped", "WR_BYTE 0x10, 0xAB", "REG_RD STATUS"] =
      some [0x01000186A0#40, 0x04000000A1#40, 0x110000AB10#40, 0x2200000002#40] := by decide
theorem test_assemble_pseudo :
    Asm.assemble defaultParams ["RXA", "TXAR 0xA0", "BUF_FILL 0x00, 0x11"] =
      some [0x0600000001#40, 0x04000000A1#40, 0x2300000000#40, 0x2300001101#40] := by decide
theorem test_assemble_unknown : Asm.assemble defaultParams ["BOGUS 1"] = none ∧ Asm.assemble defaultParams ["TXB 256"] = none := by decide

/-! ### Single commands -/

/-- V-INIT-5, V-INIT-6: both divisions floor. -/
theorem test_init_divisor :
    (nextOf (exec (.init 300000#32) State.reset)).map State.rate = some 0x12#8 ∧
      (nextOf (exec (.init 30418#32) State.reset)).map State.rate = some 0xFF#8 := by decide
/-- V-INIT-8, V-INIT-9, V-INIT-11: the edges of the valid range. -/
theorem test_init_range :
    refusalOf (exec (.init 30303#32) State.reset) = some .initRange ∧
      refusalOf (exec (.init 1000001#32) State.reset) = some .initRange ∧
      refusalOf (exec (.init 0#32) State.reset) = some .initRange := by decide
/-- V-S-1, V-S-5. -/
theorem test_start :
    regsOf .start (scripted [.granted]) = some (0xA4#8, 0xFF#8, 0x08#8, .started) ∧
      regsOf .start (scripted [.arbLost]) = some (0xA4#8, 0xFF#8, 0x38#8, .idle) := by decide
/-- V-S-3: a repeated START, with a prescaler of 3 (P3 step 9). -/
theorem test_start_repeated :
    regsOf .start { scripted [.granted] with phase := .mt, status := 0x33#8 } =
      some (0xA4#8, 0xFF#8, 0x13#8, .started) := by decide
/-- V-P-2: the default `stop_status`. -/
theorem test_stop :
    regsOf .stop { scripted [.done] with phase := .mt, status := 0x28#8, ctrl := 0x84#8 } =
      some (0x04#8, 0xFF#8, 0xF8#8, .idle) := by decide
/-- V-P-4: a `stop_status` that keeps the code 0x20. -/
theorem test_stop_keep :
    regsOf .stop { scripted [.done] with
      phase := .mt, status := 0x20#8
      cfg := { defaultParams with stopStatus := [(0x18#8, 0xF8#8), (0x20#8, 0x20#8)] } } =
      some (0x04#8, 0xFF#8, 0x20#8, .idle) := by decide
/-- V-A-6: `sla` 0x7F, read, refused. -/
theorem test_txa_read :
    regsOf (.txa 0x7F#7 1#1) { scripted [.nak] with phase := .started } = some (0x84#8, 0xFF#8, 0x48#8, .mr) := by decide
/-- V-A-2. -/
theorem test_txa_write :
    regsOf (.txa 0x50#7 0#1) { scripted [.nak] with phase := .started } = some (0x84#8, 0xA0#8, 0x20#8, .mt) := by decide
/-- V-B-2: a refused byte leaves phase MT. -/
theorem test_txb :
    regsOf (.txb 0x10#8) { scripted [.nak] with phase := .mt } = some (0x84#8, 0x10#8, 0x30#8, .mt) := by decide
/-- V-R-1 and V-R-3: the policy is in CTRL and in the code; a zero byte is still OK_DATA. -/
theorem test_rx :
    regsOf (.rx true) { scripted [.byte 0x5A#8] with phase := .mr } = some (0xC4#8, 0x5A#8, 0x50#8, .mr) ∧
      respOf (.rx false) { scripted [.byte 0x00#8] with phase := .mr } = some 0x1000#16 := by decide
/-- V-ST-3, V-ST-4. -/
theorem test_status :
    respOf .status { State.reset with status := 0x1B#8 } = some 0x1018#16 ∧ respOf .status State.reset = some 0x10F8#16 := by
  decide
/-- V-RDB-1. -/
theorem test_rdByte_events :
    eventsOf (.rdByte 0x10#8) (withDevice { Device.fresh with mem := [(0x10, 0xAB#8)] }) =
      some [.s, .tx 0xA0#8 .ack, .tx 0x10#8 .ack, .sr, .tx 0xA1#8 .ack, .rx 0xAB#8 .nak, .p] := by decide
/-- V-RDB-2: the read pointer wraps at 256. -/
theorem test_rdByte_wraps :
    (deviceOf (.rdByte 0xFF#8) (withDevice Device.fresh)).map Device.ptr = some 0x00#8 ∧
      respOf (.rdByte 0xFF#8) (withDevice Device.fresh) = some 0x10FF#16 := by decide
/-- V-WRB-3: the write pointer wraps in its page. -/
theorem test_wrByte_page :
    (deviceOf (.wrByte 0xFF#8 0x00#8) (withDevice Device.fresh)).map (fun d => (d.mem, d.ptr, d.busy)) =
      some ([(0xFF, 0x00#8)], 0xF8#8, true) := by decide
/-- V-WRB-2: a write to a busy device is lost. -/
theorem test_wrByte_lost :
    eventsOf (.wrByte 0x11#8 0x22#8) (withDevice { Device.fresh with busy := true, polls := 1 }) =
        some [.s, .tx 0xA0#8 .nak, .tx 0x11#8 .nak, .tx 0x22#8 .nak, .p] ∧
      (deviceOf (.wrByte 0x11#8 0x22#8) (withDevice { Device.fresh with busy := true, polls := 1 })).map Device.mem =
        some [] := by decide
/-- V-WRP-3: a page write wraps in the page. -/
theorem test_wrPage_wraps :
    (deviceOf (.wrPage 0x0E#8 4#8)
      { withDevice Device.fresh with buf := [(0, 0xA1#8), (1, 0xA2#8), (2, 0xA3#8), (3, 0xA4#8)] }).map Device.mem =
      some [(0x08, 0xA3#8), (0x09, 0xA4#8), (0x0E, 0xA1#8), (0x0F, 0xA2#8)] := by decide
/-- V-WRP-5: the second byte was never written. -/
theorem test_wrPage_unwritten :
    refusalOf (exec (.wrPage 0x00#8 2#8) { withDevice Device.fresh with buf := [(0, 0x5A#8)] }) =
      some .unwrittenBuffer := by decide
/-- V-SEQ-3: bytes, order, and the acknowledges of a sequential read. -/
theorem test_seqRd :
    (nextOf (exec (.seqRd 0xFE#8 3#8)
        (withDevice { Device.fresh with mem := [(0x00, 3#8), (0xFE, 1#8), (0xFF, 2#8)] }))).map
        (fun t => (t.buf, t.busHistory.drop 5)) =
      some ([(0, 1#8), (1, 2#8), (2, 3#8)], [.rx 1#8 .ack, .rx 2#8 .ack, .rx 3#8 .nak, .p]) := by decide
/-- V-W-2: three refusals, four pairs, no `P`. -/
theorem test_waitWc :
    eventsOf .waitWc (withDevice { Device.fresh with busy := true, polls := 3 }) =
      some [.s, .tx 0xA0#8 .nak, .sr, .tx 0xA0#8 .nak, .sr, .tx 0xA0#8 .nak, .sr, .tx 0xA0#8 .ack] := by decide
/-- V-W-5: arbitration lost in the first address byte; the next START is an `S`. -/
theorem test_waitWc_lost :
    eventsOf .waitWc (scripted [.granted, .arbLost, .granted, .ack]) =
      some [.s, .lost (.tx 0xA0#8), .s, .tx 0xA0#8 .ack] := by decide
/-- V-DEC: a known code, and no masking in the decoder. -/
theorem test_decode :
    respOf (.decode 0x58#8) State.reset = some 0x100A#16 ∧ respOf (.decode 0x19#8) State.reset = some 0x100B#16 := by decide
/-- V-ACC-1. -/
theorem test_trace_fsmstate :
    (nextOf (exec (.trace true) State.reset)).bind (respOf (.regRd 4#3)) = some 0x1008#16 := by decide
/-- V-ACC-8: after INIT and a granted START. -/
theorem test_regRd :
    respOf (.regRd 0#3) { scripted [] with phase := .started, ctrl := 0xA4#8 } = some 0x10A4#16 ∧
      respOf (.regRd 4#3) { scripted [] with phase := .started, ctrl := 0xA4#8 } = some 0x1005#16 := by decide
/-- V-ACC-11, V-ACC-10. -/
theorem test_buf :
    (nextOf (exec (.bufWr 255#8 0x01#8) State.reset)).bind (respOf (.bufRd 255#8)) = some 0x1001#16 ∧
      refusalOf (exec (.bufRd 9#8) State.reset) = some .unwrittenBuffer := by decide
/-- P1 step 4, with one refusal: the trace is fed the masked codes, one event a primitive. -/
theorem test_trace_events :
    (nextOf (exec .waitWc { scripted [.granted, .nak, .granted, .ack] with traceEn := true })).map State.diagHistory =
      some [⟨.start, 0x08#8⟩, ⟨.mtSlaNak, 0x20#8⟩, ⟨.rstart, 0x10#8⟩, ⟨.mtSlaAck, 0x18#8⟩] := by decide
/-- V-DEC: two uppercase digits, the leading zero kept. -/
theorem test_hex2 : hex2 0x0A#8 = "0A" ∧ hex2 0xF8#8 = "F8" := by decide
/-- V-ILL-16: what the next step answers to an illegal word. -/
theorem test_illegal_response :
    (nextOf (step (State.reset.withFetchWord 40 0x2200000005))).bind State.resp = some 0xE300#16 := by decide
/-- V-RST-1: BUF and the device survive a reset, the marker is recorded, the values are those of State.reset. -/
theorem test_reset_event :
    resetEvent { withDevice { Device.fresh with mem := [(0x10, 0xAB#8)] } with buf := [(3, 0x5A#8)], ctrl := 0x84#8, rate := 0x48#8, phase := .mt } =
      { State.reset with
        pace := commandPace
        env := .device { Device.fresh with mem := [(0x10, 0xAB#8)] }, buf := [(3, 0x5A#8)], busHistory := [.reset] } := by
  decide
/-- The memories of the reset state are in canonical form. -/
theorem test_reset_memories : Memory.wf bufBlank defaultParams.bufSize State.reset.buf ∧
    Memory.wf eepromBlank defaultParams.eepromSize Device.fresh.mem := by decide
/-- The configuration of the reset state meets the constraints of R9 and R68. -/
theorem test_default_params : defaultParams.wf := by decide
/-- The sizes, widths, masks and addresses of the table of 00_scope.md R8. -/
theorem test_default_table :
    defaultParams.freqW = 32 ∧ defaultParams.rateW = 8 ∧ defaultParams.statusCodeBits = 5 ∧
      defaultParams.statusPsBits = 3 ∧ defaultParams.statusMask = 0xF8#8 ∧ defaultParams.pageSize = 8 ∧
      defaultParams.eepromSize = 256 ∧ defaultParams.bufSize = 256 ∧
      defaultParams.registers.addrs = [0#3, 1#3, 2#3, 3#3, 4#3] := by decide
/-- The reset values of the table of R8 (10_state.md R42). -/
theorem test_reset_values : State.reset.status = 0xF8#8 ∧ State.reset.data = 0xFF#8 := by decide
/-- Another block of R8: each parameter drives the operation that its row names. The expected results are worked out by
hand from the row, and where the spec gives none from log 23. -/
def otherParams : Config.Params :=
  { defaultParams with
    freqW := 16
    rateW := 4
    statusCodeBits := 6
    pageSize := 4
    eepromSize := 16
    bufSize := 8
    wholePages := by decide
    eepromFits := by decide
    registers := { ctrl := 7, rate := 1, status := 2, data := 3, fsmState := 4 } }
/-- A 17-bit frequency is a reserved bit, address 0 is reserved and address 7 is CTRL. -/
theorem test_other_decode :
    decode otherParams 0x0100010000#40 = .error .reservedBit ∧
      decode otherParams 0x010000FFFF#40 = .ok (.init 65535#32) ∧
      decode otherParams 0x2200000000#40 = .error .illegalField ∧
      decode otherParams 0x2200000007#40 = .ok (.regRd 7#3) ∧
      respOf (.regRd 7#3) { State.reset with cfg := otherParams, ctrl := 0x04#8 } = some 0x1004#16 := by decide
/-- A divisor of 16 has more than four bits; six code bits leave two of the prescaler; pages of 4, a device of 16 and a BUF
of 8. -/
theorem test_other_sizes :
    refusalOf (exec (.init 333333#32) { State.reset with cfg := otherParams }) = some .initRange ∧
      respOf .status { State.reset with cfg := otherParams, status := 0x1F#8 } = some 0x101C#16 ∧
      pageNext otherParams 0x07#8 = 0x04#8 ∧ deviceOffset otherParams 16 = 0x00#8 ∧
      readBuf 7#8 (writeBuf 7#8 0x5A#8 { State.reset with cfg := otherParams }) = some 0x5A#8 ∧
      writeBuf 8#8 0x5A#8 { State.reset with cfg := otherParams } = { State.reset with cfg := otherParams } := by decide
/-- The word presented is the one the very next step takes (log 15). -/
theorem test_withFetchWord :
    (nextOf (step (State.reset.withFetchWord 40 0x2300005A03))).map State.buf = some [(3, 0x5A#8)] := by decide

/-- R13: at the pace of reset the launch, the completion and the trace of a START are a step each, and a reset lands between
them and abandons the primitive. -/
theorem test_steps_of_a_command :
    (nextOf (exec .start (short 0 (scripted [.granted])))).map (fun t => (t.ctrl, t.inflight)) =
        some (0x24#8, some .start) ∧
      ((nextOf (exec .start (short 0 (scripted [.granted])))).bind (fun t => nextOf (step t))).map
        (fun t => (t.ctrl, t.inflight, t.seq.cmd)) = some (0xA4#8, none, some .start) ∧
      ((nextOf (exec .start (short 0 (scripted [.granted])))).bind
        (fun t => nextOf (step { t with resetPin := [true] }))).map (fun t => (t.inflight, t.seq.cmd, t.busHistory)) =
        some (none, none, [.reset]) := by decide
/-- The bytes of R131's table with the CTRL positions of R8, and with INT at bit 0. -/
theorem test_ctrl_layout :
    launchWord defaultCtrlLayout .start = 0xA4#8 ∧ launchWord defaultCtrlLayout .stop = 0x94#8 ∧
      launchWord defaultCtrlLayout (.rx true) = 0xC4#8 ∧ ctrlUsed defaultCtrlLayout = 0xF4#8 ∧
      launchWord { int := 0, ea := 6, sta := 5, sto := 4, en := 2 } .start = 0x25#8 := by decide
/-- 20_memory.md R86, R87: a commit opens the busy window, a pointer-only write opens none. -/
theorem test_device_stop :
    (Device.answer defaultParams 0x00#8 5 .stop { Device.fresh with mode := .write, pending := [(0x10#8, 0xAB#8)] }).2 =
        { Device.fresh with mem := [(0x10, 0xAB#8)], busy := true, polls := 3 } ∧
      (Device.answer defaultParams 0x00#8 5 .stop { Device.fresh with mode := .write, ptr := 0x10#8 }).2 =
        { Device.fresh with ptr := 0x10#8 } := by decide
/-- R87 without a counter: a window of one further event ends at the second one. -/
theorem test_device_write_time :
    ({ Device.fresh with busy := true, polls := 1, busyPolls := none } : Device).cycleDone.busy = true ∧
      ({ Device.fresh with busy := true, polls := 1, busyPolls := none } : Device).cycleDone.cycleDone.busy = false := by
  decide
/-- 92_eei_decisions.md D15: the other direction bit reads with 0 and writes with 1. -/
theorem test_direction_parameter :
    eventsOf (.rdByte 0x10#8) { withDevice Device.fresh with cfg := { defaultParams with dirWrite := 1#1 } } =
      some [.s, .tx 0xA1#8 .ack, .tx 0x10#8 .ack, .sr, .tx 0xA0#8 .ack, .rx 0xFF#8 .nak, .p] := by decide

/-! ### Witnesses: for each statement with hypotheses, states and operands that meet them, at the edges of each clause -/

/-- The transactions of a script are all granted and acknowledged. -/
def quiet : List Answer := [.granted, .ack, .ack, .granted, .ack, .byte 0x5A#8, .done]

/-- Every byte of BUF that a page write of two bytes reads. -/
def twoBytes (s : State) : State := { s with buf := [(0, 0x11#8), (1, 0x22#8)] }

theorem witness_DecodeOfEncodeIsTheInstruction :
    (Instr.wrPage 0xFF#8 0x01#8).wellFormed defaultParams = true ∧ (Instr.seqRd 0x00#8 0xFF#8).wellFormed defaultParams = true ∧
      (Instr.regRd 4#3).wellFormed defaultParams = true ∧ (Instr.init 0xFFFFFFFF#32).wellFormed defaultParams = true := by decide
theorem witness_EncodeOfDecodeIsTheWord : decode defaultParams 0x220000000C#40 = .error .reservedBit ∧
    decode defaultParams 0x2200000004#40 = .ok (.regRd 4#3) := by decide
theorem witness_OpcodeTableAgreesWithDecoder :
    (⟨"RX", 0x0600000000#40, 0xFFFFFFFFFE#40⟩ : OpcodeRow) ∈ opcodeTable ∧
      0x0600000001#40 &&& 0xFFFFFFFFFE#40 = 0x0600000000#40 ∧ defaultParams.freqW = 32 := by decide
theorem witness_StepExecutesDecodedCommand :
    ({ State.reset with port := [0x0700000000#40], resetPin := [false, true] } : State).resetPin.head? ≠ some true ∧
      State.reset.seq.cmd = none ∧ decode defaultParams 0x0700000000#40 = .ok .status := by decide
theorem witness_IllegalWordOnlyResponds :
    State.reset.resetPin.head? ≠ some true ∧ State.reset.seq.cmd = none ∧
      decode defaultParams 0x2500000000#40 = .error .reservedOpcode ∧ decode defaultParams 0x0200000001#40 = .error .reservedBit ∧
      decode defaultParams 0x1300000000#40 = .error .illegalField := by decide
/-- One model step was too short for the wait: the block is busy. -/
def busyState : State := (nextOf (exec .waitWc (short 0 (scripted [.granted, .ack])))).getD State.reset
theorem witness_BusyBlockTakesNoWord :
    busyState.resetPin.head? ≠ some true ∧ busyState.seq.cmd ≠ none ∧ (nextOf (step busyState)).isSome = true := by decide
theorem witness_IllFormedOperandsAreIllegal :
    5#3 ∉ State.reset.cfg.registers.addrs ∧ 7#3 ∉ State.reset.cfg.registers.addrs := by decide
theorem witness_IdleBlockDoesNothing :
    State.reset.resetPin.head? ≠ some true ∧ State.reset.seq.cmd = none ∧ State.reset.port = [] := by decide
theorem witness_ResetSetsEveryRegister :
    ({ busyState with resetPin := [true, false] } : State).resetPin = true :: [false] := by decide
theorem witness_PaceChangesNothing :
    ({ scripted [.granted] with pace := 0 } : State).seq.cmd = none ∧ (scripted []).port = [] ∧
      (scripted []).resetPin = [] ∧ (nextOf (exec .start (short 3 (scripted [.granted])))).isSome = true ∧
      refusalOf (exec .waitWc (short 3 (scripted [.arbLost]))) = some .addressNotAfterStart ∧
      (nextOf (exec .waitWc (short 0 (scripted [.arbLost])))).isSome = true := by decide
/-- A run of two words, one illegal: two responses, and it has ended (70_reset_and_hazards.md R293). -/
theorem witness_RunHasOneResponsePerWord :
    respondingRun 2 { State.reset with port := [0x0700000000#40, 0x0000000000#40] } =
        some ({ State.reset with resp := some 0xE100#16 }, [0x10F8#16, 0xE100#16]) ∧
      (∀ b ∈ ([] : List Bool), b = false) := by decide
/-- A run whose last command a reset aborted has given no response to it and has not ended. -/
theorem test_aborted_run_has_not_ended :
    (respondingRun 2 { scripted [.granted] with pace := 0, port := [0x0200000000#40], resetPin := [false, true] }).map
      (fun r => (r.1.seq.cmd, r.1.inflight, r.1.port, r.2)) = some (none, none, [], []) := by decide
/-- V-INIT-3, 7 (allowed), V-INIT-8, 9, 11 (refused): each clause at its boundary, with `RATE_W` = 8. -/
theorem witness_InitProgramsTheDivisor :
    (scripted []).initialized = true ∧ State.reset.initialized = false ∧
      State.reset.cfg.baseClockHz / (1000000#32).toNat = 16 ∧ State.reset.cfg.baseClockHz / (30304#32).toNat = 527 ∧
      State.reset.cfg.baseClockHz / (30303#32).toNat = 528 ∧ State.reset.cfg.baseClockHz / (1000001#32).toNat = 15 ∧
      (527 - 16) / 2 ≤ 2 ^ State.reset.cfg.rateW.val - 1 ∧ 2 ^ State.reset.cfg.rateW.val - 1 < (528 - 16) / 2 ∧
      State.reset.cfg.rateW = 8 := by decide
theorem witness_InitOncePerReset : (nextOf (exec (.init 100000#32) State.reset)).isSome = true := by decide
theorem witness_StartCompletes :
    (short 3 (scripted [.granted])).ready ∧ (scripted [.granted]).initialized = true ∧
      (pollEnv .start (short 3 (scripted [.granted]))).1 = some .granted ∧
      (pollEnv .start (short 3 (scripted [.arbLost]))).1 = some .arbLost := by decide
theorem witness_StopCompletes :
    ({ short 3 (scripted [.done]) with phase := .mr } : State).ready ∧
      (pollEnv .stop { short 3 (scripted [.done]) with phase := .mr }).1 = some .done := by decide
theorem witness_TxaCompletes :
    ({ short 3 (scripted [.ack]) with phase := .started } : State).ready ∧
      (pollEnv (.txa (0x7F#7 ++ 1#1)) { short 3 (scripted [.ack]) with phase := .started }).1 = some (answerOf .ack) ∧
      (pollEnv (.txa (0x00#7 ++ 0#1)) { short 3 (scripted [.nak]) with phase := .started }).1 = some (answerOf .nak) ∧
      (pollEnv (.txa (0x00#7 ++ 0#1)) { short 3 (scripted [.arbLost]) with phase := .started }).1 = some .arbLost := by
  decide
theorem witness_TxbCompletes :
    ({ short 3 (scripted [.ack]) with phase := .mt } : State).ready ∧
      (pollEnv (.txb 0xFF#8) { short 3 (scripted [.nak]) with phase := .mt }).1 = some (answerOf .nak) ∧
      (pollEnv (.txb 0x00#8) { short 3 (scripted [.arbLost]) with phase := .mt }).1 = some .arbLost := by decide
theorem witness_RxCompletes :
    ({ short 3 (scripted [.byte 0x00#8]) with phase := .mr } : State).ready ∧
      (pollEnv (.rx true) { short 3 (scripted [.byte 0x00#8]) with phase := .mr }).1 = some (.byte 0x00#8) ∧
      (pollEnv (.rx false) { short 3 (scripted [.arbLost]) with phase := .mr }).1 = some .arbLost := by decide
theorem witness_BrokenContractsAreRefused :
    State.reset.ready ∧ State.reset.initialized = false ∧ (scripted []).ready ∧ (scripted []).initialized = true ∧
      (scripted []).phase = .idle ∧ ({ scripted [] with phase := .mr } : State).phase ≠ .mt := by decide
theorem witness_UnansweredPrimitiveHangs :
    (scripted []).ready ∧ (scripted []).initialized = true ∧ (scripted []).env = .scripted [] [] ∧
      (scripted []).resetPin = [] ∧ legalPhase .start (scripted []).phase ∧
      legalPhase .stop ({ scripted [] with phase := .mr } : State).phase ∧
      legalPhase (.txa (0x50#7 ++ 1#1)) ({ scripted [] with phase := .started } : State).phase ∧
      legalPhase (.txb 0x00#8) ({ scripted [] with phase := .mt } : State).phase ∧
      legalPhase (.rx true) ({ scripted [] with phase := .mr } : State).phase := by
  refine ⟨?_, rfl, rfl, rfl, trivial, ?_, rfl, rfl, rfl⟩ <;> decide
/-- A START in flight that nobody answers. -/
theorem witness_UnansweredPrimitiveHangs_inFlight :
    (launch .start (accept .start (scripted []))).Inv ∧ (launch .start (accept .start (scripted []))).inflight = some .start := by
  refine ⟨⟨by decide, by decide, by simp [launch, accept, scripted], by simp [launch, accept, scripted], by decide, ?_, ?_, ?_, ?_, ?_, by decide, ?_⟩, rfl⟩ <;>
    simp [launch, accept, scripted, legalPhase, sequenceOf, startSeq]
  all_goals decide
theorem witness_RdByteCompletes :
    (short 21 (scripted quiet)).ready ∧ (short 21 (scripted quiet)).initialized = true ∧
      (short 21 (scripted quiet)).env =
        .scripted [.granted, answerOf .ack, answerOf .ack, .granted, answerOf .ack, .byte 0x5A#8, .done] [] := by decide
theorem witness_WrByteCompletes :
    (short 15 (scripted [.granted, .nak, .nak, .nak, .done])).ready ∧
      (scripted [.granted, .nak, .nak, .nak, .done]).env =
        .scripted [.granted, answerOf .nak, answerOf .nak, answerOf .nak, .done] [] := by decide
theorem witness_WrPageCompletes :
    (twoBytes (short 18 (scripted [.granted, .ack, .ack, .ack, .nak, .done]))).ready ∧ 3 * ([0x11#8].length + 5) ≤ 18 ∧
      (2#8).toNat = [0x11#8].length + 1 ∧
      (∀ k, k < (2#8).toNat →
        readBuf (BitVec.ofNat 8 k) (twoBytes (short 18 (scripted []))) = ([0x11#8] ++ [0x22#8])[k]?) ∧
      (scripted [.granted, .ack, .ack, .ack, .nak, .done]).env =
        .scripted (.granted :: answerOf .ack :: answerOf .ack :: (([AckBit.ack] ++ [AckBit.nak]).map answerOf ++ [.done]))
          [] := by decide
theorem witness_SeqRdCompletes :
    (short 21 (scripted quiet)).ready ∧ 3 * (([] : List Byte).length + 7) ≤ 21 ∧ (1#8).toNat = ([] : List Byte).length + 1 ∧
      (scripted quiet).env =
        .scripted (.granted :: answerOf .ack :: answerOf .ack :: .granted :: answerOf .ack ::
          (([] ++ [0x5A#8]).map Answer.byte ++ [.done])) [] := by decide
theorem witness_WaitWcCompletes :
    (short 13 (scripted [.granted, .nak, .granted, .ack])).ready ∧ defaultParams.codesWf ∧ 7 * 1 + 6 ≤ 13 ∧ 7 * 0 + 13 ≤ 13 ∧
      (scripted [.granted, .nak, .granted, .ack]).env = .scripted (waitAnswers 1 ++ []) [] ∧
      (scripted [.granted, .arbLost, .granted, .ack]).env =
        .scripted (.granted :: .arbLost :: (waitAnswers 0 ++ [])) [] := by decide
theorem witness_WaitWcEndsAgainstTheDevice :
    (withDevice { Device.fresh with busy := true, polls := 5, busyPolls := none }).ready ∧ defaultParams.codesWf ∧
      (withDevice { Device.fresh with busy := true, polls := 5, busyPolls := none }).env =
        .device { Device.fresh with busy := true, polls := 5, busyPolls := none } ∧
      eventsOf .waitWc (withDevice { Device.fresh with busy := true, polls := 2, busyPolls := none }) =
        some [.s, .tx 0xA0#8 .nak, .sr, .tx 0xA0#8 .ack] := by decide
theorem witness_WrPageOfUnwrittenByteIsRefused :
    (short 12 (scripted [.granted, .ack, .ack, .nak])).ready ∧ 3 * [0x5A#8].length + 9 ≤ 12 ∧
      [AckBit.nak].length = [0x5A#8].length ∧ [0x5A#8].length < (2#8).toNat ∧
      (∀ k, k < 1 → readBuf (BitVec.ofNat 8 k) { State.reset with buf := [(0, 0x5A#8)] } = [0x5A#8][k]?) ∧
      readBuf (BitVec.ofNat 8 1) { State.reset with buf := [(0, 0x5A#8)] } = none ∧
      (nextOf (runMoves 12 (accept (.wrPage 0x00#8 2#8)
        { short 12 (scripted [.granted, .ack, .ack, .nak]) with buf := [(0, 0x5A#8)] }))).map State.busHistory =
        some [.s, .tx 0xA0#8 .ack, .tx 0x00#8 .ack, .tx 0x5A#8 .nak] ∧
      refusalOf (exec (.wrPage 0x00#8 2#8)
        { short 12 (scripted [.granted, .ack, .ack, .nak]) with buf := [(0, 0x5A#8)] }) = some .unwrittenBuffer := by decide
theorem witness_WaitWcNeverGivesUp :
    ({ scripted [] with env := .scripted [] [.granted, .nak] } : State).ready ∧ defaultParams.codesWf := by decide
theorem witness_LostArbitrationRefusesTransaction :
    (short 18 (scripted [.arbLost])).ready ∧ 2#8 ≠ 0#8 ∧
      (scripted [.granted, .ack, .nak, .granted, .ack, .arbLost]).env =
        .scripted [.granted, answerOf .ack, answerOf .nak, .granted, answerOf .ack, .arbLost] [] ∧
      refusalOf (exec (.rdByte 0x10#8) (short 18 (scripted [.granted, .ack, .nak, .granted, .ack, .arbLost]))) =
        some .stopWithoutStart ∧
      refusalOf (exec (.wrPage 0x10#8 2#8) (short 18 (twoBytes (scripted [.granted, .ack, .ack, .arbLost])))) =
        some .transmitNotInWrite ∧
      refusalOf (exec (.wrPage 0x10#8 2#8) (short 18 (twoBytes (scripted [.granted, .ack, .ack, .ack, .arbLost])))) =
        some .stopWithoutStart ∧
      (∀ k : Byte, k.toNat < (2#8).toNat → readBuf k (twoBytes (scripted [])) ≠ none) := by decide
theorem witness_LostArbitrationRefusesTransaction_seqRd :
    refusalOf (exec (.seqRd 0x10#8 2#8) (short 18 (scripted [.granted, .ack, .nak, .granted, .ack, .arbLost]))) =
        some .receiveNotInRead ∧
      refusalOf (exec (.seqRd 0x10#8 1#8) (short 18 (scripted [.granted, .ack, .nak, .granted, .ack, .arbLost]))) =
        some .stopWithoutStart := by decide
theorem witness_ReadRunsOnAfterLostOffset :
    (short 21 (scripted [.granted, .ack, .arbLost, .granted, .ack, .byte 0x5A#8, .done])).ready ∧
      (scripted [.granted, .ack, .arbLost, .granted, .ack, .byte 0x5A#8, .done]).env =
        .scripted [.granted, answerOf .ack, .arbLost, .granted, answerOf .ack, .byte 0x5A#8, .done] [] ∧
      3 * (([] : List Byte).length + 7) ≤ 21 ∧ (1#8).toNat = ([] : List Byte).length + 1 ∧
      eventsOf (.seqRd 0x10#8 1#8) (short 21 (scripted [.granted, .ack, .arbLost, .granted, .ack, .byte 0x5A#8, .done])) =
        some [.s, .tx 0xA0#8 .ack, .lost (.tx 0x10#8), .s, .tx 0xA1#8 .ack, .rx 0x5A#8 .nak, .p] := by decide
theorem witness_SingleMasterNeverRefuses :
    (withDevice Device.fresh).ready ∧ (withDevice Device.fresh).env.singleMaster ∧ (scripted quiet).env.singleMaster ∧
      refusalOf (runMoves 20 (accept (.wrPage 0x00#8 2#8) (scripted quiet))) = some .unwrittenBuffer := by
  refine ⟨by decide, trivial, ⟨by decide, by decide⟩, by decide⟩
/-- The primitives of RD_BYTE, all answered; and those of WR_BYTE, refused after a lost START. -/
theorem witness_TransactionEqualsItsPrimitives :
    (nextOf (hostRun [.start, .txa (deviceSla defaultParams) 0#1, .txb 0x10#8, .start, .txa (deviceSla defaultParams) 1#1,
      .rx false, .stop] (scripted quiet))).map (fun t => t.seq.cmd) = some none ∧
    (nextOf (hostRun [.start, .txa (deviceSla defaultParams) 0#1, .txb 0x10#8, .txb 0x11#8, .stop]
      (scripted [.granted, .ack, .ack, .ack, .done]))).map (fun t => t.seq.cmd) = some none ∧
    refusalOf (hostRun [.start, .txa (deviceSla defaultParams) 0#1, .txb 0x10#8, .txb 0x11#8, .stop]
      (scripted [.arbLost])) = some .addressNotAfterStart ∧
    (∀ k, k < (2#8).toNat → readBuf (BitVec.ofNat 8 k) (twoBytes (scripted [])) = [0x11#8, 0x22#8][k]?) := by decide
/-- The primitives of SEQ_RD of two bytes and of a WAIT_WC of two pairs, all answered. -/
theorem witness_TransactionEqualsItsPrimitives_loops :
    (nextOf (hostRun ([.start, .txa (deviceSla defaultParams) 0#1, .txb 0x10#8, .start,
      .txa (deviceSla defaultParams) 1#1] ++ (List.range 2).map (fun k => Instr.rx (decide (k + 1 < 2))) ++ [.stop])
      (scripted [.granted, .ack, .ack, .granted, .ack, .byte 0x5A#8, .byte 0xA5#8, .done]))).map (fun t => t.seq.cmd) =
        some none ∧
    (nextOf (hostRun (List.replicate 2 [Instr.start, .txa (deviceSla defaultParams) 0#1]).flatten
      (scripted [.granted, .nak, .granted, .ack]))).map (fun t => (t.seq.cmd, t.status &&& t.cfg.statusMask)) =
        some (none, 0x18#8) ∧
    (nextOf (hostRun (List.replicate 1 [Instr.start, .txa (deviceSla defaultParams) 0#1]).flatten
      (scripted [.granted, .nak, .granted, .ack]))).map (fun t => t.status &&& t.cfg.statusMask) = some 0x20#8 := by decide
theorem witness_DeviceAnswersControlByte :
    ({ Device.fresh with mode := .control } : Device).mode = .control ∧
      ({ Device.fresh with mode := .control } : Device).cycleDone.busy = false ∧
      (0xA1#8).extractLsb' 1 7 = (0xA0#8).extractLsb' 1 7 ∧ (0xA2#8).extractLsb' 1 7 ≠ (0xA0#8).extractLsb' 1 7 := by decide
theorem witness_DeviceMovesBytes :
    Device.fresh = Device.fresh.cycleDone ∧ defaultParams.eepromSize = 256 ∧ defaultParams.pageSize = 8 ∧ Device.fresh.mode = .idle ∧
      ({ Device.fresh with busyPolls := none, mode := .write } : Device) =
        ({ Device.fresh with busy := true, busyPolls := none, mode := .write } : Device).cycleDone := by decide
theorem witness_StopOpensTheBusyWindow :
    ({ Device.fresh with mode := .write, pending := [(0x10#8, 0xAB#8)] } : Device).pending ≠ [] ∧
      ({ Device.fresh with mode := .write } : Device).pending = [] ∧ Device.fresh.mode ≠ .write ∧
      Device.fresh.busyPolls = some 3 ∧ ({ Device.fresh with busyPolls := none } : Device).busyPolls = none := by decide
theorem witness_DeviceIsResponsiveSingleMaster : (withDevice Device.fresh).env.referenceDevice := ⟨_, rfl⟩
theorem witness_WaitWcWaitsOutTheWriteCycle :
    (short 27 (withDevice { Device.fresh with busy := true, polls := 3 })).ready ∧ 7 * 3 + 6 ≤ 27 ∧
      Device.fresh.busyPolls = some 3 ∧ Device.fresh.busy = false ∧ defaultParams.codesWf := by decide
theorem witness_RoundTripThroughTheDevice :
    (short 27 (withDevice Device.fresh)).ready ∧ (withDevice Device.fresh).initialized = true ∧ defaultParams.codesWf ∧
      Device.fresh.busy = false ∧ Device.fresh.busyPolls = some 3 := by decide
theorem witness_SequentialReadThroughTheDevice :
    (short 783 (withDevice Device.fresh)).ready ∧ 3 * ((255#8).toNat + 6) ≤ 783 ∧ Device.fresh.busy = false ∧
      (254#8).toNat < defaultParams.bufSize := by decide
theorem witness_PageWriteWrapsInThePage :
    (twoBytes (short 18 (withDevice Device.fresh))).ready ∧ 3 * ((2#8).toNat + 4) ≤ 18 ∧
      (∀ k, k < (2#8).toNat →
        readBuf (BitVec.ofNat 8 k) (twoBytes (short 18 (withDevice Device.fresh))) = [0x11#8, 0x22#8][k]?) := by decide
theorem witness_DecodeRespondsTheLabel :
    defaultParams.codesWf ∧ defaultCodes.known[10]? = some 0x58#8 ∧ 0x99#8 ∉ defaultCodes.known := by decide
theorem witness_RegRdReturnsTheRegister : (scripted []).Inv ∧ (scripted []).ready := by
  refine ⟨⟨by decide, by decide, by simp [scripted], by simp [scripted, State.reset], by decide, ?_, ?_, ?_, ?_, by decide, by decide, ?_⟩, by decide⟩ <;>
    simp [scripted, State.reset, Seq.idle]
theorem witness_BufRdReturnsWrittenByte :
    readBuf 1#8 (twoBytes State.reset) = some 0x22#8 ∧ readBuf 2#8 (twoBytes State.reset) = none := by decide
theorem witness_BusCommandFrame :
    sequenceOf defaultParams .start ≠ [] ∧ (nextOf (exec .start (scripted [.granted]))).isSome = true := by decide
theorem witness_SeqRdStoresBelowLen :
    (nextOf (exec (.seqRd 0x00#8 1#8) (scripted quiet))).map State.buf = some [(0, 0x5A#8)] := by decide
theorem witness_OnlyResetUndoesInit :
    (nextOf (step (State.reset.withFetchWord 40 0x01000186A0))).map (fun t => (t.rate, t.initialized)) =
      some (0x48#8, true) := by decide
theorem witness_OnlyBufWrAndSeqRdWriteBuf :
    (nextOf (step (State.reset.withFetchWord 40 0x2300005A03))).map (fun t => t.buf != State.reset.buf) = some true := by
  decide
theorem witness_TracingChangesNothingElse :
    (nextOf (exec .start { scripted [.granted] with traceEn := true })).isSome = true ∧
      refusalOf (exec .stop { scripted [] with traceEn := true }) = some .stopWithoutStart := by decide
/-- A block just initialized meets the invariant, with START presented, and its step answers next. -/
theorem witness_StepKeepsInvariant :
    ((scripted [.granted]).withFetchWord 40 0x0200000000).Inv ∧
      (nextOf (step ((scripted [.granted]).withFetchWord 40 0x0200000000))).isSome = true := by
  refine ⟨⟨by decide, by decide, by simp [scripted, State.withFetchWord, presentWord],
    by simp [scripted, State.withFetchWord, presentWord], by decide, ?_, ?_, ?_, ?_, by decide,
    by decide, ?_⟩, by decide⟩ <;>
    simp [scripted, State.withFetchWord, presentWord, State.reset, Seq.idle]
theorem witness_PseudoInstructionsExpand : [0x00#8, 0x11#8][1]? = some 0x11#8 := by decide
theorem witness_FallbackLineShowsTheCode :
    defaultParams.codesWf ∧ defaultCodes.known[10]? = some 0x58#8 ∧ 0x0A#8 ∉ defaultCodes.known ∧
      renderLine defaultParams ⟨labelOf defaultCodes 0x0A#8, 0x0A#8⟩ = "N/A 0A" := by decide
end Sys2Proof.Tests
end

section
/-! PROOFS. The pace: a block that is left alone takes one move a step at pace 0, and every command is either a run of
moves, which the pace only cuts into steps, or complete where it is accepted (log 3). -/

namespace Sys2Proof.Machine

/-! ### A block of pace 0 left alone by the host -/

/-- The host has nothing to come, and a step makes one move (log 3). -/
structure State.Alone (s : State) : Prop where
  port : s.port = []
  resetPin : s.resetPin = []
  pace : s.pace = 0

theorem State.Alone.accept {s : State} (h : s.Alone) (i : Instr) : (accept i s).Alone := ⟨h.port, h.resetPin, h.pace⟩

/-- A block of pace 0 is itself at pace 0. -/
theorem State.withPace_zero {s : State} (h : s.pace = 0) : s.withPace 0 = s := by
  unfold State.withPace
  rw [← h]

/-- A move touches neither what the host has to come nor the pace. -/
theorem move_inputs {s t : State} (h : move s = .next t) :
    t.port = s.port ∧ t.resetPin = s.resetPin ∧ t.pace = s.pace := by
  obtain ⟨-, rfl⟩ | ⟨i, -, ⟨-, rfl⟩ | ⟨act, -, hact⟩⟩ := move_cases h
  · simp
  · simp
  · obtain ⟨-, ⟨p, -, -, rfl⟩ | ⟨k, v, -, rfl⟩ | ⟨-, -, rfl⟩⟩ | ⟨p, -, -, rfl⟩ | ⟨p, -, -, rfl⟩ := hact <;> simp

theorem move_alone {s t : State} (h : move s = .next t) (hs : s.Alone) : t.Alone := by
  obtain ⟨hport, hpin, hpace⟩ := move_inputs h
  exact ⟨hport.trans hs.port, hpin.trans hs.resetPin, hpace.trans hs.pace⟩

theorem runMoves_alone {n : Nat} {s t : State} (h : runMoves n s = .next t) (hs : s.Alone) : t.Alone :=
  runMoves_induct (fun _ _ hu hm => move_alone hm hu) hs h

/-- Left alone, a block goes on with its command or idles. -/
theorem samplePort_alone {s : State} (h : s.Alone) :
    samplePort s = if s.seq.cmd = none then .idle s else .busy s := by
  have htail : s.resetPin.tail = s.resetPin := by rw [h.resetPin]; rfl
  rw [samplePort_free (by rw [h.resetPin]; simp), htail]
  split
  · next hc => rw [hc]; rfl
  · next hc _ => rw [hc]; rfl
  · next hp => rw [h.port] at hp; cases hp

/-- Left alone, a block makes the one move of its command in a step, and none when it is ready. -/
theorem step_alone {s : State} (h : s.Alone) : step s = runMoves 1 s := by
  unfold step
  rw [samplePort_alone h]
  by_cases hc : s.seq.cmd = none
  · rw [if_pos hc, runMoves_done hc]
  · rw [if_neg hc]
    change resume s = _
    rw [resume, h.pace]

/-- An outcome gone on from by `f`. -/
def thenNext (f : State → Host.Outcome State Fault Refusal) :
    Host.Outcome State Fault Refusal → Host.Outcome State Fault Refusal
  | .next t => f t
  | .fault r => .fault r
  | .refused r => .refused r

/-- Going on ends in a next state from a next state only. -/
theorem thenNext_eq_next {f : State → Host.Outcome State Fault Refusal} {o : Host.Outcome State Fault Refusal} {t : State}
    (h : thenNext f o = .next t) : ∃ u, o = .next u ∧ f u = .next t := by
  cases o with
  | next u => exact ⟨u, rfl, h⟩
  | fault r => cases h
  | refused r => cases h

/-- A refusal is there before, or comes of going on. -/
theorem thenNext_eq_refused {f : State → Host.Outcome State Fault Refusal} {o : Host.Outcome State Fault Refusal}
    {r : Refusal} (h : thenNext f o = .refused r) : o = .refused r ∨ ∃ u, o = .next u ∧ f u = .refused r := by
  cases o with
  | next u => exact .inr ⟨u, rfl, h⟩
  | fault q => cases h
  | refused q => exact .inl h

/-- A run is its first step and then the others. -/
theorem run_succ (n : Nat) (s : State) :
    Host.Core.run Sys2Proof.core (n + 1) s = thenNext (Host.Core.run Sys2Proof.core n) (step s) := by
  change _ = thenNext _ (Sys2Proof.core.step s)
  simp only [Host.Core.run]
  cases Sys2Proof.core.step s <;> rfl

/-- Left alone, a block makes a run of moves one a step (R13). -/
theorem run_alone {s : State} (h : s.Alone) (n : Nat) : Host.Core.run Sys2Proof.core n s = runMoves n s := by
  induction n generalizing s with
  | zero => rfl
  | succ n ih =>
    rw [run_succ, step_alone h, Nat.add_comm n 1, runMoves_add]
    cases hm : runMoves 1 s with
    | next t => exact ih (runMoves_alone hm h)
    | fault r => rfl
    | refused r => rfl

/-- Left alone, a ready block stays as it is: put back to pace 0 from pace `k`, it is what its run of `n` steps comes to. -/
theorem mapNext_withPace_ready {s : State} (h : s.Alone) (hc : s.seq.cmd = none) (k n : Nat) :
    mapNext (State.withPace 0) (.next (s.withPace k)) = Host.Core.run Sys2Proof.core n s := by
  rw [run_alone h]
  exact (congrArg Host.Outcome.next (State.withPace_zero h.pace)).trans (runMoves_done hc n).symm

/-! ### What the pace does to a command -/

/-- A command walks its table, or has none and completes where it is accepted, or has length 0, which is illegal (R243). -/
theorem exec_shape (c : Config.Params) (i : Instr) :
    (∀ s, exec i s = runCommand i s) ∨ sequenceOf c i = [] ∨ ∀ s, exec i s = .next (raiseIllegal .illegalField s) := by
  cases i with
  | wrPage a l =>
    by_cases hl : l = 0#8
    · exact .inr (.inr fun s => if_pos hl)
    · exact .inl fun s => if_neg hl
  | seqRd a l =>
    by_cases hl : l = 0#8
    · exact .inr (.inr fun s => if_pos hl)
    · exact .inl fun s => if_neg hl
  | init _ | status | decode _ | trace _ | regRd _ | bufWr _ _ | bufRd _ => exact .inr (.inl rfl)
  | start | stop | txa _ _ | txb _ | rx _ | rdByte _ | wrByte _ _ | waitWc => exact .inl fun _ => rfl

/-- A command without a table does not look at the pace. -/
theorem exec_withPace {i : Instr} {s : State} (h : sequenceOf s.cfg i = []) (k : Nat) :
    exec i (s.withPace k) = mapNext (State.withPace k) (exec i s) := by
  cases i with
  | init f =>
    change execInit f (s.withPace k) = mapNext _ (execInit f s)
    unfold execInit
    rw [show (s.withPace k).initialized = s.initialized from rfl,
      show divisor (s.withPace k).cfg f = divisor s.cfg f from rfl]
    split
    · rfl
    · cases divisor s.cfg f <;> rfl
  | regRd r =>
    change execRegRd r (s.withPace k) = mapNext _ (execRegRd r s)
    unfold execRegRd
    rw [show readRegister r (s.withPace k) = readRegister r s from rfl]
    cases readRegister r s <;> rfl
  | bufRd j =>
    change execBufRd j (s.withPace k) = mapNext _ (execBufRd j s)
    unfold execBufRd
    rw [show readBuf j (s.withPace k) = readBuf j s from rfl]
    cases readBuf j s <;> rfl
  | status | decode _ | trace _ | bufWr _ _ => rfl
  | start | stop | txa _ _ | txb _ | rx _ | rdByte _ | wrByte _ _ | wrPage _ _ | seqRd _ _ | waitWc => cases h

/-- A command without a table leaves a ready block ready, and alone if it was. -/
theorem exec_alone_ready {i : Instr} {s t : State} (h : sequenceOf s.cfg i = []) (hx : exec i s = .next t)
    (hc : s.seq.cmd = none) (hs : s.Alone) : t.seq.cmd = none ∧ t.Alone := by
  obtain ⟨hport, hpin, hpace⟩ := hs
  obtain ⟨hne, -⟩ | rfl | ⟨f, d, -, -, -, rfl⟩ | ⟨k, v, rfl⟩ | ⟨en, -, rfl⟩ | ⟨k, v, -, rfl⟩ := exec_cases hx
  · exact absurd h hne
  · exact ⟨hc, hport, hpin, hpace⟩
  all_goals exact ⟨rfl, hport, hpin, hpace⟩

/-- A table walked at pace `k` is its first move and then `k` steps at pace 0. -/
theorem runCommand_pace (i : Instr) {s : State} (hs : s.Alone) (k : Nat) :
    mapNext (State.withPace 0) (runCommand i (s.withPace k)) =
      thenNext (Host.Core.run Sys2Proof.core k) (runCommand i s) := by
  have hzero : (accept i (s.withPace k)).withPace 0 = accept i s := by
    rw [← State.withPace_zero (hs.accept i).pace]; rfl
  rw [runCommand_eq, runCommand_eq, ← runMoves_withPace, hzero, hs.pace,
    show (s.withPace k).pace + 1 = (0 + 1) + k from Nat.add_comm _ _, runMoves_add]
  cases hm : runMoves (0 + 1) (accept i s) with
  | next t => exact (run_alone (runMoves_alone hm (hs.accept i)) k).symm
  | fault r => rfl
  | refused r => rfl

/-- A command at pace `k` comes to what `k` further steps at pace 0 come to. -/
theorem exec_pace (i : Instr) {s : State} (hc : s.seq.cmd = none) (hs : s.Alone) (k : Nat) :
    mapNext (State.withPace 0) (exec i (s.withPace k)) =
      thenNext (Host.Core.run Sys2Proof.core k) (exec i s) := by
  obtain hrun | htable | hillegal := exec_shape s.cfg i
  · rw [hrun, hrun]
    exact runCommand_pace i hs k
  · rw [exec_withPace htable]
    cases hx : exec i s with
    | next t =>
      obtain ⟨htc, ht⟩ := exec_alone_ready htable hx hc hs
      exact mapNext_withPace_ready ht htc k k
    | fault r => rfl
    | refused r => rfl
  · have ht : (raiseIllegal .illegalField s).Alone := ⟨hs.port, hs.resetPin, hs.pace⟩
    rw [hillegal, hillegal]
    exact mapNext_withPace_ready ht hc k k

/-- Settles O8: with nothing to come from the host a step at pace 0 is one move, so the moves of one step at pace `k` are
those of `k` further steps, and a command without moves looks at no pace. -/
theorem paceChangesNothing : Obligations.PaceChangesNothing := by
  unfold Obligations.PaceChangesNothing
  intro s i k hc hport hpin hpace
  have key := exec_pace i hc ⟨hport, hpin, hpace⟩ k
  refine ⟨fun t ht => thenNext_eq_next ?_, fun r hr => thenNext_eq_refused ?_⟩
  · rw [← key, show exec i (s.withPace k) = .next t from ht]
    rfl
  · rw [← key, show exec i (s.withPace k) = .refused r from hr]
    rfl

end Sys2Proof.Machine
end

section
/-! PROOFS. The invariant of the machine: it holds at reset, every named operation keeps it where the sequencer performs it,
and so every move, every command and every step does. -/

namespace Sys2Proof.Machine

/-! ### The invariant at rest -/

/-- A block that waits for nothing has nothing in flight (10_state.md R37). -/
theorem State.Inv.inflight_none {s : State} (h : s.Inv) (hw : s.seq.wait = none) : s.inflight = none := by
  cases hf : s.inflight with
  | none => rfl
  | some p => exact nomatch hw.symm.trans (h.flightWaited p hf)

/-- A block whose bus registers and sequencer are cleared meets the invariant if its memories are well formed (R42). -/
theorem inv_of_cleared {s : State} (hctrl : s.ctrl = 0x00#8) (hphase : s.phase = .idle) (hf : s.inflight = none)
    (hseq : s.seq = Seq.idle) (hbuf : Memory.wf bufBlank s.cfg.bufSize s.buf)
    (hmem : ∀ d, s.env = .device d → Memory.wf eepromBlank s.cfg.eepromSize d.mem)
    (hfit : ∀ d, s.env = .device d → d.offsetsFit s.cfg) : s.Inv where
  ctrlReserved := by simp [hctrl]
  bufWf := hbuf
  memWf := hmem
  offsetsFit := hfit
  readyWaits := by simp [hseq]
  flightWaited := by simp [hf]
  flightUnseen := by simp [hf]
  flightLegal := by simp [hf]
  completedSeen := by simp [hseq]
  stoStop := by simp [hctrl, ctrlField]
  quietBeforeInit := fun _ => ⟨hphase, hctrl, hf⟩
  pcInTable := by simp [hseq]

/-- Settles O58: everything is cleared, BUF and the device's memory list nothing and the device points to offset 0. -/
theorem resetMeetsInvariant : Obligations.ResetMeetsInvariant := by
  unfold Obligations.ResetMeetsInvariant
  have henv : ∀ d, State.reset.env = .device d → d = Device.fresh := fun d hd => (Env.device.inj hd).symm
  refine inv_of_cleared rfl rfl rfl rfl (Memory.nil_wf _ _) (fun d hd => ?_) (fun d hd => ?_)
  · rw [henv d hd]; exact Memory.nil_wf _ _
  · rw [henv d hd]; exact ⟨State.reset.cfg.eepromFits.1, by simp [Device.fresh]⟩

/-- The reset event clears the block and leaves the memories (70_reset_and_hazards.md R270). -/
theorem resetEvent_inv {s : State} (h : s.Inv) : (resetEvent s).Inv :=
  inv_of_cleared rfl rfl rfl rfl h.bufWf h.memWf h.offsetsFit

/-! ### What the operations of the sequencer keep -/

/-- With nothing in flight the sequencer may stand at any entry of a command's table, or at none, waiting for nothing. -/
theorem placed_inv {s : State} (h : s.Inv) (hf : s.inflight = none) {q : Seq} (hw : q.wait = none)
    (hpc : ∀ i, q.cmd = some i → q.pc < (sequenceOf s.cfg i).length) : { s with seq := q }.Inv :=
  { h with
    readyWaits := fun _ => hw
    flightWaited := by simp [hf]
    completedSeen := by simp [hw]
    pcInTable := hpc }

/-- The response of a block that waits for nothing. -/
theorem respond_inv {s : State} (h : s.Inv) (hw : s.seq.wait = none) (k : RespKind) (v : Byte) : (respond k v s).Inv :=
  { placed_inv h (h.inflight_none hw) (q := Seq.idle) rfl (by simp) with }

/-- The acceptance of a command that has a table, by a ready block. -/
theorem accept_inv {s : State} (h : s.Inv) (hc : s.seq.cmd = none) {i : Instr} (hi : sequenceOf s.cfg i ≠ []) :
    (accept i s).Inv :=
  { placed_inv h (h.inflight_none (h.readyWaits hc)) (q := ⟨some i, 0, 0#8, none⟩) rfl (fun j hj => by
      obtain rfl : i = j := Option.some.inj hj
      exact List.length_pos_iff.mpr hi) with }

theorem raiseIllegal_inv {s : State} (h : s.Inv) (c : IllegalCause) : (raiseIllegal c s).Inv := { h with }

theorem writeBuf_inv {s : State} (h : s.Inv) (k v : Byte) : (writeBuf k v s).Inv :=
  { h with bufWf := writeBuf_wf h.bufWf }

/-- The contract of a primitive names the state it may be launched in (40_bus_driver_primitives.md R135). -/
theorem contract_none {p : Prim} {s : State} (h : contract p s = none) :
    s.initialized = true ∧ s.inflight = none ∧ legalPhase p s.phase := by
  unfold contract at h
  split at h
  · cases h
  next hi =>
  split at h
  · cases h
  next hf =>
  refine ⟨by simpa using hi, by simpa using hf, ?_⟩
  cases p with
  | start => trivial
  | stop | txa _ | txb _ | rx _ => simpa using h

/-- A launch whose contract holds. -/
theorem launch_inv {s : State} {p : Prim} (h : s.Inv) (hc : s.seq.cmd ≠ none) (hk : contract p s = none) :
    (launch p s).Inv := by
  obtain ⟨hinit, -, hlegal⟩ := contract_none hk
  have hp : ∀ q, (launch p s).inflight = some q → p = q := fun q hq => Option.some.inj hq
  exact { h with
    ctrlReserved := ctrlReserved_launch _ _ _
    readyWaits := fun hn => absurd hn hc
    flightWaited := fun q hq => hq
    flightUnseen := fun q hq => by obtain rfl := hp q hq; exact completionSeen_launch _ _ _
    flightLegal := fun q hq => by obtain rfl := hp q hq; exact hlegal
    completedSeen := fun _ _ hn => by cases hn
    stoStop := fun hs => congrArg some (ctrlSto_launch hs)
    quietBeforeInit := fun hn => nomatch hinit.symm.trans hn }

/-- Completion takes STO back with a STOP, and leaves it with any other primitive (10_state.md R27). -/
theorem ctrlField_sto_complete (l : Config.CtrlLayout) (p : Prim) (c : Byte) :
    ctrlField l .sto (ctrlComplete l p c) = (decide (p ≠ .stop) && ctrlField l .sto c) := by
  cases p <;> simp [ctrlComplete]

/-- The completion of the primitive in flight, whose flag it raises (R136). -/
theorem complete_inv {s : State} {p : Prim} (h : s.Inv) (hf : s.inflight = some p) (a : Answer) :
    (complete p a s).Inv :=
  { h with
    ctrlReserved := ctrlReserved_complete p h.ctrlReserved
    flightWaited := by simp
    flightUnseen := by simp
    flightLegal := by simp
    completedSeen := fun q hq _ => by
      obtain rfl : p = q := Option.some.inj ((h.flightWaited p hf).symm.trans hq)
      exact completionSeen_complete _ _ _
    stoStop := fun hs => by
      rw [complete_cfg, complete_ctrl, ctrlField_sto_complete, Bool.and_eq_true, decide_eq_true_iff] at hs
      obtain ⟨hp, hsto⟩ := hs
      exact absurd (Option.some.inj (hf.symm.trans (h.stoStop hsto))) hp
    quietBeforeInit := fun hn => by
      obtain ⟨-, -, hnone⟩ := h.quietBeforeInit hn
      exact nomatch hf.symm.trans hnone }

/-- A poll changes the environment and takes free values, and nothing else (20_memory.md R72). -/
theorem pollEnv_state (p : Prim) (s : State) :
    (pollEnv p s).2 = { s with env := (pollEnv p s).2.env, draws := (pollEnv p s).2.draws } := by
  unfold pollEnv; split <;> rfl

theorem pollEnv_inv {s : State} (h : s.Inv) (p : Prim) : (pollEnv p s).2.Inv := by
  have henv := pollEnv_wf (p := p) (fun d hd => ⟨h.memWf d hd, h.offsetsFit d hd⟩)
  rw [pollEnv_state]
  exact { h with
    memWf := fun d hd => (henv d hd).1
    offsetsFit := fun d hd => (henv d hd).2 }

/-- Everything the bus engine's turn can do: nothing is in flight, no outcome has come, or the primitive completes. -/
theorem busTurn_cases (s : State) :
    (s.inflight = none ∧ busTurn s = s) ∨
    ∃ p, s.inflight = some p ∧
      (busTurn s = (pollEnv p s).2 ∨ ∃ a, (pollEnv p s).1 = some a ∧ busTurn s = complete p a (pollEnv p s).2) := by
  unfold busTurn
  cases s.inflight with
  | none => exact .inl ⟨rfl, rfl⟩
  | some p =>
    refine .inr ⟨p, rfl, ?_⟩
    dsimp only
    cases (pollEnv p s).1 with
    | none => exact .inl rfl
    | some a => exact .inr ⟨a, rfl, rfl⟩

theorem busTurn_inv {s : State} (h : s.Inv) : (busTurn s).Inv := by
  obtain ⟨-, he⟩ | ⟨p, hf, he | ⟨a, -, he⟩⟩ := busTurn_cases s <;> rw [he]
  · exact h
  · exact pollEnv_inv h p
  · exact complete_inv (pollEnv_inv h p) (by simpa using hf) a

theorem latchResult_inv {s : State} (h : s.Inv) (p : Prim) : (latchResult p s).Inv := by
  cases p with
  | rx _ => exact { h with }
  | start | stop | txa _ | txb _ => exact h

theorem emitTrace_inv {s : State} (h : s.Inv) : (emitTrace s).Inv := by
  unfold emitTrace
  split
  · exact { h with }
  · exact h

/-- The next turn of a loop stands at the loop's entry or at the one after it, which is in the table too. -/
theorem countLoop_inv {s : State} (h : s.Inv) (hf : s.inflight = none) (hw : s.seq.wait = none)
    (hpc : ∀ i, s.seq.cmd = some i → s.seq.pc + 1 < (sequenceOf s.cfg i).length) (len : Byte) : (countLoop len s).Inv := by
  refine placed_inv h hf hw fun i hi => ?_
  have := hpc i hi
  dsimp only
  split <;> omega

/-- After an entry that has launched a primitive there is another (41_eeprom_client_transactions.md R171, R187). -/
theorem finishEntry_inv {s : State} {i : Instr} {act : SeqAct} (h : s.Inv) (hf : s.inflight = none)
    (hw : s.seq.wait = none) (hc : s.seq.cmd = some i) (ha : (sequenceOf s.cfg i)[s.seq.pc]? = some act) :
    (finishEntry act s).Inv := by
  have hnext : ((∃ p, act = .prim p) ∨ (∃ l, act = .sendBuf l) ∨ ∃ l, act = .recvBuf l) →
      ∀ j, s.seq.cmd = some j → s.seq.pc + 1 < (sequenceOf s.cfg j).length := by
    intro hact j hj
    obtain rfl : i = j := Option.some.inj (hc.symm.trans hj)
    exact sequenceOf_next ha hact
  cases act with
  | prim p => exact placed_inv h hf hw (hnext (.inl ⟨p, rfl⟩))
  | sendBuf len => exact countLoop_inv h hf hw (hnext (.inr (.inl ⟨len, rfl⟩))) len
  | recvBuf len => exact countLoop_inv (writeBuf_inv h _ _) hf hw (hnext (.inr (.inr ⟨len, rfl⟩))) len
  | untilAck | respondOk | respondResult => exact h

/-- The sequencer sees a completion when nothing is in flight any more. -/
theorem observe_inv {s : State} {i : Instr} {act : SeqAct} (h : s.Inv) (hf : s.inflight = none)
    (hc : s.seq.cmd = some i) (ha : (sequenceOf s.cfg i)[s.seq.pc]? = some act) (p : Prim) : (observe act p s).Inv := by
  have hplaced : { s with seq := { s.seq with wait := none } }.Inv := placed_inv h hf rfl h.pcInTable
  exact finishEntry_inv (i := i) (emitTrace_inv (latchResult_inv hplaced p)) (by simpa using hf) (by simp)
    (by simpa using hc) (by simpa using ha)

/-! ### Moves, commands, steps -/

theorem move_inv {s t : State} (h : s.Inv) (hm : move s = .next t) : t.Inv := by
  obtain ⟨-, rfl⟩ | ⟨i, hc, ⟨-, rfl⟩ | ⟨act, ha, hact⟩⟩ := move_cases hm
  · exact h
  · exact h
  obtain ⟨hw, ⟨p, -, hk, rfl⟩ | ⟨k, v, -, rfl⟩ | ⟨-, -, rfl⟩⟩ | ⟨p, hw, hseen, rfl⟩ | ⟨p, -, -, rfl⟩ := hact
  · exact launch_inv h (by simp [hc]) hk
  · exact respond_inv h hw k v
  · exact placed_inv h (h.inflight_none hw) hw fun j hj => Nat.zero_lt_of_lt (h.pcInTable j hj)
  · have hf : s.inflight = none := by
      by_contra hne
      obtain ⟨q, hq⟩ := Option.ne_none_iff_exists'.mp hne
      obtain rfl : p = q := Option.some.inj (hw.symm.trans (h.flightWaited q hq))
      exact nomatch hseen.symm.trans (h.flightUnseen p hq)
    exact observe_inv h hf hc ha p
  · exact busTurn_inv h

theorem runMoves_inv {n : Nat} {s t : State} (h : s.Inv) (hm : runMoves n s = .next t) : t.Inv :=
  runMoves_induct (fun _ _ hu hv => move_inv hu hv) h hm

/-- A command executed by a ready block. -/
theorem exec_inv {s t : State} {i : Instr} (h : s.Inv) (hc : s.seq.cmd = none) (hx : exec i s = .next t) : t.Inv := by
  have hw := h.readyWaits hc
  obtain ⟨htable, hrun⟩ | rfl | ⟨f, d, -, -, -, rfl⟩ | ⟨k, v, rfl⟩ | ⟨en, -, rfl⟩ | ⟨k, v, -, rfl⟩ := exec_cases hx
  · exact runMoves_inv (accept_inv h hc htable) hrun
  · exact raiseIllegal_inv h _
  · have hinit : { s with rate := d, initialized := true }.Inv := { h with quietBeforeInit := by simp }
    exact respond_inv hinit hw _ _
  · exact respond_inv h hw k v
  · have htrace : { s with traceEn := en }.Inv := { h with }
    exact respond_inv htrace hw _ _
  · exact respond_inv (writeBuf_inv h k v) hw _ _

/-- The invariant does not speak of what the host has to come. -/
theorem inputs_inv {s : State} (h : s.Inv) (port : List CmdWord) (pins : List Bool) :
    { s with port := port, resetPin := pins }.Inv := { h with }

/-- Settles O59: the reset event, the moves of a command in progress, an idle step, the execution of a command and the
rejection of a word each keep the invariant. -/
theorem stepKeepsInvariant : Obligations.StepKeepsInvariant := by
  unfold Obligations.StepKeepsInvariant
  intro s t h hs
  obtain ⟨pins, -, rfl⟩ | ⟨-, ⟨-, hrun⟩ | ⟨-, -, rfl⟩ | ⟨w, ws, hc, -, ⟨i, -, hx⟩ | ⟨c, -, rfl⟩⟩⟩ := step_cases hs
  · exact resetEvent_inv (inputs_inv h _ pins)
  · exact runMoves_inv (inputs_inv h _ _) hrun
  · exact inputs_inv h _ _
  · exact exec_inv (inputs_inv h ws _) hc hx
  · exact raiseIllegal_inv (inputs_inv h ws _) c

end Sys2Proof.Machine
end

section
/-! PROOFS. What outlives everything but a reset: the configuration, the prescaler bits of STATUS, INIT and its divisor, the
histories; and the values right after reset. -/

namespace Sys2Proof.Machine

/-- `t` has the configuration, the prescaler bits and the programming of INIT that `s` has, and its histories go on from
those of `s` (10_state.md R29, R30, R35, R38). -/
structure State.Continues (s t : State) : Prop where
  cfg : t.cfg = s.cfg
  statusPs : statusPs s.cfg t.status = statusPs s.cfg s.status
  initialized : t.initialized = s.initialized
  rate : t.rate = s.rate
  busHistory : s.busHistory <+: t.busHistory
  diagHistory : s.diagHistory <+: t.diagHistory

theorem State.Continues.refl (s : State) : s.Continues s := ⟨rfl, rfl, rfl, rfl, List.prefix_rfl, List.prefix_rfl⟩

theorem State.Continues.trans {s t u : State} (h : s.Continues t) (h' : t.Continues u) : s.Continues u where
  cfg := h'.cfg.trans h.cfg
  statusPs := (h.cfg ▸ h'.statusPs).trans h.statusPs
  initialized := h'.initialized.trans h.initialized
  rate := h'.rate.trans h.rate
  busHistory := h.busHistory.trans h'.busHistory
  diagHistory := h.diagHistory.trans h'.diagHistory

/-- A completion writes the status code and appends its event (40_bus_driver_primitives.md R136). -/
theorem complete_continues (p : Prim) (a : Answer) (s : State) : s.Continues (complete p a s) :=
  ⟨rfl, statusPs_withCode _ _ _, rfl, rfl, List.prefix_append _ _, List.prefix_rfl⟩

theorem pollEnv_continues (p : Prim) (s : State) : s.Continues (pollEnv p s).2 := by
  rw [pollEnv_state]
  exact { State.Continues.refl s with }

theorem busTurn_continues (s : State) : s.Continues (busTurn s) := by
  obtain ⟨-, he⟩ | ⟨p, -, he | ⟨a, -, he⟩⟩ := busTurn_cases s <;> rw [he]
  · exact .refl s
  · exact pollEnv_continues p s
  · exact (pollEnv_continues p s).trans (complete_continues p a _)

/-- Tracing appends an event or nothing (60_exceptions.md R262). -/
theorem emitTrace_diagHistory_prefix (s : State) : s.diagHistory <+: (emitTrace s).diagHistory := by
  unfold emitTrace
  split
  · exact List.prefix_append _ _
  · exact List.prefix_rfl

theorem observe_diagHistory_prefix (act : SeqAct) (p : Prim) (s : State) :
    s.diagHistory <+: (observe act p s).diagHistory := by
  simpa [observe] using
    emitTrace_diagHistory_prefix (latchResult p { s with seq := { s.seq with wait := none } })

theorem move_continues {s t : State} (h : move s = .next t) : s.Continues t := by
  obtain ⟨-, rfl⟩ | ⟨i, -, ⟨-, rfl⟩ | ⟨act, -, hact⟩⟩ := move_cases h
  · exact .refl _
  · exact .refl _
  obtain ⟨-, ⟨p, -, -, rfl⟩ | ⟨k, v, -, rfl⟩ | ⟨-, -, rfl⟩⟩ | ⟨p, -, -, rfl⟩ | ⟨p, -, -, rfl⟩ := hact
  · exact { State.Continues.refl s with }
  · exact { State.Continues.refl s with }
  · exact { State.Continues.refl s with }
  · exact ⟨by simp, by simp, by simp, by simp, by simp, observe_diagHistory_prefix act p s⟩
  · exact busTurn_continues s

theorem runMoves_continues {n : Nat} {s t : State} (h : runMoves n s = .next t) : s.Continues t :=
  runMoves_induct (fun _ _ hu hm => hu.trans (move_continues hm)) (.refl s) h

/-- A block that INIT has programmed with a divisor (40_bus_driver_primitives.md R132). -/
def State.programmed (d : Byte) (s : State) : State := { s with rate := d, initialized := true }

/-- A command continues the block it finds, or is the first INIT since the reset and continues it programmed. -/
theorem exec_continues {s t : State} {i : Instr} (h : exec i s = .next t) :
    s.Continues t ∨ ∃ d, s.initialized = false ∧ (s.programmed d).Continues t := by
  obtain ⟨-, hrun⟩ | rfl | ⟨f, d, -, hi, -, rfl⟩ | ⟨k, v, rfl⟩ | ⟨en, -, rfl⟩ | ⟨k, v, -, rfl⟩ := exec_cases h
  · exact .inl { runMoves_continues hrun with }
  · exact .inl { State.Continues.refl s with }
  · exact .inr ⟨d, hi, { State.Continues.refl (s.programmed d) with }⟩
  all_goals exact .inl { State.Continues.refl s with }

/-- A step that is no reset continues the block, or is the first INIT since the reset. -/
theorem step_continues {s t : State} (hr : s.resetPin.head? ≠ some true) (h : step s = .next t) :
    s.Continues t ∨ ∃ d, s.initialized = false ∧ (s.programmed d).Continues t := by
  obtain ⟨pins, hp, -⟩ | ⟨-, ⟨-, hrun⟩ | ⟨-, -, rfl⟩ | ⟨w, ws, -, -, ⟨i, -, hx⟩ | ⟨c, -, rfl⟩⟩⟩ := step_cases h
  · simp [hp] at hr
  · exact .inl { runMoves_continues hrun with }
  · exact .inl { State.Continues.refl s with }
  · obtain hx | ⟨d, hi, hx⟩ := exec_continues hx
    · exact .inl { hx with }
    · exact .inr ⟨d, hi, { hx with }⟩
  · exact .inl { State.Continues.refl s with }

/-- Settles O55: every operation of a step but INIT and the reset event leaves the prescaler bits, RATE and `initialized`
and at most appends to the histories, and INIT programs only a block that is not initialized. -/
theorem onlyResetUndoesInit : Obligations.OnlyResetUndoesInit := by
  unfold Obligations.OnlyResetUndoesInit
  intro s t hr hs
  obtain h | ⟨d, hi, h⟩ := step_continues hr hs
  · exact ⟨h.cfg, h.statusPs, fun hi => h.initialized.trans hi, fun hne => absurd h.rate hne, h.busHistory, h.diagHistory⟩
  · exact ⟨h.cfg, h.statusPs, fun _ => h.initialized, fun _ => ⟨hi, h.initialized⟩, h.busHistory, h.diagHistory⟩

/-- A BUF in which no byte is listed gives no byte (20_memory.md R63). -/
theorem readBuf_unwritten {s : State} (h : s.buf = []) (k : Byte) : readBuf k s = none := by
  unfold readBuf
  rw [h]
  split <;> rfl

/-- Settles O15: each register is written out in State.reset, and its BUF lists no byte. -/
theorem resetStateHoldsTheTable : Obligations.ResetStateHoldsTheTable := by
  unfold Obligations.ResetStateHoldsTheTable
  exact ⟨rfl, rfl, rfl, rfl, rfl, rfl, rfl, rfl, rfl, rfl, rfl, rfl, rfl, rfl, readBuf_unwritten rfl⟩

end Sys2Proof.Machine
end

section
/-! PROOFS. The reference device: its answer to each primitive by mode, the bytes a commit leaves, and the busy window that
STOP opens. -/

namespace Sys2Proof.Machine

/-! ### The answers -/

/-- TXA and TXB are one byte to the device, which tells them apart by its mode (20_memory.md R82). -/
theorem Device.answer_byte {p : Prim} {b : Byte} (hp : p = .txa b ∨ p = .txb b) (c : Config.Params) (drawn : Byte)
    (time : Nat) (d : Device) : d.answer c drawn time p = d.cycleDone.onTx c b := by
  obtain rfl | rfl := hp <;> rfl

/-- Which byte is a control byte the device acknowledges, and how it goes on (20_memory.md R82). -/
theorem Device.onTx_control_ack {d : Device} {c : Config.Params} {b : Byte} (hm : d.mode = .control)
    (hb : d.busy = false) (ha : addressOf b = addressOf c.devAddr) :
    d.onTx c b = (.ack, { d with mode := if directionOf b = c.dirWrite then .pointer else .read }) := by
  unfold Device.onTx Device.onControl
  simp only [hm, ha, hb, if_true, Bool.false_eq_true, if_false]
  split <;> rfl

/-- The control byte of a busy device is refused, and the refusal counted (20_memory.md R82, R87). -/
theorem Device.onTx_control_busy {d : Device} {c : Config.Params} {b : Byte} (hm : d.mode = .control)
    (hb : d.busy = true) (ha : addressOf b = addressOf c.devAddr) :
    d.onTx c b = (.nak, { d.countRefusal with mode := .deaf }) := by
  simp [Device.onTx, Device.onControl, hm, ha, hb]

/-- The control byte of another device is refused (20_memory.md R82). -/
theorem Device.onTx_control_other {d : Device} {c : Config.Params} {b : Byte} (hm : d.mode = .control)
    (ha : addressOf b ≠ addressOf c.devAddr) : d.onTx c b = (.nak, { d with mode := .deaf }) := by
  simp [Device.onTx, Device.onControl, hm, ha]

theorem Device.onTx_pointer {d : Device} (hm : d.mode = .pointer) (c : Config.Params) (b : Byte) :
    d.onTx c b = (.ack, { d with ptr := deviceOffset c b.toNat, mode := .write }) := by
  simp [Device.onTx, hm]

theorem Device.onTx_write {d : Device} (hm : d.mode = .write) (c : Config.Params) (b : Byte) :
    d.onTx c b = (.ack, { d with pending := d.pending ++ [(d.ptr, b)], ptr := pageNext c d.ptr }) := by
  simp [Device.onTx, hm]

/-- A device that is not addressed for writing takes no byte (20_memory.md R88). -/
theorem Device.onTx_unaddressed {d : Device} (hm : d.mode = .idle ∨ d.mode = .deaf ∨ d.mode = .read) (c : Config.Params)
    (b : Byte) : d.onTx c b = (.nak, d) := by
  obtain hm | hm | hm := hm <;> simp [Device.onTx, hm]

theorem Device.onRx_read {d : Device} (hm : d.mode = .read) (c : Config.Params) (drawn : Byte) (ack : Bool) :
    d.onRx c drawn ack =
      (.byte (d.byteAt d.ptr),
        { d with ptr := deviceOffset c (d.ptr.toNat + 1), mode := if ack then .read else .deaf }) := by
  simp [Device.onRx, hm]

/-- Nobody drives the bus in any other mode (20_memory.md R88). -/
theorem Device.onRx_undriven {d : Device} (hm : d.mode ≠ .read) (c : Config.Params) (drawn : Byte) (ack : Bool) :
    d.onRx c drawn ack = (.byte drawn, d) := by
  unfold Device.onRx
  split
  · contradiction
  · rfl

/-- The STOP of a write with a data byte (20_memory.md R86). -/
theorem Device.onStop_write {d : Device} (hm : d.mode = .write) (hp : d.pending ≠ []) (time : Nat) :
    d.onStop time =
      (.done, { ({ d with pending := [], mode := .idle } : Device).startCycle time with
        mem := Device.commit d.mem d.pending }) := by
  unfold Device.onStop
  dsimp only
  split
  · next w ws _ he => rw [he]
  · next hno =>
    obtain ⟨w, ws, he⟩ := List.exists_cons_of_ne_nil hp
    exact absurd he (hno w ws hm)

/-- Every other STOP (20_memory.md R86). -/
theorem Device.onStop_plain {d : Device} (h : d.mode ≠ .write ∨ d.pending = []) (time : Nat) :
    d.onStop time = (.done, { d with pending := [], mode := .idle }) := by
  unfold Device.onStop
  dsimp only
  split
  · next hm hp => simp [hm, hp] at h
  · rfl

/-- The busy window is all that opening it touches (20_memory.md R87). -/
theorem Device.startCycle_eq (time : Nat) (d : Device) :
    d.startCycle time = { d with busy := (d.startCycle time).busy, polls := (d.startCycle time).polls } := by
  unfold Device.startCycle; split <;> rfl

/-- The counter form of R87: `busy_polls` refusals. -/
theorem Device.startCycle_counter {d : Device} {n : Nat} (h : d.busyPolls = some n) (time : Nat) :
    d.startCycle time = { d with busy := decide (0 < n), polls := n } := by
  simp [Device.startCycle, h]

/-- The form of R87 without a counter. -/
theorem Device.startCycle_free {d : Device} (h : d.busyPolls = none) (time : Nat) :
    d.startCycle time = { d with busy := true, polls := time } := by
  simp [Device.startCycle, h]

/-- STOP is always answered done (20_memory.md R86). -/
theorem Device.onStop_done (time : Nat) (d : Device) : (d.onStop time).1 = .done := by
  by_cases h : d.mode ≠ .write ∨ d.pending = []
  · rw [Device.onStop_plain h]
  · rw [not_or, not_not] at h
    rw [Device.onStop_write h.1 h.2]

/-- The device acknowledges a byte or refuses it (20_memory.md R82, R88). -/
theorem Device.onTx_ack_or_nak (c : Config.Params) (b : Byte) (d : Device) :
    (d.onTx c b).1 = .ack ∨ (d.onTx c b).1 = .nak := by
  cases hm : d.mode with
  | control =>
    by_cases ha : addressOf b = addressOf c.devAddr
    · cases hb : d.busy with
      | false => exact .inl (by rw [Device.onTx_control_ack hm hb ha])
      | true => exact .inr (by rw [Device.onTx_control_busy hm hb ha])
    · exact .inr (by rw [Device.onTx_control_other hm ha])
  | pointer => exact .inl (by rw [Device.onTx_pointer hm])
  | write => exact .inl (by rw [Device.onTx_write hm])
  | idle | deaf | read => exact .inr (by rw [Device.onTx_unaddressed (by simp [hm])])

/-- The device gives a byte: its own, or the one nobody drives (20_memory.md R85, R88). -/
theorem Device.onRx_byte (c : Config.Params) (drawn : Byte) (ack : Bool) (d : Device) :
    ∃ v, (d.onRx c drawn ack).1 = .byte v := by
  by_cases hm : d.mode = .read
  · exact ⟨_, by rw [Device.onRx_read hm]⟩
  · exact ⟨_, by rw [Device.onRx_undriven hm]⟩

/-- The device never takes the bus from the master (20_memory.md R88). -/
theorem Device.answer_ne_arbLost (c : Config.Params) (drawn : Byte) (time : Nat) (p : Prim) (d : Device) :
    (d.answer c drawn time p).1 ≠ .arbLost := by
  have hbyte : ∀ b, (d.cycleDone.onTx c b).1 ≠ .arbLost := fun b h => by
    obtain he | he := Device.onTx_ack_or_nak c b d.cycleDone <;> simp [he] at h
  cases p with
  | start => exact fun h => by cases h
  | stop => exact fun h => nomatch (Device.onStop_done time d.cycleDone).symm.trans h
  | txa b => exact hbyte b
  | txb b => exact hbyte b
  | rx ack =>
    obtain ⟨v, hv⟩ := Device.onRx_byte c drawn ack d.cycleDone
    exact fun h => nomatch hv.symm.trans h

/-- Settles O39: a control byte is acknowledged when it has the device's address and the device is not busy. -/
theorem deviceAnswersControlByte : Obligations.DeviceAnswersControlByte := by
  unfold Obligations.DeviceAnswersControlByte
  intro d c drawn b time hm p hp
  rw [Device.answer_byte hp]
  have hm' : d.cycleDone.mode = .control := by rw [Device.cycleDone_mode, hm]
  refine ⟨fun hb ha => ?_, fun hor => ?_⟩
  · rw [Device.onTx_control_ack hm' hb ha]
    exact ⟨rfl, rfl⟩
  · by_cases ha : addressOf b = addressOf c.devAddr
    · have hb : d.cycleDone.busy = true := hor.resolve_right (not_not.mpr ha)
      rw [Device.onTx_control_busy hm' hb ha]
      simp
    · rw [Device.onTx_control_other hm' ha]
      simp

/-- With the table's `EEPROM_SIZE` a byte is the offset it is (20_memory.md R83, R85). -/
theorem deviceOffset_of_size_256 {c : Config.Params} (h : c.eepromSize = 256) (n : Nat) :
    deviceOffset c n = BitVec.ofNat 8 n := by
  apply BitVec.eq_of_toNat_eq
  rw [deviceOffset_toNat, h, BitVec.toNat_ofNat]

/-- Settles O40: each mode's answer, and the wraps at the table's sizes. -/
theorem deviceMovesBytes : Obligations.DeviceMovesBytes := by
  unfold Obligations.DeviceMovesBytes
  rintro d e c drawn b time ack rfl
  refine ⟨fun p hp => ?_, fun hm => ?_, fun hm => ?_, fun p => Device.answer_ne_arbLost c drawn time p d,
    Device.cycleDone_idle, Device.cycleDone_eq d, fun h => ?_, fun h => pageNext_eight h d.ptr⟩
  · rw [Device.answer_byte hp]
    refine ⟨fun hm => Device.onTx_pointer (by simpa using hm) c b, fun hm => ?_,
      fun hm => Device.onTx_unaddressed (by simpa using hm) c b⟩
    rw [Device.onTx_write (by simpa using hm), Device.cycleDone_pending, Device.cycleDone_ptr]
    rfl
  · change d.cycleDone.onRx c drawn ack = _
    rw [Device.onRx_read (by simpa using hm)]
    simp
  · exact Device.onRx_undriven (by simpa using hm) c drawn ack
  · rw [deviceOffset_of_size_256 h, deviceOffset_of_size_256 h]
    exact ⟨by simp, BitVec.eq_of_toNat_eq (by simp)⟩

/-! ### The bytes a commit leaves -/

/-- The bytes of a device are those of its `mem`. -/
theorem Device.byteAt_congr {d e : Device} (h : d.mem = e.mem) (o : Byte) : d.byteAt o = e.byteAt o := by
  unfold Device.byteAt; rw [h]

/-- After a commit an offset has the last byte committed to it, or the byte it had (20_memory.md R86). -/
theorem Device.byteAt_commit (pending : List (Byte × Byte)) (d : Device) (o : Byte) :
    ({ d with mem := Device.commit d.mem pending } : Device).byteAt o =
      (((pending.filter (fun w => w.1 = o)).getLast?).map Prod.snd).getD (d.byteAt o) := by
  induction pending generalizing d with
  | nil => rfl
  | cons w ws ih =>
    have hw := Device.byteAt_write d w.1 o w.2
    refine (ih { d with mem := Memory.write eepromBlank d.mem w.1.toNat w.2 }).trans ?_
    by_cases h : w.1 = o
    · rw [hw, List.filter_cons_of_pos (by simpa using h), List.getLast?_cons, if_pos h.symm]
      cases (ws.filter (fun w => w.1 = o)).getLast? <;> rfl
    · rw [hw, List.filter_cons_of_neg (by simpa using h), if_neg (Ne.symm h)]

/-- The last byte committed to an offset stands there (20_memory.md R86). -/
theorem Device.byteAt_commit_last {before after : List (Byte × Byte)} {o v : Byte} (h : ∀ w ∈ after, w.1 ≠ o)
    (d : Device) :
    ({ d with mem := Device.commit d.mem (before ++ (o, v) :: after) } : Device).byteAt o = v := by
  have hafter : after.filter (fun w => w.1 = o) = [] := by simpa using h
  rw [Device.byteAt_commit, List.filter_append, List.filter_cons_of_pos (by simp), hafter]
  simp

/-- An offset to which nothing is committed keeps its byte. -/
theorem Device.byteAt_commit_other {pending : List (Byte × Byte)} {o : Byte} (h : ∀ w ∈ pending, w.1 ≠ o) (d : Device) :
    ({ d with mem := Device.commit d.mem pending } : Device).byteAt o = d.byteAt o := by
  have hnone : pending.filter (fun w => w.1 = o) = [] := by simpa using h
  rw [Device.byteAt_commit, hnone]
  rfl

/-- The busy window that `busyPolls` names is open in `d'` (20_memory.md R87). -/
structure Device.WindowOpen (busyPolls : Option Nat) (d' : Device) : Prop where
  counter : ∀ n, busyPolls = some n → d'.busy = decide (0 < n) ∧ d'.polls = n
  free : busyPolls = none → d'.busy = true

theorem Device.startCycle_windowOpen (time : Nat) (d : Device) : (d.startCycle time).WindowOpen d.busyPolls where
  counter n h := by rw [Device.startCycle_counter h]; exact ⟨rfl, rfl⟩
  free h := by rw [Device.startCycle_free h]

/-- The device after the STOP of a write with a data byte (20_memory.md R86, R87). -/
structure Device.Committed (d d' : Device) : Prop where
  mode : d'.mode = .idle
  pending : d'.pending = []
  ptr : d'.ptr = d.ptr
  busyPolls : d'.busyPolls = d.busyPolls
  window : d'.WindowOpen d.busyPolls
  mem : d'.mem = Device.commit d.mem d.pending

theorem Device.onStop_committed {d : Device} (hm : d.mode = .write) (hp : d.pending ≠ []) (time : Nat) :
    d.Committed (d.onStop time).2 := by
  have hw := Device.startCycle_windowOpen time { d with pending := [], mode := .idle }
  rw [Device.onStop_write hm hp]
  constructor
  case window => exact ⟨hw.counter, hw.free⟩
  case mem => rfl
  all_goals (dsimp only; rw [Device.startCycle_eq])

/-- The bytes after the STOP of a write with a data byte are those of the commit. -/
theorem Device.Committed.byteAt {d d' : Device} (h : d.Committed d') (o : Byte) :
    d'.byteAt o = ({ d with mem := Device.commit d.mem d.pending } : Device).byteAt o :=
  Device.byteAt_congr h.mem o

/-- Settles O41: a write with a data byte commits and opens the window, every other STOP does neither. -/
theorem stopOpensTheBusyWindow : Obligations.StopOpensTheBusyWindow := by
  unfold Obligations.StopOpensTheBusyWindow
  intro d c drawn time
  refine ⟨fun hm hp => ?_, fun h => Device.onStop_plain (by simpa using h) time⟩
  have hc := Device.onStop_committed (d := d.cycleDone) (by simpa using hm) (by simpa using hp) time
  refine ⟨_, Prod.ext (Device.onStop_done time d.cycleDone) rfl, hc.mode, hc.pending, ?_, ?_, ?_, ?_, fun o => ?_⟩
  · exact hc.ptr.trans (Device.cycleDone_ptr d)
  · exact hc.busyPolls.trans (Device.cycleDone_busyPolls d)
  · exact fun n hn => hc.window.counter n (by simpa using hn)
  · exact fun hn => hc.window.free (by simpa using hn)
  · refine (hc.byteAt o).trans ?_
    rw [Device.byteAt_commit, Device.cycleDone_pending, Device.cycleDone_byteAt]

end Sys2Proof.Machine
end

section
/-! PROOFS. What every run keeps: the reference device stays on the bus, and BUF stays as it is outside SEQ_RD and BUF_WR. -/

namespace Sys2Proof.Machine

/-! ### The reference device stays on the bus -/

theorem busTurn_referenceDevice {s : State} (h : s.env.referenceDevice) : (busTurn s).env.referenceDevice := by
  obtain ⟨-, he⟩ | ⟨p, -, he | ⟨a, -, he⟩⟩ := busTurn_cases s <;> rw [he]
  · exact h
  · exact pollEnv_referenceDevice h
  · exact pollEnv_referenceDevice h

/-- Only the bus engine's turn touches the environment (20_memory.md R72). -/
theorem move_referenceDevice {s t : State} (h : s.env.referenceDevice) (hm : move s = .next t) :
    t.env.referenceDevice := by
  obtain ⟨-, rfl⟩ | ⟨i, -, ⟨-, rfl⟩ | ⟨act, -, hact⟩⟩ := move_cases hm
  · exact h
  · exact h
  obtain ⟨-, ⟨p, -, -, rfl⟩ | ⟨k, v, -, rfl⟩ | ⟨-, -, rfl⟩⟩ | ⟨p, -, -, rfl⟩ | ⟨p, -, -, rfl⟩ := hact
  · exact h
  · exact h
  · exact h
  · rwa [observe_env]
  · exact busTurn_referenceDevice h

theorem runMoves_referenceDevice {n : Nat} {s t : State} (h : s.env.referenceDevice) (hm : runMoves n s = .next t) :
    t.env.referenceDevice :=
  runMoves_induct (fun _ _ hu hv => move_referenceDevice hu hv) h hm

theorem exec_referenceDevice {s t : State} {i : Instr} (h : s.env.referenceDevice) (hx : exec i s = .next t) :
    t.env.referenceDevice := by
  obtain ⟨-, hrun⟩ | rfl | ⟨f, d, -, -, -, rfl⟩ | ⟨k, v, rfl⟩ | ⟨en, -, rfl⟩ | ⟨k, v, -, rfl⟩ := exec_cases hx
  · exact runMoves_referenceDevice (s := accept i s) h hrun
  all_goals exact h

theorem step_referenceDevice {s t : State} (h : s.env.referenceDevice) (hs : step s = .next t) :
    t.env.referenceDevice := by
  obtain ⟨pins, -, rfl⟩ | ⟨-, ⟨-, hrun⟩ | ⟨-, -, rfl⟩ | ⟨w, ws, -, -, ⟨i, -, hx⟩ | ⟨c, -, rfl⟩⟩⟩ := step_cases hs
  · exact h
  · exact runMoves_referenceDevice (s := { s with resetPin := s.resetPin.tail }) h hrun
  · exact h
  · exact exec_referenceDevice (s := { s with port := ws, resetPin := s.resetPin.tail }) h hx
  · exact h

theorem State.Later.referenceDevice {s t : State} (hl : s.Later t) (h : s.env.referenceDevice) :
    t.env.referenceDevice := by
  induction hl with
  | refl => exact h
  | step _ hs ih => exact step_referenceDevice ih hs
  | host port pins pace _ ih => exact ih

/-- One turn of the bus engine completes the primitive in flight against the reference device (20_memory.md R88). -/
theorem busTurn_completes {s : State} (h : s.env.referenceDevice) : (busTurn s).inflight = none := by
  obtain ⟨d, hd⟩ := h
  unfold busTurn
  cases hf : s.inflight with
  | none => exact hf
  | some p => simp [pollEnv_device hd]

/-- Settles O42: the device stays on the bus, answers each primitive at its first poll and never takes the bus. -/
theorem deviceIsResponsiveSingleMaster : Obligations.DeviceIsResponsiveSingleMaster := by
  unfold Obligations.DeviceIsResponsiveSingleMaster
  intro s h
  refine ⟨fun t p hl _ => ⟨1, busTurn_completes (hl.referenceDevice h)⟩, ?_, fun n t p hrun => ?_⟩
  · obtain ⟨d, hd⟩ := h
    rw [hd]
    trivial
  · obtain ⟨d, hd⟩ := runMoves_referenceDevice h hrun
    rw [pollEnv_device hd]
    exact fun he => Device.answer_ne_arbLost _ _ _ p d (Option.some.inj he)

/-! ### Who writes BUF -/

/-- The block executes SEQ_RD, the one bus command that stores to BUF (41_eeprom_client_transactions.md R185). -/
def State.inSeqRd (s : State) : Prop := ∃ a l, s.seq.cmd = some (.seqRd a l)

/-- Only the table of SEQ_RD has an entry that stores a byte. -/
theorem seqRd_of_recvBuf {c : Config.Params} {i : Instr} {l : Byte} (h : .recvBuf l ∈ sequenceOf c i) :
    ∃ a, i = .seqRd a l := by
  cases i with
  | seqRd a m =>
    obtain rfl : l = m := by simpa [sequenceOf, seqRdSeq, openWrite, turnRead] using h
    exact ⟨a, rfl⟩
  | init _ | status | decode _ | trace _ | regRd _ | bufWr _ _ | bufRd _ => cases h
  | start | stop | txa _ _ | txb _ | rx _ | rdByte _ | wrByte _ _ | wrPage _ _ | waitWc =>
    simp [sequenceOf, startSeq, stopSeq, txaSeq, txbSeq, rxSeq, rdByteSeq, wrByteSeq, wrPageSeq, waitWcSeq, openWrite,
      turnRead] at h

/-- Every entry but that of SEQ_RD leaves BUF alone when its primitive has completed. -/
theorem observe_buf {act : SeqAct} (h : ∀ l, act ≠ .recvBuf l) (p : Prim) (s : State) :
    (observe act p s).buf = s.buf := by
  cases act with
  | recvBuf l => exact absurd rfl (h l)
  | prim _ | sendBuf _ | untilAck | respondOk | respondResult => simp [observe, finishEntry]

/-- The command stays the one executing while its entries complete. -/
@[simp] theorem observe_cmd (act : SeqAct) (p : Prim) (s : State) : (observe act p s).seq.cmd = s.seq.cmd := by
  cases act <;> simp [observe, finishEntry]

/-- A move goes on with the command or ends it (30_encoding.md R100). -/
theorem move_cmd {s t : State} (h : move s = .next t) : t.seq.cmd = s.seq.cmd ∨ t.seq.cmd = none := by
  obtain ⟨-, rfl⟩ | ⟨i, -, ⟨-, rfl⟩ | ⟨act, -, hact⟩⟩ := move_cases h
  · exact .inl rfl
  · exact .inl rfl
  obtain ⟨-, ⟨p, -, -, rfl⟩ | ⟨k, v, -, rfl⟩ | ⟨-, -, rfl⟩⟩ | ⟨p, -, -, rfl⟩ | ⟨p, -, -, rfl⟩ := hact
  · exact .inl rfl
  · exact .inr rfl
  · exact .inl rfl
  · exact .inl (observe_cmd act p s)
  · exact .inl (by rw [busTurn_seq])

theorem move_buf {s t : State} (hn : ¬s.inSeqRd) (h : move s = .next t) : t.buf = s.buf := by
  obtain ⟨-, rfl⟩ | ⟨i, hc, ⟨-, rfl⟩ | ⟨act, ha, hact⟩⟩ := move_cases h
  · rfl
  · rfl
  obtain ⟨-, ⟨p, -, -, rfl⟩ | ⟨k, v, -, rfl⟩ | ⟨-, -, rfl⟩⟩ | ⟨p, -, -, rfl⟩ | ⟨p, -, -, rfl⟩ := hact
  · rfl
  · rfl
  · rfl
  · refine observe_buf (fun l hl => hn ?_) p s
    obtain ⟨a, rfl⟩ := seqRd_of_recvBuf (hl ▸ List.mem_of_getElem? ha)
    exact ⟨a, l, hc⟩
  · exact busTurn_buf s

/-- The moves of every command but SEQ_RD leave BUF alone (20_memory.md R62). -/
theorem runMoves_buf {n : Nat} {s t : State} (hn : ¬s.inSeqRd) (h : runMoves n s = .next t) : t.buf = s.buf := by
  refine (runMoves_induct (P := fun u => u.buf = s.buf ∧ ¬u.inSeqRd) (fun u v ⟨hb, hu⟩ hm => ?_) ⟨rfl, hn⟩ h).1
  refine ⟨(move_buf hu hm).trans hb, fun ⟨a, l, hv⟩ => ?_⟩
  obtain hc | hc := move_cmd hm
  · exact hu ⟨a, l, hc.symm.trans hv⟩
  · exact nomatch hc.symm.trans hv

/-- Every command but SEQ_RD and BUF_WR leaves BUF alone (20_memory.md R62). -/
theorem exec_buf {s t : State} {i : Instr} (h : exec i s = .next t) (hn : t.buf ≠ s.buf) :
    (∃ a l, i = .seqRd a l) ∨ ∃ k v, i = .bufWr k v := by
  obtain ⟨-, hrun⟩ | rfl | ⟨f, d, -, -, -, rfl⟩ | ⟨k, v, rfl⟩ | ⟨en, -, rfl⟩ | ⟨k, v, rfl, -⟩ := exec_cases h
  · by_contra hi
    refine hn (runMoves_buf (s := accept i s) (fun ⟨a, l, hc⟩ => hi (.inl ⟨a, l, Option.some.inj hc⟩)) hrun)
  · exact absurd rfl hn
  · exact absurd rfl hn
  · exact absurd rfl hn
  · exact absurd rfl hn
  · exact .inr ⟨k, v, rfl⟩

/-- Settles O56: moves write BUF inside SEQ_RD only, and of the other commands BUF_WR alone does. -/
theorem onlyBufWrAndSeqRdWriteBuf : Obligations.OnlyBufWrAndSeqRdWriteBuf := by
  unfold Obligations.OnlyBufWrAndSeqRdWriteBuf
  intro s t hs hn
  obtain ⟨pins, -, rfl⟩ | ⟨-, ⟨-, hrun⟩ | ⟨-, -, rfl⟩ | ⟨w, ws, hc, hp, ⟨i, hd, hx⟩ | ⟨c, -, rfl⟩⟩⟩ := step_cases hs
  · exact absurd rfl hn
  · by_contra hi
    exact hn (runMoves_buf (s := { s with resetPin := s.resetPin.tail }) (fun hq => hi (.inl hq)) hrun)
  · exact absurd rfl hn
  · refine .inr ⟨w, ws, hc, hp, ?_⟩
    obtain ⟨a, l, rfl⟩ | ⟨k, v, rfl⟩ := exec_buf hx hn
    · exact .inl ⟨a, l, hd⟩
    · exact .inr ⟨k, v, hd⟩
  · exact absurd rfl hn

end Sys2Proof.Machine
end

section
/-! PROOFS. The walk of a command's table, entry by entry, against an environment whose replies are known: where it stands
between two entries, what one primitive does to that, and the parts the transactions share. -/

namespace Sys2Proof.Machine

/-! ### Runs of a known number of moves -/

/-- `k` moves lead from `s` to `t`, and the run goes on from there. -/
def MovesTo (k : Nat) (s t : State) : Prop := ∀ n, runMoves (n + k) s = runMoves n t

theorem MovesTo.refl (s : State) : MovesTo 0 s s := fun _ => rfl

theorem MovesTo.trans {j k : Nat} {s t u : State} (h : MovesTo j s t) (h' : MovesTo k t u) : MovesTo (j + k) s u := by
  intro n
  rw [Nat.add_comm j k, ← Nat.add_assoc, h, h']

theorem MovesTo.next {k : Nat} {s t : State} (h : MovesTo k s t) : runMoves k s = .next t := by
  have := h 0
  rwa [Nat.zero_add] at this

/-- A command whose walk ends one move after `k`, in a response or a refusal, ends so at every pace that is long enough. -/
theorem MovesTo.command {k : Nat} {s t : State} {i : Instr} {o : Host.Outcome State Fault Refusal}
    (h : MovesTo k (accept i s) t) (hend : ∀ n, runMoves (n + 1) t = o) (hk : k ≤ s.pace) :
    runCommand i s = o := by
  rw [runCommand_eq, show s.pace + 1 = (s.pace - k + 1) + k by omega, h, hend]

/-! ### Where the walk stands -/

/-- Where a walk stands between two entries of its table, with what a transaction can tell of the machine there. -/
structure Place where
  cfg : Config.Params
  cmd : Instr
  pc : Nat
  i : Byte
  phase : Phase
  busHistory : List BusEvent
  buf : Memory
  env : Env
  pace : Nat

/-- The state stands at this place, waiting for nothing. -/
structure State.At (s : State) (q : Place) : Prop where
  cfg : s.cfg = q.cfg
  seq : s.seq = ⟨some q.cmd, q.pc, q.i, none⟩
  inflight : s.inflight = none
  initialized : s.initialized = true
  phase : s.phase = q.phase
  busHistory : s.busHistory = q.busHistory
  buf : s.buf = q.buf
  env : s.env = q.env
  pace : s.pace = q.pace

/-- The place of a command just accepted. -/
def Place.start (i : Instr) (s : State) : Place where
  cfg := s.cfg
  cmd := i
  pc := 0
  i := 0#8
  phase := s.phase
  busHistory := s.busHistory
  buf := s.buf
  env := s.env
  pace := s.pace

theorem accept_at {s : State} (hr : s.ready) (hi : s.initialized = true) (i : Instr) :
    (accept i s).At (Place.start i s) :=
  ⟨rfl, rfl, hr.2, hi, rfl, rfl, rfl, rfl, rfl⟩

/-- The table entry at a place. -/
def Place.entry (q : Place) : Option SeqAct := (sequenceOf q.cfg q.cmd)[q.pc]?

/-- The place after the primitive `p` with outcome `a`, wherever the sequencer goes next. -/
@[simp] def Place.after (q : Place) (p : Prim) (a : Answer) (e : Env) : Place :=
  { q with
    phase := outcomePhase q.cfg q.phase p a
    busHistory := q.busHistory ++ [outcomeEvent q.phase p a]
    env := e }

/-- The place one entry further. -/
@[simp] def Place.next (q : Place) : Place := { q with pc := q.pc + 1 }

/-- The place at entry `pc` of the same walk, these events later. -/
@[simp] def Place.reach (q : Place) (pc : Nat) (phase : Phase) (events : List BusEvent) (e : Env) : Place :=
  { q with pc := pc, phase := phase, busHistory := q.busHistory ++ events, env := e }

/-- The place with another BUF. -/
@[simp] def Place.withBuf (m : Memory) (q : Place) : Place := { q with buf := m }

/-- The place after a turn of a data loop of `len` bytes (41_eeprom_client_transactions.md R187). -/
def Place.turn (len : Byte) (q : Place) : Place :=
  { q with i := q.i + 1#8, pc := if loopGoesOn (q.i + 1#8) len then q.pc else q.pc + 1 }

/-- The contract of a primitive holds in a legal phase (40_bus_driver_primitives.md R135). -/
theorem contract_eq_none {p : Prim} {s : State} (hi : s.initialized = true) (hf : s.inflight = none)
    (hl : legalPhase p s.phase) : contract p s = none := by
  unfold contract
  simp only [hi, hf, Bool.true_eq_false, if_false, ne_eq, not_true_eq_false]
  cases p with
  | start => rfl
  | stop | txa _ | txb _ | rx _ => simpa using hl

/-- What the environment replies to a primitive in this state, and how it goes on. -/
def State.Reply (s : State) (p : Prim) (a : Answer) (e : Env) : Prop := (pollEnv p s).1 = some a ∧ (pollEnv p s).2.env = e

/-- The three moves of the primitive of an entry, but for `seq` and BUF, which are the entry's own. -/
theorem State.At.entry_moves {s : State} {q : Place} {act : SeqAct} {p : Prim} {a : Answer} {e : Env} (h : s.At q)
    (ha : q.entry = some act) (hact : issue act s = issuePrim p s) (hl : legalPhase p q.phase) (hr : s.Reply p a e) :
    MovesTo 3 s (afterPrim act p a s) ∧
      ∀ pc i m, (afterPrim act p a s).seq = ⟨some q.cmd, pc, i, none⟩ → (afterPrim act p a s).buf = m →
        (afterPrim act p a s).At { q.after p a e with pc := pc, i := i, buf := m } := by
  obtain ⟨hpoll, henv⟩ := hr
  have hk := contract_eq_none h.initialized h.inflight (by rwa [h.phase])
  refine ⟨fun n => ?_, fun pc i m hs hb => ?_⟩
  · refine runMoves_prim (i := q.cmd) (by rw [h.seq]) (by rw [h.seq]) ?_ hact hk hpoll n
    rw [h.cfg, h.seq]
    exact ha
  · exact ⟨by simp [Place.after, h.cfg], hs, by simp, by simp [h.initialized], by simp [Place.after, h.cfg, h.phase],
      by simp [Place.after, h.phase, h.busHistory], hb, by simp [Place.after, henv], by simp [Place.after, h.pace]⟩

/-- An entry `do P` (41_eeprom_client_transactions.md R171). -/
theorem State.At.prim {s : State} {q : Place} {p : Prim} {a : Answer} {e : Env} (h : s.At q)
    (ha : q.entry = some (.prim p)) (hl : legalPhase p q.phase) (hr : s.Reply p a e) :
    MovesTo 3 s (afterPrim (.prim p) p a s) ∧
      (afterPrim (.prim p) p a s).At (q.after p a e).next := by
  obtain ⟨hm, hat⟩ := h.entry_moves ha rfl hl hr
  exact ⟨hm, hat _ _ _ (by rw [afterPrim_prim_seq, h.seq]; rfl) (by rw [afterPrim_prim_buf, h.buf]; rfl)⟩

/-- A byte of WR_PAGE (R183). -/
theorem State.At.sendBuf {s : State} {q : Place} {len v : Byte} {a : Answer} {e : Env} (h : s.At q)
    (ha : q.entry = some (.sendBuf len)) (hv : readBuf q.i s = some v) (hl : q.phase = .mt) (hr : s.Reply (.txb v) a e) :
    MovesTo 3 s (afterPrim (.sendBuf len) (.txb v) a s) ∧
      (afterPrim (.sendBuf len) (.txb v) a s).At ((q.after (.txb v) a e).turn len) := by
  have hi : issue (.sendBuf len) s = issuePrim (.txb v) s := by
    simp only [issue]
    rw [h.seq, hv]
  obtain ⟨hm, hat⟩ := h.entry_moves ha hi hl hr
  exact ⟨hm, hat _ _ _ (by rw [afterPrim_sendBuf_seq, h.seq]; rfl) (by rw [afterPrim_sendBuf_buf, h.buf]; rfl)⟩

/-- A byte of SEQ_RD (R185). -/
theorem State.At.recvBuf {s : State} {q : Place} {len v : Byte} {ack : Bool} {e : Env} (h : s.At q)
    (ha : q.entry = some (.recvBuf len)) (hack : ackPolicy q.i len = ack) (hl : q.phase = .mr)
    (hr : s.Reply (.rx ack) (.byte v) e) :
    MovesTo 3 s (afterPrim (.recvBuf len) (.rx ack) (.byte v) s) ∧
      (afterPrim (.recvBuf len) (.rx ack) (.byte v) s).At
        (((q.after (.rx ack) (.byte v) e).turn len).withBuf (writeBuf q.i v s).buf) := by
  have hi : issue (.recvBuf len) s = issuePrim (.rx ack) s := by rw [issue, h.seq, hack]
  obtain ⟨hm, hat⟩ := h.entry_moves ha hi hl hr
  refine ⟨hm, hat _ _ _ (by rw [afterPrim_recvBuf_seq, h.seq]; rfl) ?_⟩
  rw [afterPrim_recvBuf_buf, h.seq]
  simp

/-- The walk ends at a response (R171). -/
theorem State.At.response {s : State} {q : Place} {act : SeqAct} {k : RespKind} {v : Byte} (h : s.At q)
    (ha : q.entry = some act) (hi : issue act s = .next (respond k v s)) (n : Nat) :
    runMoves (n + 1) s = .next (respond k v s) := by
  refine runMoves_respond (i := q.cmd) (by rw [h.seq]) (by rw [h.seq]) ?_ hi n
  rw [h.cfg, h.seq]
  exact ha

/-! ### Replies that the environment alone determines -/

/-- The environment's reply to a primitive, whatever free values it may draw (20_memory.md R72). -/
def Env.Replies (c : Config.Params) (e : Env) (p : Prim) (a : Answer) (e' : Env) : Prop :=
  ∀ s : State, s.cfg = c → s.env = e → s.Reply p a e'

theorem State.At.reply {s : State} {q : Place} {p : Prim} {a : Answer} {e e' : Env} (h : s.At q) (he : q.env = e)
    (hr : e.Replies q.cfg p a e') : s.Reply p a e' := hr s h.cfg (h.env.trans he)

theorem Env.replies_scripted {c : Config.Params} {p : Prim} {a : Answer} (hf : fits p a = true)
    (now again : List Answer) : (Env.scripted (a :: now) again).Replies c p a (.scripted now again) := by
  intro s _ he
  unfold State.Reply
  rw [pollEnv_scripted he hf]
  exact ⟨rfl, rfl⟩

theorem Env.replies_device {c : Config.Params} {p : Prim} {a : Answer} {d d' : Device}
    (h : ∀ drawn time, d.answer c drawn time p = (a, d')) : (Env.device d).Replies c p a (.device d') := by
  rintro s rfl he
  unfold State.Reply
  rw [pollEnv_device he, h]
  exact ⟨rfl, rfl⟩

/-! ### The parts the transactions share -/

/-- `open_write(a)` at the head of a table: START, SLA+W and the offset, sent with these acknowledges (R182). -/
theorem open_write {s : State} {q : Place} {addr : Byte} {a1 a2 : AckBit} {e0 e1 e2 e3 : Env} {acts : List SeqAct}
    (h : s.At q) (hpc : q.pc = 0) (htab : sequenceOf q.cfg q.cmd = openWrite q.cfg addr ++ acts) (he : q.env = e0)
    (h1 : e0.Replies q.cfg .start .granted e1) (h2 : e1.Replies q.cfg (.txa (slaW q.cfg)) (answerOf a1) e2)
    (h3 : e2.Replies q.cfg (.txb addr) (answerOf a2) e3) :
    ∃ t, MovesTo 9 s t ∧ t.At (q.reach 3 .mt [startEvent q.phase, .tx (slaW q.cfg) a1, .tx addr a2] e3) := by
  obtain ⟨m1, t1⟩ := h.prim (by rw [Place.entry, htab, hpc]; rfl) trivial (h.reply he h1)
  obtain ⟨m2, t2⟩ := t1.prim (p := .txa (slaW q.cfg)) (by simp [Place.entry, htab, hpc, openWrite]) rfl (t1.reply rfl h2)
  obtain ⟨m3, t3⟩ := t2.prim (p := .txb addr) (by simp [Place.entry, htab, hpc, openWrite]) (by simp) (t2.reply rfl h3)
  exact ⟨_, (m1.trans m2).trans m3, by simpa [hpc] using t3⟩

/-- `turn_read` after `open_write`: repeated START and SLA+R (R182). -/
theorem turn_read {s : State} {q : Place} {addr : Byte} {a : AckBit} {e0 e1 e2 : Env} {acts : List SeqAct}
    (h : s.At q) (hpc : q.pc = 3) (htab : sequenceOf q.cfg q.cmd = openWrite q.cfg addr ++ turnRead q.cfg ++ acts)
    (he : q.env = e0) (h1 : e0.Replies q.cfg .start .granted e1) (h2 : e1.Replies q.cfg (.txa (slaR q.cfg)) (answerOf a) e2) :
    ∃ t, MovesTo 6 s t ∧ t.At (q.reach 5 .mr [startEvent q.phase, .tx (slaR q.cfg) a] e2) := by
  obtain ⟨m1, t1⟩ := h.prim (p := .start) (by simp [Place.entry, htab, hpc, openWrite, turnRead]) trivial
    (h.reply he h1)
  obtain ⟨m2, t2⟩ := t1.prim (p := .txa (slaR q.cfg)) (by simp [Place.entry, htab, hpc, openWrite, turnRead]) rfl
    (t1.reply rfl h2)
  exact ⟨_, m1.trans m2, by simpa [hpc] using t2⟩

/-! ### The data loops -/

/-- The place in a data loop of `len` bytes that `q` opens, after `m` turns, with their events and the environment after each
(R187). -/
def Place.looped (q : Place) (len : Byte) (event : Nat → BusEvent) (env : Nat → Env) (m : Nat) : Place :=
  { q with
    pc := if m < len.toNat then q.pc else q.pc + 1
    i := BitVec.ofNat 8 m
    busHistory := q.busHistory ++ (List.range m).map event
    env := env m }

/-- A loop begins where it is opened. -/
theorem Place.looped_zero {q : Place} {len : Byte} (hlen : 0 < len.toNat) (hi : q.i = 0#8) (event : Nat → BusEvent)
    {env : Nat → Env} (he : q.env = env 0) : q.looped len event env 0 = q := by
  simp [Place.looped, hlen, ← hi, ← he]

/-- The loop goes on exactly below its length (41_eeprom_client_transactions.md R187). -/
theorem loopGoesOn_succ {len : Byte} {m : Nat} (hm : m < len.toNat) :
    loopGoesOn (BitVec.ofNat 8 m + 1#8) len = decide (m + 1 < len.toNat) := by
  have := len.isLt
  unfold loopGoesOn
  rw [BitVec.ult_eq_decide, BitVec.toNat_add, BitVec.toNat_ofNat, BitVec.toNat_ofNat]
  congr 1
  rw [Nat.mod_eq_of_lt (show m < 2 ^ 8 by omega), Nat.mod_eq_of_lt (show m + 1 % 2 ^ 8 < 2 ^ 8 by omega)]
  rfl

/-- A turn of the loop. -/
theorem Place.looped_turn {q : Place} {len : Byte} {event : Nat → BusEvent} {env : Nat → Env} {m : Nat}
    (hm : m < len.toNat) {p : Prim} {a : Answer} (hphase : outcomePhase q.cfg q.phase p a = q.phase)
    (hevent : outcomeEvent q.phase p a = event m) :
    ((q.looped len event env m).after p a (env (m + 1))).turn len = q.looped len event env (m + 1) := by
  simp [Place.looped, Place.turn, hm, hphase, hevent, loopGoesOn_succ hm, List.range_succ, BitVec.ofNat_add]

/-- A loop that has made all its turns stands at the entry after it. -/
theorem Place.looped_all (q : Place) (len : Byte) (event : Nat → BusEvent) (env : Nat → Env) :
    q.looped len event env len.toNat =
      { q.reach (q.pc + 1) q.phase ((List.range len.toNat).map event) (env len.toNat) with i := len } := by
  simp [Place.looped]

/-- The bytes of WR_PAGE, sent from BUF in order with these acknowledges (R183). -/
theorem sendBuf_loop {s : State} {q : Place} {addr len : Byte} {v : Nat → Byte} {bit : Nat → AckBit} {env : Nat → Env}
    (h : s.At q) (hcmd : q.cmd = .wrPage addr len) (hpc : q.pc = 3) (hi : q.i = 0#8) (hphase : q.phase = .mt)
    (he : q.env = env 0) (hlen : 0 < len.toNat) (m : Nat) (hm : m ≤ len.toNat)
    (hread : ∀ k, k < m → readBuf (BitVec.ofNat 8 k) s = some (v k))
    (hreply : ∀ k, k < m → (env k).Replies q.cfg (.txb (v k)) (answerOf (bit k)) (env (k + 1))) :
    ∃ t, MovesTo (3 * m) s t ∧ t.At (q.looped len (fun k => .tx (v k) (bit k)) env m) := by
  induction m with
  | zero => exact ⟨s, MovesTo.refl s, by rwa [Place.looped_zero hlen hi _ he]⟩
  | succ m ih =>
    obtain ⟨t, ht, hat⟩ := ih (by omega) (fun k hk => hread k (by omega)) (fun k hk => hreply k (by omega))
    have hentry : (q.looped len (fun k => .tx (v k) (bit k)) env m).entry = some (.sendBuf len) := by
      simp [Place.entry, Place.looped, hcmd, hpc, show m < len.toNat by omega, sequenceOf, wrPageSeq, openWrite]
    have hv : readBuf (BitVec.ofNat 8 m) t = some (v m) :=
      (readBuf_congr (hat.cfg.trans h.cfg.symm) (hat.buf.trans h.buf.symm) _).trans (hread m (by omega))
    obtain ⟨hmove, hnext⟩ := hat.sendBuf hentry hv hphase (hat.reply rfl (hreply m (by omega)))
    rw [Place.looped_turn (by omega) (by simp) (by simp)] at hnext
    exact ⟨_, ht.trans hmove, hnext⟩

/-- The acknowledge policy of SEQ_RD: all but the last byte (R185). -/
theorem ackPolicy_ofNat {len : Byte} {m : Nat} (hm : m < len.toNat) :
    ackPolicy (BitVec.ofNat 8 m) len = decide (m + 1 < len.toNat) := by
  have := len.isLt
  have hlast : (len - 1#8).toNat = len.toNat - 1 :=
    BitVec.toNat_sub_of_le (BitVec.le_def.mpr (show 1 ≤ len.toNat by omega))
  unfold ackPolicy
  rw [BitVec.ult_eq_decide, hlast, BitVec.toNat_ofNat, Nat.mod_eq_of_lt (by omega)]
  congr 1
  apply propext
  omega

/-- The event of byte `k` of SEQ_RD (20_memory.md R72, R91). -/
def seqRdEvent (len : Byte) (b : Nat → Byte) (k : Nat) : BusEvent := .rx (b k) (policyBit (decide (k + 1 < len.toNat)))

/-- The bytes of SEQ_RD, received into BUF in order (R185). -/
theorem recvBuf_loop {s : State} {q : Place} {addr len : Byte} {b : Nat → Byte} {env : Nat → Env}
    (h : s.At q) (hcmd : q.cmd = .seqRd addr len) (hpc : q.pc = 5) (hi : q.i = 0#8) (hphase : q.phase = .mr)
    (he : q.env = env 0) (hlen : 0 < len.toNat) (m : Nat) (hm : m ≤ len.toNat)
    (hreply : ∀ k, k < m →
      (env k).Replies q.cfg (.rx (decide (k + 1 < len.toNat))) (.byte (b k)) (env (k + 1))) :
    ∃ t, MovesTo (3 * m) s t ∧ t.At ((q.withBuf t.buf).looped len (seqRdEvent len b) env m) ∧
      (∀ k : Byte, k.toNat < m → k.toNat < q.cfg.bufSize → readBuf k t = some (b k.toNat)) ∧
      ∀ k : Byte, m ≤ k.toNat → readBuf k t = readBuf k s := by
  induction m with
  | zero =>
    refine ⟨s, MovesTo.refl s, ?_, fun k hk => absurd hk (by omega), fun _ _ => rfl⟩
    rwa [Place.looped_zero (q := q.withBuf s.buf) hlen hi _ he, h.buf]
  | succ m ih =>
    obtain ⟨t, ht, hat, hbelow, habove⟩ := ih (by omega) (fun k hk => hreply k (by omega))
    have hentry : ((q.withBuf t.buf).looped len (seqRdEvent len b) env m).entry = some (.recvBuf len) := by
      simp [Place.entry, Place.looped, hcmd, hpc, show m < len.toNat by omega, sequenceOf, seqRdSeq, openWrite, turnRead]
    obtain ⟨hmove, hnext⟩ := hat.recvBuf hentry (ackPolicy_ofNat (by omega)) hphase (hat.reply rfl (hreply m (by omega)))
    rw [Place.looped_turn (by omega) (by simp) (by simp [seqRdEvent])] at hnext
    have hread : ∀ k, readBuf k _ = readBuf k (writeBuf (BitVec.ofNat 8 m) (b m) t) :=
      readBuf_congr (hnext.cfg.trans hat.cfg.symm) hnext.buf
    have hmN : (BitVec.ofNat 8 m).toNat = m := by
      rw [BitVec.toNat_ofNat]
      exact Nat.mod_eq_of_lt (by have := len.isLt; omega)
    refine ⟨_, ht.trans hmove, by rw [hnext.buf]; exact hnext, fun k hk hs => ?_, fun k hk => ?_⟩
    · rw [hread]
      by_cases hkm : k.toNat = m
      · obtain rfl : BitVec.ofNat 8 m = k := BitVec.eq_of_toNat_eq (hmN.trans hkm.symm)
        rw [hkm] at hs ⊢
        exact readBuf_writeBuf_same (by rwa [hmN, hat.cfg])
      · rw [readBuf_writeBuf_other (fun e => hkm (by rw [← e, hmN]))]
        exact hbelow k (by omega) hs
    · rw [hread, readBuf_writeBuf_other (fun e => by rw [← e, hmN] at hk; omega)]
      exact habove k (by omega)

end Sys2Proof.Machine
end

section
/-! PROOFS. The transactions against the reference device: what each sends, the bytes it moves and the device it leaves
(20_memory.md R80 to R91). -/

namespace Sys2Proof.Machine

/-! ### What a device that is not busy replies -/

/-- The device addressed for writing at an offset. -/
def Device.opened (c : Config.Params) (addr : Byte) (d : Device) : Device :=
  { d with pending := [], ptr := deviceOffset c addr.toNat, mode := .write }


/-- The device with one more byte pending (20_memory.md R84). -/
def Device.written (c : Config.Params) (b : Byte) (d : Device) : Device :=
  { d with pending := d.pending ++ [(d.ptr, b)], ptr := pageNext c d.ptr }

/-- The device addressed for reading. -/
def Device.turned (d : Device) : Device := { d with pending := [], mode := .read }

/-- The device after a byte is read (20_memory.md R85). -/
def Device.readOn (c : Config.Params) (ack : Bool) (d : Device) : Device :=
  { d with ptr := deviceOffset c (d.ptr.toNat + 1), mode := if ack then .read else .deaf }

section NotBusy
variable {d : Device} (hb : d.busy = false) (c : Config.Params)
include hb

theorem Device.replies_start :
    (Env.device d).Replies c .start .granted (.device { d with pending := [], mode := .control }) :=
  Env.replies_device fun _ _ => by simp only [Device.answer, Device.cycleDone_idle (.inl hb)]; rfl

theorem Device.replies_byte {p : Prim} {b : Byte} {a : Answer} {d' : Device} (hp : p = .txa b ∨ p = .txb b)
    (h : d.onTx c b = (a, d')) : (Env.device d).Replies c p a (.device d') :=
  Env.replies_device fun _ _ => by rw [Device.answer_byte hp, Device.cycleDone_idle (.inl hb), h]

theorem Device.replies_slaW (hm : d.mode = .control) :
    (Env.device d).Replies c (.txa (slaW c)) .ack (.device { d with mode := .pointer }) :=
  Device.replies_byte hb c (.inl rfl) (by rw [Device.onTx_control_ack hm hb (addressOf_slaW c)]; simp)

theorem Device.replies_slaR (hm : d.mode = .control) :
    (Env.device d).Replies c (.txa (slaR c)) .ack (.device { d with mode := .read }) :=
  Device.replies_byte hb c (.inl rfl) (by rw [Device.onTx_control_ack hm hb (addressOf_slaR c)]; simp)

theorem Device.replies_offset (hm : d.mode = .pointer) (b : Byte) :
    (Env.device d).Replies c (.txb b) .ack (.device { d with ptr := deviceOffset c b.toNat, mode := .write }) :=
  Device.replies_byte hb c (.inr rfl) (Device.onTx_pointer hm c b)

theorem Device.replies_data (hm : d.mode = .write) (b : Byte) :
    (Env.device d).Replies c (.txb b) .ack
      (.device (d.written c b)) :=
  Device.replies_byte hb c (.inr rfl) (Device.onTx_write hm c b)

theorem Device.replies_rx (hm : d.mode = .read) (ack : Bool) :
    (Env.device d).Replies c (.rx ack) (.byte (d.byteAt d.ptr))
      (.device (d.readOn c ack)) :=
  Env.replies_device fun drawn _ => by
    change d.cycleDone.onRx c drawn ack = _
    rw [Device.cycleDone_idle (.inl hb), Device.onRx_read hm]
    rfl

theorem Device.reply_stop {s : State} (he : s.env = .device d) :
    s.Reply .stop .done (.device (d.onStop (Config.freeWriteTime s.draws)).2) := by
  have ha : d.answer s.cfg (Config.freeByte s.draws) (Config.freeWriteTime s.draws) .stop =
      (.done, (d.onStop (Config.freeWriteTime s.draws)).2) := by
    change d.cycleDone.onStop _ = _
    rw [Device.cycleDone_idle (.inl hb)]
    exact Prod.ext (Device.onStop_done _ d) rfl
  unfold State.Reply
  rw [pollEnv_device he, ha]
  exact ⟨rfl, rfl⟩

end NotBusy

/-! ### The parts of a transaction -/

/-- A block ready for a command after INIT, with this configuration, pace and device on its bus. -/
structure State.Attached (s : State) (c : Config.Params) (pace : Nat) (d : Device) : Prop where
  ready : s.ready
  initialized : s.initialized = true
  cfg : s.cfg = c
  pace : s.pace = pace
  env : s.env = .device d

/-- A block that has responded is ready again, and the rest is as its walk has left it. -/
theorem State.At.response_attached {s : State} {q : Place} {d : Device} (h : s.At q) (he : q.env = .device d)
    (k : RespKind) (v : Byte) : (respond k v s).Attached q.cfg q.pace d :=
  ⟨⟨rfl, h.inflight⟩, h.initialized, h.cfg, h.pace, h.env.trans he⟩

/-- `open_write(a)` against the device (R182). -/
theorem open_write_device {s : State} {q : Place} {d : Device} {addr : Byte} {acts : List SeqAct} (h : s.At q)
    (hpc : q.pc = 0) (htab : sequenceOf q.cfg q.cmd = openWrite q.cfg addr ++ acts) (he : q.env = .device d)
    (hb : d.busy = false) :
    ∃ t, MovesTo 9 s t ∧ t.At (q.reach 3 .mt [startEvent q.phase, .tx (slaW q.cfg) .ack, .tx addr .ack]
      (.device (d.opened q.cfg addr))) :=
  open_write h hpc htab (a1 := .ack) (a2 := .ack) he (Device.replies_start hb q.cfg)
    (Device.replies_slaW (d := { d with pending := [], mode := .control }) hb q.cfg rfl)
    (Device.replies_offset (d := { d with pending := [], mode := .pointer }) hb q.cfg rfl addr)

/-- `turn_read` against the device (R182). -/
theorem turn_read_device {s : State} {q : Place} {d : Device} {addr : Byte} {acts : List SeqAct} (h : s.At q)
    (hpc : q.pc = 3) (htab : sequenceOf q.cfg q.cmd = openWrite q.cfg addr ++ turnRead q.cfg ++ acts)
    (he : q.env = .device d) (hb : d.busy = false) :
    ∃ t, MovesTo 6 s t ∧ t.At (q.reach 5 .mr [startEvent q.phase, .tx (slaR q.cfg) .ack] (.device d.turned)) :=
  turn_read h hpc htab (a := .ack) he (Device.replies_start hb q.cfg)
    (Device.replies_slaR (d := { d with pending := [], mode := .control }) hb q.cfg rfl)

/-- STOP against the device (R144). -/
theorem State.At.stop_device {s : State} {q : Place} {d : Device} (h : s.At q) (ha : q.entry = some (.prim .stop))
    (hphase : q.phase ≠ .idle) (he : q.env = .device d) (hb : d.busy = false) :
    MovesTo 3 s (afterPrim (.prim .stop) .stop .done s) ∧
      (afterPrim (.prim .stop) .stop .done s).At
        (q.reach (q.pc + 1) .idle [.p] (.device (d.onStop (Config.freeWriteTime s.draws)).2)) :=
  h.prim ha hphase (Device.reply_stop hb (h.env.trans he))

/-! ### WR_BYTE and RD_BYTE -/

/-- WR_BYTE against a device that is not busy commits the byte (R181; 20_memory.md R86). -/
theorem wrByte_device {s : State} {c : Config.Params} {k : Nat} {d : Device} (h : s.Attached c k d) (hk : 15 ≤ k)
    (hb : d.busy = false) (addr data : Byte) :
    ∃ t d', exec (.wrByte addr data) s = .next t ∧ t.resp = some 0x0000#16 ∧ t.Attached c k d' ∧
      ((d.opened c addr).written c data).Committed d' := by
  obtain ⟨hr, hi, rfl, rfl, he⟩ := h
  obtain ⟨t1, m1, h1⟩ := open_write_device (accept_at hr hi (.wrByte addr data)) rfl rfl he hb
  obtain ⟨m2, h2⟩ := h1.prim rfl rfl (h1.reply rfl (Device.replies_data (d := d.opened s.cfg addr) hb _ rfl data))
  obtain ⟨m3, h3⟩ := h2.stop_device rfl (by decide : Phase.mt ≠ .idle) rfl hb
  exact ⟨_, _, ((m1.trans m2).trans m3).command (h3.response rfl rfl) hk, rfl, h3.response_attached rfl _ _,
    Device.onStop_committed rfl (by simp [Device.written]) _⟩

/-- RD_BYTE against a device that is not busy responds the byte at its offset and leaves `mem` alone (R180). -/
theorem rdByte_device {s : State} {c : Config.Params} {k : Nat} {d : Device} (h : s.Attached c k d) (hk : 21 ≤ k)
    (hb : d.busy = false) (addr : Byte) :
    ∃ t d', exec (.rdByte addr) s = .next t ∧
      t.resp = some (0x10#8 ++ d.byteAt (deviceOffset c addr.toNat)) ∧ t.Attached c k d' ∧ d'.mem = d.mem := by
  obtain ⟨hr, hi, rfl, rfl, he⟩ := h
  obtain ⟨t1, m1, h1⟩ := open_write_device (accept_at hr hi (.rdByte addr)) rfl rfl he hb
  obtain ⟨t2, m2, h2⟩ := turn_read_device h1 rfl rfl rfl hb
  obtain ⟨m3, h3⟩ := h2.prim rfl rfl
    (h2.reply rfl (Device.replies_rx (d := (d.opened s.cfg addr).turned) hb _ rfl false))
  obtain ⟨m4, h4⟩ := h3.stop_device rfl (by decide : Phase.mr ≠ .idle) rfl hb
  refine ⟨_, _, (((m1.trans m2).trans m3).trans m4).command (h4.response (act := .respondResult) rfl rfl) hk, ?_,
    h4.response_attached rfl _ _, ?_⟩
  · simp only [respond_resp, afterPrim_result, outcomeData_byte, respWord_okData]
    rfl
  · rw [Device.onStop_plain (.inl (by simp [Device.readOn]))]
    rfl

end Sys2Proof.Machine
end

section
/-! PROOFS. WAIT_WC against an environment that refuses the control byte a number of times, and how often the reference device
does, in both forms of its busy window (20_memory.md R87; 41_eeprom_client_transactions.md R186). -/

namespace Sys2Proof.Machine

/-! ### The wait -/

/-- The environment refuses the control byte of `n` pairs of START and SLA+W and acknowledges that of the next one. -/
inductive Env.Refuses (c : Config.Params) : Nat → Env → Env → Prop where
  | ack {e e1 e2 : Env} : e.Replies c .start .granted e1 → e1.Replies c (.txa (slaW c)) .ack e2 → Env.Refuses c 0 e e2
  | nak {n : Nat} {e e1 e2 e3 : Env} : e.Replies c .start .granted e1 → e1.Replies c (.txa (slaW c)) .nak e2 →
      Env.Refuses c n e2 e3 → Env.Refuses c (n + 1) e e3

/-- One pair of WAIT_WC, by the acknowledge bit received (R186). -/
theorem waitWc_pair {s : State} {q : Place} {a : AckBit} {e0 e1 e2 : Env} (h : s.At q) (hcmd : q.cmd = .waitWc)
    (hpc : q.pc = 0) (he : q.env = e0) (h1 : e0.Replies q.cfg .start .granted e1)
    (h2 : e1.Replies q.cfg (.txa (slaW q.cfg)) (answerOf a) e2) :
    ∃ t, MovesTo 6 s t ∧ t.At (q.reach 2 .mt [startEvent q.phase, .tx (slaW q.cfg) a] e2) ∧
      statusCode t.cfg t.status = statusCode q.cfg (slaWCode q.cfg a) := by
  obtain ⟨m1, t1⟩ := h.prim (p := .start) (by simp [Place.entry, hcmd, hpc, sequenceOf, waitWcSeq]) trivial
    (h.reply he h1)
  obtain ⟨m2, t2⟩ := t1.prim (p := .txa (slaW q.cfg)) (by simp [Place.entry, hcmd, hpc, sequenceOf, waitWcSeq]) rfl
    (t1.reply rfl h2)
  exact ⟨_, m1.trans m2, by simpa [hpc] using t2, by simp [h.cfg]⟩

/-- The status codes of an acknowledged and of a refused SLA+W differ, as they are read (00_scope.md R9). -/
theorem statusCode_slaW {c : Config.Params} (h : c.codesWf) :
    statusCode c c.codes.slaWAck = c.codes.slaWAck ∧ statusCode c c.codes.slaWNak ≠ c.codes.slaWAck := by
  have hne : c.codes.slaWNak ≠ c.codes.slaWAck := by
    have hd := h.1
    simp only [Config.StatusCodes.known, List.nodup_cons, List.mem_cons, not_or] at hd
    exact fun he => hd.2.2.2.1.1 he.symm
  rw [statusCode_known h (by simp [Config.StatusCodes.known]), statusCode_known h (by simp [Config.StatusCodes.known])]
  exact ⟨rfl, hne⟩

/-- WAIT_WC against an environment that refuses `n` pairs issues one more and responds (R186). -/
theorem waitWc_refused {c : Config.Params} (hc : c.codesWf) {n : Nat} {e e' : Env} (hr : e.Refuses c n e') {s : State}
    {q : Place} (h : s.At q) (hcfg : q.cfg = c) (hcmd : q.cmd = .waitWc) (hpc : q.pc = 0) (he : q.env = e) :
    ∃ t, MovesTo (7 * n + 6) s t ∧ t.At (q.reach 2 .mt (waitEvents (slaW c) q.phase n) e') ∧
      ∀ m, runMoves (m + 1) t = .next (respond .ok 0x00#8 t) := by
  obtain ⟨hack, hnak⟩ := statusCode_slaW hc
  induction hr generalizing s q with
  | ack h1 h2 =>
    subst hcfg
    obtain ⟨t, hm, ht, hcode⟩ := waitWc_pair (a := .ack) h hcmd hpc he h1 h2
    have hseq : t.seq = ⟨some .waitWc, 2, q.i, none⟩ := by rw [ht.seq, ← hcmd]; rfl
    refine ⟨t, hm, ht, runMoves_untilAck_end hseq ?_⟩
    rw [hcode, ht.cfg]
    exact hack
  | nak h1 h2 _ ih =>
    subst hcfg
    obtain ⟨t, hm, ht, hcode⟩ := waitWc_pair (a := .nak) h hcmd hpc he h1 h2
    have hseq : t.seq = ⟨some .waitWc, 2, q.i, none⟩ := by rw [ht.seq, ← hcmd]; rfl
    have hback : MovesTo 1 t { t with seq := { t.seq with pc := 0 } } := runMoves_untilAck_back hseq (by
      rw [hcode, ht.cfg]
      exact hnak)
    have hat : { t with seq := { t.seq with pc := 0 } }.At
        (q.reach 0 .mt [startEvent q.phase, .tx (slaW q.cfg) .nak] _) :=
      ⟨ht.cfg, by rw [ht.seq]; rfl, ht.inflight, ht.initialized, ht.phase, ht.busHistory, ht.buf, ht.env, ht.pace⟩
    obtain ⟨u, hm', hu, hend⟩ := ih hat rfl hcmd rfl rfl
    refine ⟨u, ?_, by simpa [waitEvents] using hu, hend⟩
    have := (hm.trans hback).trans hm'
    rwa [show 6 + 1 + (7 * _ + 6) = 7 * (_ + 1) + 6 by ring] at this

/-! ### How often the reference device refuses -/

/-- The device after a START (20_memory.md R81). -/
def Device.started (d : Device) : Device := d.cycleDone.onStart.2

/-- The device that has answered a pair has its window closed, is addressed for writing, and keeps its bytes. -/
structure Device.Released (d d' : Device) : Prop where
  busy : d'.busy = false
  mode : d'.mode = .pointer
  mem : d'.mem = d.mem

section Pair
variable (d : Device) (c : Config.Params)

theorem Device.replies_started : (Env.device d).Replies c .start .granted (.device d.started) :=
  Env.replies_device fun _ _ => rfl

/-- The pair that finds the window closed is acknowledged (20_memory.md R82). -/
theorem Device.refuses_zero (hb : d.started.cycleDone.busy = false) :
    ∃ d', (Env.device d).Refuses c 0 (.device d') ∧ d.Released d' := by
  have hm : d.started.cycleDone.mode = .control := Device.cycleDone_mode _
  have hack : d.started.cycleDone.onTx c (slaW c) = (.ack, { d.started.cycleDone with mode := .pointer }) := by
    rw [Device.onTx_control_ack hm hb (addressOf_slaW c)]
    simp
  exact ⟨_, .ack (d.replies_started c) (Env.replies_device fun _ _ => hack), hb, rfl, by simp [Device.started, Device.onStart]⟩

/-- The device after a pair that finds the window open (20_memory.md R82). -/
def Device.refused (d : Device) : Device := { d.started.cycleDone.countRefusal with mode := .deaf }

theorem Device.refuses_succ {n : Nat} {e : Env} (hb : d.started.cycleDone.busy = true)
    (hr : (Env.device d.refused).Refuses c n e) : (Env.device d).Refuses c (n + 1) e := by
  have hm : d.started.cycleDone.mode = .control := Device.cycleDone_mode _
  have hnak : d.started.cycleDone.onTx c (slaW c) = (.nak, d.refused) :=
    Device.onTx_control_busy hm hb (addressOf_slaW c)
  exact .nak (d.replies_started c) (Env.replies_device fun _ _ => hnak) hr

theorem Device.refused_mem : d.refused.mem = d.mem := by simp [Device.refused, Device.started, Device.onStart]

end Pair

/-- In the counter form no event but a refusal ends the window (20_memory.md R87). -/
theorem Device.started_cycleDone_counter {d : Device} {m : Nat} (hm : d.busyPolls = some m) :
    d.started.cycleDone = { d with pending := [], mode := .control } := by
  have hs : d.started = { d with pending := [], mode := .control } := by
    unfold Device.started
    rw [Device.cycleDone_idle (.inr (by simp [hm]))]
    rfl
  rw [hs, Device.cycleDone_idle (.inr (by simp [hm]))]

theorem Device.refused_counter {d : Device} {m : Nat} (hm : d.busyPolls = some m) :
    d.refused = { d with pending := [], mode := .deaf, polls := d.polls - 1, busy := decide (1 < d.polls) } := by
  unfold Device.refused
  rw [Device.started_cycleDone_counter hm]
  simp [Device.countRefusal, hm]

/-- The counter form of R87: as many refusals as are left. -/
theorem Device.refuses_counter {m n : Nat} {d : Device} (hm : d.busyPolls = some m)
    (hn : (d.busy = true ∧ d.polls = n ∧ 1 ≤ n) ∨ (d.busy = false ∧ n = 0)) (c : Config.Params) :
    ∃ d', (Env.device d).Refuses c n (.device d') ∧ d.Released d' := by
  have hbusy : d.started.cycleDone.busy = d.busy := by rw [Device.started_cycleDone_counter hm]
  induction n generalizing d with
  | zero =>
    obtain ⟨-, -, hle⟩ | ⟨hb, -⟩ := hn
    · cases hle
    · exact d.refuses_zero c (hbusy.trans hb)
  | succ n ih =>
    obtain ⟨hb, hp, -⟩ | ⟨-, h0⟩ := hn
    · have hm' : d.refused.busyPolls = some m := by rw [Device.refused_counter hm]; exact hm
      obtain ⟨d', hr, hd'⟩ := ih (d := d.refused) hm' (by
        rw [Device.refused_counter hm]
        obtain rfl | hpos := Nat.eq_zero_or_pos n <;> simp [hp]
        omega) (by rw [Device.started_cycleDone_counter hm'])
      exact ⟨d', d.refuses_succ c (hbusy.trans hb) hr, hd'.busy, hd'.mode, hd'.mem.trans d.refused_mem⟩
    · cases h0

/-- How many more events or refusals can find the window open. -/
def Device.window (d : Device) : Nat := if d.busy then d.polls + 1 else 0

/-- Without a counter every event shortens the window that it leaves open (20_memory.md R87). -/
theorem Device.window_cycleDone {d : Device} (hn : d.busyPolls = none) (hb : d.cycleDone.busy = true) :
    d.cycleDone.window < d.window := by
  have hbusy : d.busy = true := by
    by_contra h
    rw [Device.cycleDone_idle (.inl (by simpa using h))] at hb
    exact h hb
  obtain ⟨-, h⟩ | ⟨-, h⟩ := Device.cycleDone_free hn hbusy
  · exact nomatch hb.symm.trans h
  · simp only [Device.window, hb, hbusy, if_true]
    omega

/-- Every refused pair shortens the window, in both forms of R87. -/
theorem Device.window_refused {d : Device} (hb : d.started.cycleDone.busy = true) : d.refused.window < d.window := by
  cases hp : d.busyPolls with
  | some m =>
    rw [Device.started_cycleDone_counter hp] at hb
    rw [Device.refused_counter hp]
    simp only [Device.window, show d.busy = true from hb, if_true, decide_eq_true_eq]
    split <;> omega
  | none =>
    have hp' : d.started.busyPolls = none := (Device.cycleDone_busyPolls d).trans hp
    have hrefused : d.refused.window = d.started.cycleDone.window := by
      unfold Device.refused Device.countRefusal
      rw [Device.cycleDone_busyPolls, hp']
      rfl
    have hlast := Device.window_cycleDone hp' hb
    have hstarted : d.started.window = d.cycleDone.window := rfl
    cases hfirst : d.cycleDone.busy with
    | true => have := Device.window_cycleDone hp hfirst; omega
    | false =>
      have : d.cycleDone.window = 0 := by simp [Device.window, hfirst]
      omega

/-- Every busy window ends (20_memory.md R87). -/
theorem Device.refuses_some (c : Config.Params) (d : Device) :
    ∃ n d', (Env.device d).Refuses c n (.device d') ∧ d.Released d' := by
  induction hw : d.window using Nat.strong_induction_on generalizing d with
  | _ w ih =>
    cases hb : d.started.cycleDone.busy with
    | false =>
      obtain ⟨d', hd⟩ := d.refuses_zero c hb
      exact ⟨0, d', hd⟩
    | true =>
      obtain ⟨n, d', hr, hd'⟩ := ih _ (hw ▸ Device.window_refused hb) d.refused rfl
      exact ⟨n + 1, d', d.refuses_succ c hb hr, hd'.busy, hd'.mode, hd'.mem.trans d.refused_mem⟩

/-! ### WAIT_WC against the reference device -/

/-- WAIT_WC against a device that refuses `n` pairs, from its acceptance to its response. -/
theorem waitWc_device {s : State} {n : Nat} {d d' : Device} (hr : s.ready) (hi : s.initialized = true)
    (hc : s.cfg.codesWf) (he : s.env = .device d) (href : (Env.device d).Refuses s.cfg n (.device d')) :
    ∃ t, MovesTo (7 * n + 6) (accept .waitWc s) t ∧
      t.At ((Place.start .waitWc s).reach 2 .mt (waitEvents (slaW s.cfg) s.phase n) (.device d')) ∧
      ∀ m, runMoves (m + 1) t = .next (respond .ok 0x00#8 t) :=
  waitWc_refused hc href (accept_at hr hi .waitWc) rfl rfl rfl he

/-- Settles O33: the busy window ends after some number of refused pairs, and the next pair is acknowledged. -/
theorem waitWcEndsAgainstTheDevice : Obligations.WaitWcEndsAgainstTheDevice := by
  unfold Obligations.WaitWcEndsAgainstTheDevice
  intro s d hr hi hc he
  obtain ⟨n, d', href, hd⟩ := d.refuses_some s.cfg
  obtain ⟨t, hm, ht, hend⟩ := waitWc_device hr hi hc he href
  have hrun : runMoves (1 + (7 * n + 6)) (accept .waitWc s) = .next (respond .ok 0x00#8 t) := (hm 1).trans (hend 0)
  exact ⟨_, _, d', hrun, rfl, rfl, ht.phase, ht.env, hd.busy, hd.mode, hd.mem⟩

/-- Settles O43: in the counter form the number of refused pairs is the number of refusals left. -/
theorem waitWcWaitsOutTheWriteCycle : Obligations.WaitWcWaitsOutTheWriteCycle := by
  unfold Obligations.WaitWcWaitsOutTheWriteCycle
  intro s d m n hr hi hc hk he hm hn
  obtain ⟨d', href, hd⟩ := Device.refuses_counter hm hn s.cfg
  obtain ⟨t, hmoves, ht, hend⟩ := waitWc_device hr hi hc he href
  exact ⟨_, d', hmoves.command hend hk, rfl, ht.phase, ht.busHistory, ht.env, hd.busy, hd.mode, hd.mem⟩

end Sys2Proof.Machine
end

section
/-! PROOFS. The laws of the buffer memory and the device: the round trip of a byte, the sequential read, the page write, and the
page write that meets a byte never written (20_memory.md R63, R84 to R91). -/

namespace Sys2Proof.Machine

/-! ### The round trip -/

/-- A byte written to a device is there after the STOP, and every other offset keeps its byte (20_memory.md R86). -/
theorem Device.Committed.byteAt_written {d d' : Device} {c : Config.Params} {addr data : Byte}
    (h : ((d.opened c addr).written c data).Committed d') :
    d'.byteAt (deviceOffset c addr.toNat) = data ∧
      ∀ o, o ≠ deviceOffset c addr.toNat → d'.byteAt o = d.byteAt o := by
  refine ⟨(h.byteAt _).trans ?_, fun o ho => (h.byteAt o).trans ?_⟩
  · exact Device.byteAt_commit_last (before := []) (after := []) (by simp) _
  · exact Device.byteAt_commit_other (by simpa [Device.opened, Device.written] using Ne.symm ho) _

/-- The refusals that an opened window of the counter form leaves (20_memory.md R87). -/
theorem Device.WindowOpen.refusals {d : Device} {n : Nat} (h : d.WindowOpen (some n)) :
    (d.busy = true ∧ d.polls = n ∧ 1 ≤ n) ∨ (d.busy = false ∧ n = 0) := by
  obtain ⟨hb, hp⟩ := h.counter n rfl
  obtain rfl | hpos := Nat.eq_zero_or_pos n
  · exact .inr ⟨hb, rfl⟩
  · exact .inl ⟨by simp [hb, hpos], hp, hpos⟩

/-- Settles O44: WR_BYTE commits the byte and opens the window, WAIT_WC waits it out and keeps the bytes, RD_BYTE reads. -/
theorem roundTripThroughTheDevice : Obligations.RoundTripThroughTheDevice := by
  unfold Obligations.RoundTripThroughTheDevice
  intro s d n addr data hr hi hc hk hkn he hb hn
  obtain ⟨s1, d1, hx1, hresp1, h1, hcommit⟩ := wrByte_device ⟨hr, hi, rfl, rfl, he⟩ (by omega) hb addr data
  obtain ⟨hsame, hother⟩ := hcommit.byteAt_written
  have hpolls : d1.busyPolls = some n := hcommit.busyPolls.trans hn
  have hopen : d1.WindowOpen (some n) := hn ▸ hcommit.window
  obtain ⟨d2, href, hrel⟩ := Device.refuses_counter hpolls hopen.refusals s1.cfg
  obtain ⟨t, hm, ht, hend⟩ := waitWc_device h1.ready h1.initialized (by rw [h1.cfg]; exact hc) h1.env href
  have h2 : (respond .ok 0x00#8 t).Attached s.cfg s.pace d2 := by
    rw [← h1.cfg, ← h1.pace]
    exact ht.response_attached rfl _ _
  obtain ⟨s3, d3, hx3, hresp3, h3, hmem3⟩ := rdByte_device h2 hk hrel.busy addr
  rw [Device.byteAt_congr hrel.mem, hsame] at hresp3
  have hbytes : ∀ o, d3.byteAt o = d1.byteAt o := Device.byteAt_congr (hmem3.trans hrel.mem)
  exact ⟨s1, _, s3, d3, hx1, hresp1, hm.command hend (by rw [h1.pace]; exact hkn), rfl, hx3, hresp3, h3.env,
    (hbytes _).trans hsame, fun o ho => (hbytes o).trans (hother o ho)⟩

/-! ### The sequential read -/

/-- The device that is read from an offset on, after `k` of `len` bytes (20_memory.md R85, R91). -/
def Device.readFrom (c : Config.Params) (addr len : Byte) (k : Nat) (d : Device) : Device :=
  { (d.opened c addr).turned with
    ptr := deviceOffset c (addr.toNat + k)
    mode := if k < len.toNat then .read else .deaf }

/-- The read pointer wraps at `EEPROM_SIZE` (20_memory.md R85). -/
theorem deviceOffset_succ (c : Config.Params) (n : Nat) :
    deviceOffset c (n % c.eepromSize + 1) = deviceOffset c (n + 1) := by
  apply BitVec.eq_of_toNat_eq
  simp

/-- A byte of the sequential read. -/
theorem Device.replies_readFrom {d : Device} (hb : d.busy = false) (c : Config.Params) (addr : Byte) {len : Byte} {k : Nat}
    (hk : k < len.toNat) :
    (Env.device (d.readFrom c addr len k)).Replies c (.rx (decide (k + 1 < len.toNat)))
      (.byte (d.byteAt (deviceOffset c (addr.toNat + k)))) (.device (d.readFrom c addr len (k + 1))) := by
  have hnext : (d.readFrom c addr len k).readOn c (decide (k + 1 < len.toNat)) = d.readFrom c addr len (k + 1) := by
    simp [Device.readOn, Device.readFrom, deviceOffset_succ, Nat.add_assoc]
  rw [← hnext]
  exact Device.replies_rx (d := d.readFrom c addr len k) hb c (if_pos hk) _

/-! SEQ_RD and WR_PAGE of a length other than 0 walk their tables (60_exceptions.md R243). -/

theorem exec_seqRd {len : Byte} (h : len ≠ 0#8) (addr : Byte) (s : State) :
    exec (.seqRd addr len) s = runCommand (.seqRd addr len) s := if_neg h

theorem exec_wrPage {len : Byte} (h : len ≠ 0#8) (addr : Byte) (s : State) :
    exec (.wrPage addr len) s = runCommand (.wrPage addr len) s := if_neg h

theorem toNat_pos_of_ne_zero {len : Byte} (h : len ≠ 0#8) : 0 < len.toNat :=
  Nat.pos_of_ne_zero fun h0 => h (BitVec.eq_of_toNat_eq h0)

/-- All bytes of SEQ_RD but the last are acknowledged (20_memory.md R91). -/
theorem map_seqRdEvent {len : Byte} (h : 0 < len.toNat) (b : Nat → Byte) :
    (List.range len.toNat).map (seqRdEvent len b) =
      (List.range (len.toNat - 1)).map (fun k => BusEvent.rx (b k) .ack) ++ [.rx (b (len.toNat - 1)) .nak] := by
  obtain ⟨n, hn⟩ := Nat.exists_eq_add_of_lt h
  have hlast : len.toNat = n + 1 := by omega
  rw [hlast, List.range_succ, List.map_append]
  congr 1
  · refine List.map_congr_left fun k hk => ?_
    simp [seqRdEvent, hlast, List.mem_range.mp hk, policyBit]
  · simp [seqRdEvent, hlast, policyBit]

/-- Settles O45: the loop of SEQ_RD against the device, whose pointer goes from byte to byte. -/
theorem sequentialReadThroughTheDevice : Obligations.SequentialReadThroughTheDevice := by
  unfold Obligations.SequentialReadThroughTheDevice
  intro s d addr len b hr hi hk hlen he hb hbytes
  have hpos := toNat_pos_of_ne_zero hlen
  obtain ⟨t1, m1, h1⟩ := open_write_device (accept_at hr hi (.seqRd addr len)) rfl rfl he hb
  obtain ⟨t2, m2, h2⟩ := turn_read_device h1 rfl rfl rfl hb
  have hzero : (d.opened s.cfg addr).turned = d.readFrom s.cfg addr len 0 := by
    simp [Device.readFrom, hpos, Device.opened, Device.turned]
  obtain ⟨t3, m3, h3, hbelow, habove⟩ := recvBuf_loop (b := b) (env := fun k => .device (d.readFrom s.cfg addr len k))
    h2 rfl rfl rfl rfl (congrArg Env.device hzero) hpos len.toNat (le_refl _)
    (fun k hk => by rw [hbytes k]; exact Device.replies_readFrom hb s.cfg addr hk)
  rw [Place.looped_all, map_seqRdEvent hpos] at h3
  obtain ⟨m4, h4⟩ := h3.stop_device rfl (by decide : Phase.mr ≠ .idle) rfl hb
  have hx := (((m1.trans m2).trans m3).trans m4).command (h4.response rfl rfl) (by omega)
  refine ⟨_, (exec_seqRd hlen addr s).trans hx, rfl, fun k hk hs => ?_, fun k hk => ?_, h4.busHistory.trans ?_⟩
  · rw [readBuf_respond, readBuf_congr (by simp) (afterPrim_prim_buf _ _ _ _)]
    exact hbelow k hk hs
  · rw [readBuf_respond, readBuf_congr (by simp) (afterPrim_prim_buf _ _ _ _), habove k hk]
    exact readBuf_congr h2.cfg h2.buf k
  · simp [Place.start, show startEvent .mt = .sr from rfl]

/-! ### The page write -/

/-- The place in its page of the byte `k` on from an offset of the device (20_memory.md R84). -/
theorem pageOffset_toNat {c : Config.Params} {a : Byte} (ha : a.toNat < c.eepromSize) (k : Nat) :
    (pageOffset c a k).toNat = a.toNat / c.pageSize * c.pageSize + (a.toNat + k) % c.pageSize := by
  have hlt := pagePlace_lt ha (a.toNat + k)
  have hfit := c.eepromFits.2
  unfold pageOffset
  rw [BitVec.toNat_ofNat]
  exact Nat.mod_eq_of_lt (by omega)

@[simp] theorem pageOffset_zero (c : Config.Params) (a : Byte) : pageOffset c a 0 = a := by
  unfold pageOffset
  rw [Nat.add_zero, Nat.div_add_mod']
  exact BitVec.ofNat_toNat ..

/-- The write pointer advances from place to place in its page (20_memory.md R84). -/
theorem pageNext_pageOffset {c : Config.Params} {a : Byte} (ha : a.toNat < c.eepromSize) (k : Nat) :
    pageNext c (pageOffset c a k) = pageOffset c a (k + 1) := by
  have hplace := Nat.mod_lt (a.toNat + k) (pageSize_pos c)
  have hpage : (a.toNat / c.pageSize * c.pageSize + (a.toNat + k) % c.pageSize) / c.pageSize = a.toNat / c.pageSize := by
    rw [Nat.mul_comm, Nat.mul_add_div (pageSize_pos c), Nat.div_eq_of_lt hplace, Nat.add_zero]
  unfold pageNext
  rw [pageOffset_toNat ha, hpage, Nat.mul_comm, Nat.add_assoc, Nat.mul_add_mod, Nat.mod_add_mod, Nat.mul_comm]
  rfl

/-- Places closer than a page are different. -/
theorem pageOffset_ne {c : Config.Params} {a : Byte} (ha : a.toNat < c.eepromSize) {j k : Nat} (hjk : j < k)
    (hk : k < j + c.pageSize) : pageOffset c a k ≠ pageOffset c a j := by
  intro he
  have hmod := congrArg BitVec.toNat he
  rw [pageOffset_toNat ha, pageOffset_toNat ha, Nat.add_left_cancel_iff] at hmod
  have hdvd : c.pageSize ∣ k - j := by
    have := (Nat.modEq_iff_dvd' (by omega)).mp hmod.symm
    rwa [show a.toNat + k - (a.toNat + j) = k - j by omega] at this
  have := Nat.le_of_dvd (by omega) hdvd
  omega

/-- The first `m` bytes `v` of a page write from `a`, at their places (20_memory.md R84). -/
def pageBytes (c : Config.Params) (a : Byte) (v : Nat → Byte) (m : Nat) : List (Byte × Byte) :=
  (List.range m).map fun k => (pageOffset c a k, v k)

/-- The device after `m` data bytes of a page write. -/
def Device.filled (c : Config.Params) (addr : Byte) (v : Nat → Byte) (m : Nat) (d : Device) : Device :=
  { d.opened c addr with
    pending := pageBytes c (deviceOffset c addr.toNat) v m
    ptr := pageOffset c (deviceOffset c addr.toNat) m }

theorem Device.filled_zero (c : Config.Params) (addr : Byte) (v : Nat → Byte) (d : Device) :
    d.filled c addr v 0 = d.opened c addr := by
  simp [Device.filled, Device.opened, pageBytes]

/-- A byte of the page write. -/
theorem Device.replies_filled {d : Device} (hb : d.busy = false) (c : Config.Params) (addr : Byte) (v : Nat → Byte)
    (m : Nat) :
    (Env.device (d.filled c addr v m)).Replies c (.txb (v m)) .ack (.device (d.filled c addr v (m + 1))) := by
  have hnext : (d.filled c addr v m).written c (v m) = d.filled c addr v (m + 1) := by
    simp [Device.written, Device.filled, pageBytes, List.range_succ, pageNext_pageOffset (deviceOffset_lt c _)]
  rw [← hnext]
  exact Device.replies_data (d := d.filled c addr v m) hb c rfl _

/-- The last `PAGE_SIZE` bytes committed by a page write stand at their places, and every offset that no byte was sent to keeps
its byte (20_memory.md R84, R86). -/
theorem Device.Committed.byteAt_filled {d d' : Device} {c : Config.Params} {addr : Byte} {v : Nat → Byte} {m : Nat}
    (h : (d.filled c addr v m).Committed d') :
    (∀ k, k < m → m ≤ k + c.pageSize → d'.byteAt (pageOffset c (deviceOffset c addr.toNat) k) = v k) ∧
      ∀ o, (∀ k, k < m → pageOffset c (deviceOffset c addr.toNat) k ≠ o) → d'.byteAt o = d.byteAt o := by
  refine ⟨fun k hk hpage => (h.byteAt _).trans ?_, fun o ho => (h.byteAt o).trans ?_⟩
  · obtain ⟨n, rfl⟩ := Nat.exists_eq_add_of_lt hk
    have hsplit : (d.filled c addr v (k + n + 1)).pending =
        pageBytes c (deviceOffset c addr.toNat) v k ++ (pageOffset c (deviceOffset c addr.toNat) k, v k) ::
          (List.range n).map fun j =>
            (pageOffset c (deviceOffset c addr.toNat) (k + 1 + j), v (k + 1 + j)) := by
      simp [Device.filled, pageBytes, show k + n + 1 = k + 1 + n by omega, List.range_add, List.range_succ]
    rw [hsplit]
    refine Device.byteAt_commit_last (fun w hw => ?_) _
    obtain ⟨j, hj, rfl⟩ := List.mem_map.mp hw
    have := List.mem_range.mp hj
    exact pageOffset_ne (deviceOffset_lt c _) (by omega) (by omega)
  · refine Device.byteAt_commit_other (fun w hw => ?_) _
    obtain ⟨k, hk, rfl⟩ := List.mem_map.mp hw
    exact ho k (List.mem_range.mp hk)

/-- Settles O46: the loop of WR_PAGE against the device, whose pointer goes from place to place in its page. -/
theorem pageWriteWrapsInThePage : Obligations.PageWriteWrapsInThePage := by
  unfold Obligations.PageWriteWrapsInThePage
  rintro s d addr a len vs hr hi hk hlen hvs hread he hb rfl
  have hpos := toNat_pos_of_ne_zero hlen
  have hv : ∀ k, k < len.toNat → vs[k]? = some (vs.getD k 0#8) := fun k hk => by simp [hvs, hk]
  obtain ⟨t1, m1, h1⟩ := open_write_device (accept_at hr hi (.wrPage addr len)) rfl rfl he hb
  obtain ⟨t2, m2, h2⟩ := sendBuf_loop (v := fun k => vs.getD k 0#8) (bit := fun _ => .ack)
    (env := fun k => .device (d.filled s.cfg addr (fun k => vs.getD k 0#8) k)) h1 rfl rfl rfl rfl
    (congrArg Env.device (Device.filled_zero s.cfg addr _ d).symm) hpos len.toNat (le_refl _)
    (fun k hk => (readBuf_congr h1.cfg h1.buf _).trans ((hread k hk).trans (hv k hk)))
    (fun k _ => Device.replies_filled hb s.cfg addr _ k)
  rw [Place.looped_all] at h2
  obtain ⟨m3, h3⟩ := h2.stop_device rfl (by decide : Phase.mt ≠ .idle) rfl hb
  have hx := ((m1.trans m2).trans m3).command (h3.response rfl rfl) (by omega)
  have hcommit := Device.onStop_committed (d := d.filled s.cfg addr (fun k => vs.getD k 0#8) len.toNat) rfl
    (by simp [Device.filled, pageBytes]; omega) (Config.freeWriteTime t2.draws)
  obtain ⟨hplaced, hkept⟩ := hcommit.byteAt_filled
  refine ⟨_, _, (exec_wrPage hlen addr s).trans hx, rfl, h3.buf, h3.env, hcommit.mode, hcommit.window.counter,
    hcommit.window.free, fun k v hkv hpage => ?_, hkept⟩
  have hk : k < len.toNat := by rw [← hvs]; exact (List.getElem?_eq_some_iff.mp hkv).1
  rw [hplaced k hk hpage]
  exact Option.some.inj ((hv k hk).symm.trans hkv)

/-! ### The byte never written -/

/-- WR_PAGE is refused at a byte never written (20_memory.md R63). -/
theorem State.At.unwritten {s : State} {q : Place} {len : Byte} (h : s.At q) (ha : q.entry = some (.sendBuf len))
    (hv : readBuf q.i s = none) (n : Nat) : runMoves (n + 1) s = .refused .unwrittenBuffer := by
  have hentry : (sequenceOf s.cfg q.cmd)[s.seq.pc]? = some (.sendBuf len) := by rw [h.cfg, h.seq]; exact ha
  have hmove : move s = .refused .unwrittenBuffer := by
    unfold move issue
    rw [h.seq] at hentry ⊢
    simp only [hentry, hv]
  exact runMoves_refusal (i := q.cmd) (by rw [h.seq]) hmove n

/-- Bytes and the acknowledges they receive, byte by byte. -/
theorem zipWith_tx {vs : List Byte} {acks : List AckBit} (h : acks.length = vs.length) :
    List.zipWith BusEvent.tx vs acks =
      (List.range vs.length).map fun k => .tx (vs.getD k 0#8) (acks.getD k .ack) := by
  apply List.ext_getElem
  · simp [h]
  · intro k hk hk'
    have hv : k < vs.length := by simpa using hk'
    simp [hv, h]

/-- Settles O34: the bytes before the unwritten one are sent, and reading that one is refused. -/
theorem wrPageOfUnwrittenByteIsRefused : Obligations.WrPageOfUnwrittenByteIsRefused := by
  unfold Obligations.WrPageOfUnwrittenByteIsRefused
  intro s addr len a1 a2 vs acks rest again hr hi hk hacks hlen hread hnone he
  have hpos : 0 < len.toNat := Nat.zero_lt_of_lt hlen
  have hv : ∀ k, k < vs.length → vs[k]? = some (vs.getD k 0#8) := fun k hk => by simp [hk]
  have hscript : ∀ k, k < vs.length → acks.drop k = acks.getD k .ack :: acks.drop (k + 1) := fun k hk => by
    rw [List.drop_eq_getElem_cons (by omega)]
    simp [hacks, hk]
  obtain ⟨t1, m1, h1⟩ := open_write (accept_at hr hi (.wrPage addr len)) rfl rfl he (a1 := a1) (a2 := a2)
    (Env.replies_scripted rfl _ _) (Env.replies_scripted (by simp) _ _)
    (Env.replies_scripted (by simp) _ _)
  obtain ⟨t2, m2, h2⟩ := sendBuf_loop (v := fun k => vs.getD k 0#8) (bit := fun k => acks.getD k .ack)
    (env := fun k => .scripted ((acks.drop k).map answerOf ++ rest) again) h1 rfl rfl rfl rfl rfl hpos vs.length hlen.le
    (fun k hk => (readBuf_congr h1.cfg h1.buf _).trans ((hread k hk).trans (hv k hk)))
    (fun k hk => by rw [hscript k hk]; exact Env.replies_scripted (by simp) _ _)
  have hmoves : MovesTo (3 * vs.length + 9) (accept (.wrPage addr len) s) t2 := Nat.add_comm 9 _ ▸ m1.trans m2
  have hend := h2.unwritten (len := len) (by
    simp [Place.entry, Place.looped, Place.start, hlen, sequenceOf, wrPageSeq, openWrite])
    ((readBuf_congr h2.cfg h2.buf _).trans hnone)
  refine ⟨⟨t2, hmoves.next, ?_⟩, ?_⟩
  · rw [h2.busHistory, zipWith_tx hacks]
    simp [Place.looped, Place.start]
  · have hlen0 : len ≠ 0#8 := fun h0 => by simp [h0] at hpos
    exact (exec_wrPage hlen0 addr s).trans (hmoves.command hend hk)

end Sys2Proof.Machine
end

section
/-! PROOFS. The command encoding: the opcode map is one to one, decoding gives the instruction of the opcode byte or the
first cause that holds, and an instruction's fields stand at the places the formats give them. -/

namespace Sys2Proof

/-! ### The opcode map -/

theorem Opcode.mem_all (o : Opcode) : o ∈ Opcode.all := by cases o <;> decide

/-- No two commands share an opcode (30_encoding.md R103). -/
theorem Opcode.code_injective : Function.Injective Opcode.code := by
  have h : ∀ o ∈ Opcode.all, ∀ p ∈ Opcode.all, o.code = p.code → o = p := by decide
  exact fun o p => h o o.mem_all p p.mem_all

@[simp] theorem Opcode.ofByte_code (o : Opcode) : Opcode.ofByte o.code = some o := by cases o <;> decide

theorem Opcode.ofByte_eq_none {b : Byte} : Opcode.ofByte b = none ↔ ∀ o : Opcode, o.code ≠ b := by
  simp [Opcode.ofByte, Opcode.mem_all]

/-- A byte is the opcode of one command at most. -/
theorem Opcode.exists_code_eq {P : Opcode → Prop} {o : Opcode} {b : Byte} (h : o.code = b) :
    (∃ p : Opcode, p.code = b ∧ P p) ↔ P o := by
  refine ⟨fun ⟨p, hp, hP⟩ => ?_, fun hP => ⟨o, h, hP⟩⟩
  rwa [← Opcode.code_injective (hp.trans h.symm)]

/-- The bytes that are no opcode (R108). -/
theorem Opcode.code_ne_iff (b : Byte) :
    (∀ o : Opcode, o.code ≠ b) ↔
      (b.toNat = 0x00 ∨ (0x08 ≤ b.toNat ∧ b.toNat ≤ 0x0F) ∨ (0x15 ≤ b.toNat ∧ b.toNat ≤ 0x1F) ∨ 0x25 ≤ b.toNat) := by
  have hall : (∀ o : Opcode, o.code ≠ b) ↔ ∀ o ∈ Opcode.all, o.code ≠ b :=
    ⟨fun h o _ => h o, fun h o => h o o.mem_all⟩
  have hbytes : ∀ b : Byte, (∀ o ∈ Opcode.all, o.code ≠ b) ↔
      (b.toNat = 0x00 ∨ (0x08 ≤ b.toNat ∧ b.toNat ≤ 0x0F) ∨ (0x15 ≤ b.toNat ∧ b.toNat ≤ 0x1F) ∨ 0x25 ≤ b.toNat) := by
    decide
  exact hall.trans (hbytes b)

/-! ### What decoding gives -/

/-- Decoding once the opcode is known: reserved bits, then field values (R105 steps 2 and 3). -/
def Opcode.read (c : Config.Params) (o : Opcode) (w : CmdWord) : Except IllegalCause Instr :=
  if w &&& o.format.reserved c ≠ 0#40 then .error .reservedBit
  else if (o.instr w).wellFormed c then .ok (o.instr w)
  else .error .illegalField

theorem decode_unassigned {w : CmdWord} (h : ∀ o : Opcode, o.code ≠ CmdWord.op w) (c : Config.Params) :
    decode c w = .error .reservedOpcode := by
  rw [decode, Opcode.ofByte_eq_none.mpr h]

theorem decode_assigned {o : Opcode} {w : CmdWord} (h : o.code = CmdWord.op w) (c : Config.Params) :
    decode c w = o.read c w := by
  rw [decode, ← h, Opcode.ofByte_code]
  rfl

theorem Opcode.read_ne_reservedOpcode (c : Config.Params) (o : Opcode) (w : CmdWord) :
    o.read c w ≠ .error .reservedOpcode := by
  unfold Opcode.read
  split
  · simp
  · split <;> simp

/-- Cause 1 is the opcode's (R105 step 1). -/
theorem decode_eq_reservedOpcode {c : Config.Params} {w : CmdWord} :
    decode c w = .error .reservedOpcode ↔ ∀ o : Opcode, o.code ≠ CmdWord.op w := by
  refine ⟨fun h o ho => ?_, fun h => decode_unassigned h c⟩
  exact o.read_ne_reservedOpcode c w ((decode_assigned ho c).symm.trans h)

/-- Every other answer is what the opcode of the word reads. -/
theorem decode_eq_iff_read {c : Config.Params} {w : CmdWord} {r : Except IllegalCause Instr}
    (hr : r ≠ .error .reservedOpcode) : decode c w = r ↔ ∃ o : Opcode, o.code = CmdWord.op w ∧ o.read c w = r := by
  by_cases h : ∃ o : Opcode, o.code = CmdWord.op w
  · obtain ⟨o, ho⟩ := h
    rw [Opcode.exists_code_eq ho, decode_assigned ho]
  · rw [decode_unassigned (not_exists.mp h)]
    exact ⟨fun e => absurd e.symm hr, fun ⟨o, ho, _⟩ => absurd ⟨o, ho⟩ h⟩

/-- Cause 2 (R105 step 2). -/
theorem decode_eq_reservedBit {c : Config.Params} {w : CmdWord} :
    decode c w = .error .reservedBit ↔
      ∃ o : Opcode, o.code = CmdWord.op w ∧ w &&& o.format.reserved c ≠ 0#40 := by
  rw [decode_eq_iff_read (by simp)]
  simp [Opcode.read, ite_eq_iff]

/-- Cause 3 (R105 step 3). -/
theorem decode_eq_illegalField {c : Config.Params} {w : CmdWord} :
    decode c w = .error .illegalField ↔
      ∃ o : Opcode, o.code = CmdWord.op w ∧ w &&& o.format.reserved c = 0#40 ∧ (o.instr w).wellFormed c = false := by
  rw [decode_eq_iff_read (by simp)]
  simp [Opcode.read, ite_eq_iff]

/-- An instruction (R105). -/
theorem decode_eq_ok {c : Config.Params} {w : CmdWord} {i : Instr} :
    decode c w = .ok i ↔
      ∃ o : Opcode, o.code = CmdWord.op w ∧ w &&& o.format.reserved c = 0#40 ∧ (o.instr w).wellFormed c = true ∧
        o.instr w = i := by
  rw [decode_eq_iff_read (by simp)]
  simp [Opcode.read, ite_eq_iff]

/-- Settles O6: cause 1 is that no command has the opcode byte, and 239 bytes are no opcode. -/
theorem reservedOpcodesAreIllegal : Obligations.ReservedOpcodesAreIllegal := by
  unfold Obligations.ReservedOpcodesAreIllegal
  have h : ∀ c w, decode c w = .error .reservedOpcode ↔ _ := fun c w =>
    decode_eq_reservedOpcode.trans (Opcode.code_ne_iff (CmdWord.op w))
  exact fun c => ⟨(h c _).mpr (.inl rfl), h c⟩

/-! ### The fields of an encoding -/

@[simp] theorem op_encode (i : Instr) : CmdWord.op (encode i) = i.opcode.code := Laws.OpcodeByte.of_any i

/-- A word is its opcode byte and its argument (R101). -/
theorem op_append_arg (w : CmdWord) : CmdWord.op w ++ w.extractLsb' 0 32 = w :=
  (BitVec.extractLsb'_append_extractLsb'_eq_extractLsb' rfl).trans BitVec.extractLsb'_eq_self

/-- A field of the word below the opcode byte is a field of the argument. -/
theorem extractLsb'_encode {start len : Nat} (h : start + len ≤ 32) (i : Instr) :
    (encode i).extractLsb' start len = i.arg.extractLsb' start len :=
  BitVec.extractLsb'_append_eq_of_add_le h

/-! The fields of the arguments of each format (R102). -/

@[simp] theorem arg_byte_field (b : Byte) : (0#24 ++ b : BitVec 32).extractLsb' 0 8 = b :=
  BitVec.extractLsb'_append_eq_right

@[simp] theorem arg_reg_field (r : BitVec 3) : (0#29 ++ r : BitVec 32).extractLsb' 0 3 = r :=
  BitVec.extractLsb'_append_eq_right

@[simp] theorem arg_pair_first (a b : Byte) : (0#16 ++ b ++ a : BitVec 32).extractLsb' 0 8 = a :=
  BitVec.extractLsb'_append_eq_right

@[simp] theorem arg_pair_second (a b : Byte) : (0#16 ++ b ++ a : BitVec 32).extractLsb' 8 8 = b :=
  (BitVec.extractLsb'_append_eq_of_le (Nat.le_refl 8)).trans BitVec.extractLsb'_append_eq_right

@[simp] theorem arg_addr_rw (sla : BitVec 7) (rw : BitVec 1) : (0#24 ++ sla ++ rw : BitVec 32).extractLsb' 0 1 = rw :=
  BitVec.extractLsb'_append_eq_right

@[simp] theorem arg_addr_sla (sla : BitVec 7) (rw : BitVec 1) : (0#24 ++ sla ++ rw : BitVec 32).extractLsb' 1 7 = sla :=
  (BitVec.extractLsb'_append_eq_of_le (Nat.le_refl 1)).trans BitVec.extractLsb'_append_eq_right

/-- The field of `F_BIT` (R102). -/
theorem encode_bit_field {i : Instr} {b : Bool} (h : i.arg = 0#31 ++ BitVec.ofBool b) :
    (encode i).getLsbD 0 = b := by
  rw [Laws.getLsbD_encode, if_pos (by decide), h]
  cases b <;> rfl

/-- Reading the fields of an encoding gives the operands that were put there (R102). -/
theorem instr_encode (i : Instr) : i.opcode.instr (encode i) = i := by
  cases i with
  | init _ => exact congrArg Instr.init BitVec.extractLsb'_append_eq_right
  | rx b => exact congrArg Instr.rx (encode_bit_field rfl)
  | trace b => exact congrArg Instr.trace (encode_bit_field rfl)
  | start | stop | status | waitWc => rfl
  | txa _ _ | txb _ | rdByte _ | wrByte _ _ | wrPage _ _ | seqRd _ _ | decode _ | regRd _ | bufWr _ _ | bufRd _ =>
    simp [Instr.opcode, Opcode.instr, CmdWord.lowByte, CmdWord.highByte, extractLsb'_encode, Instr.arg]

/-- Settles O2: the opcode byte of an encoding names its command, its reserved bits are 0, and its fields read back. -/
theorem decodeOfEncodeIsTheInstruction : Obligations.DecodeOfEncodeIsTheInstruction := by
  unfold Obligations.DecodeOfEncodeIsTheInstruction
  intro c i hw
  refine decode_eq_ok.mpr ⟨i.opcode, (op_encode i).symm, Laws.ReservedZero.of_any i c hw, ?_, instr_encode i⟩
  rwa [instr_encode]

/-! ### The reserved bits of a word -/

@[simp] theorem Opcode.opcode_instr (o : Opcode) (w : CmdWord) : (o.instr w).opcode = o := by cases o <;> rfl

/-- The low bits of `arg` that a format's fields fill (R102). -/
def Format.width : Format → Nat
  | .none => 0
  | .freq => 32
  | .addr => 8
  | .byte => 8
  | .bit => 1
  | .pair => 16
  | .reg => 3

/-- Every bit of `arg` above a format's fields is reserved (R102). -/
theorem Format.reserved_above {f : Format} {j : Nat} (hf : f.width ≤ j) (hj : j < 32) (c : Config.Params) :
    (f.reserved c).getLsbD j = true := by
  have h : ∀ j : Fin 32, f.width ≤ j → (f.reserved c).getLsbD j = true := by
    cases f with
    | freq => intro j hw; exact absurd hw (Nat.not_le.mpr j.isLt)
    | none | addr | byte | bit | pair | reg => simp only [Format.width, Format.reserved]; decide
  exact h ⟨j, hj⟩ hf

/-- Zeros above a field widen it. -/
theorem zeros_append (k : Nat) {n : Nat} (x : BitVec n) : 0#k ++ x = x.setWidth (k + n) := by
  apply BitVec.eq_of_getLsbD_eq
  intro j hj
  rw [BitVec.getLsbD_append, BitVec.getLsbD_zero, BitVec.getLsbD_setWidth, decide_eq_true hj, Bool.true_and]
  split
  · rfl
  · next h => exact (BitVec.getLsbD_of_ge x j (Nat.le_of_not_lt h)).symm

/-- Zeros above two fields that stand side by side widen the two as one. -/
theorem zeros_append_adjacent (k m n : Nat) (w : CmdWord) :
    0#k ++ w.extractLsb' n m ++ w.extractLsb' 0 n = (w.extractLsb' 0 (m + n)).setWidth (k + m + n) := by
  rw [BitVec.append_assoc, zeros_append, BitVec.extractLsb'_append_extractLsb'_eq_extractLsb' (by omega)]
  simp

/-- The argument of the instruction a word reads as is the word's, without the bits above the fields. -/
theorem Opcode.arg_instr (o : Opcode) (w : CmdWord) :
    (o.instr w).arg = (w.extractLsb' 0 o.format.width).setWidth 32 := by
  cases o with
  | init => exact (BitVec.setWidth_eq _).symm
  | start | stop | status | waitWc =>
    have h0 : w.extractLsb' 0 0 = 0#0 := BitVec.of_length_zero
    exact (congrArg (BitVec.setWidth 32) h0).symm
  | txb | rdByte | decode | bufRd => exact zeros_append 24 (CmdWord.lowByte w)
  | rx | trace =>
    have hb : BitVec.ofBool (w.getLsbD 0) = w.extractLsb' 0 1 := by
      apply BitVec.eq_of_getLsbD_eq
      simp
    exact (zeros_append 31 _).trans (congrArg (BitVec.setWidth 32) hb)
  | regRd => exact zeros_append 29 (w.extractLsb' 0 3)
  | txa => exact zeros_append_adjacent 24 7 1 w
  | wrByte | wrPage | seqRd | bufWr => exact zeros_append_adjacent 16 8 8 w

/-- A bit of a mask that a word misses is 0 in it. -/
theorem getLsbD_of_and_eq_zero {w m : CmdWord} {j : Nat} (h : w &&& m = 0#40) (hm : m.getLsbD j = true) :
    w.getLsbD j = false := by
  have hj : (w &&& m).getLsbD j = false := by rw [h]; exact BitVec.getLsbD_zero
  rwa [BitVec.getLsbD_and, hm, Bool.and_true] at hj

/-- With its reserved bits 0 a word has nothing above its fields. -/
theorem Format.fields_of_reserved {c : Config.Params} {f : Format} {w : CmdWord} (h : w &&& f.reserved c = 0#40) :
    (w.extractLsb' 0 f.width).setWidth 32 = w.extractLsb' 0 32 := by
  apply BitVec.eq_of_getLsbD_eq
  intro j hj
  by_cases hf : j < f.width
  · simp [hf, hj]
  · simp [hf, hj, getLsbD_of_and_eq_zero h (Format.reserved_above (Nat.le_of_not_lt hf) hj c)]

/-- Encoding the instruction a word reads as gives the word back if its reserved bits are 0 (R104). -/
theorem Opcode.encode_instr {c : Config.Params} {o : Opcode} {w : CmdWord} (hop : o.code = CmdWord.op w)
    (hres : w &&& o.format.reserved c = 0#40) : encode (o.instr w) = w :=
  calc encode (o.instr w) = o.code ++ (w.extractLsb' 0 o.format.width).setWidth 32 := by
        rw [encode, Opcode.opcode_instr, Opcode.arg_instr]
    _ = CmdWord.op w ++ w.extractLsb' 0 32 := by rw [hop, Format.fields_of_reserved hres]
    _ = w := op_append_arg w

/-- Settles O3: a word that decodes has its reserved bits 0, so nothing of it is lost in the instruction. -/
theorem encodeOfDecodeIsTheWord : Obligations.EncodeOfDecodeIsTheWord := by
  unfold Obligations.EncodeOfDecodeIsTheWord
  intro c w i h
  obtain ⟨o, hop, hres, hw, rfl⟩ := decode_eq_ok.mp h
  exact ⟨Opcode.encode_instr hop hres, hw⟩

/-! ### The field values that are illegal -/

/-- The argument's place in the word, bit by bit (R101). -/
theorem getLsbD_argMask (j : Nat) : (0x00FFFFFFFF#40).getLsbD j = decide (j < 32) := by
  have h : (0x00FFFFFFFF#40) = (BitVec.allOnes 32).setWidth 40 := by decide
  rw [h, BitVec.getLsbD_setWidth, BitVec.getLsbD_allOnes]
  grind

/-- In `F_FREQ` the bits of `arg` at or above `FREQ_W` are reserved (R102). -/
theorem Format.getLsbD_reserved_freq (c : Config.Params) (j : Nat) :
    (Format.reserved c .freq).getLsbD j = decide (c.freqW ≤ j ∧ j < 32) := by
  unfold Format.reserved
  simp only [BitVec.getLsbD_and, BitVec.getLsbD_shiftLeft, getLsbD_argMask]
  grind

/-- With its reserved bits 0 the frequency of an INIT word is `FREQ_W` bits wide (R102). -/
theorem init_wellFormed {c : Config.Params} {w : CmdWord} (h : w &&& Format.reserved c .freq = 0#40) :
    (Opcode.init.instr w).wellFormed c = true := by
  refine beq_iff_eq.mpr (BitVec.eq_of_getLsbD_eq fun j _ => ?_)
  rw [BitVec.getLsbD_ushiftRight, BitVec.getLsbD_extractLsb', BitVec.getLsbD_zero, Nat.zero_add]
  by_cases hj : c.freqW + j < 32
  · have hm : (Format.reserved c .freq).getLsbD (c.freqW + j) = true := by simp [Format.getLsbD_reserved_freq, hj]
    simp [getLsbD_of_and_eq_zero h hm]
  · simp [hj]

/-- The operand values an instruction does not take (60_exceptions.md R243). -/
theorem Opcode.instr_illFormed {c : Config.Params} {o : Opcode} {w : CmdWord} (h : w &&& o.format.reserved c = 0#40) :
    (o.instr w).wellFormed c = false ↔
      (((o = .wrPage ∨ o = .seqRd) ∧ CmdWord.highByte w = 0#8) ∨
        (o = .regRd ∧ w.extractLsb' 0 3 ∉ c.registers.addrs)) := by
  cases o with
  | init => simp [init_wellFormed h]
  | wrPage | seqRd | regRd => simp [Opcode.instr, Instr.wellFormed]
  | start | stop | txa | txb | rx | status | rdByte | wrByte | waitWc | decode | trace | bufWr | bufRd =>
    simp [Opcode.instr, Instr.wellFormed]

/-- Settles O4: the three steps of decoding, and the one field of each format that can be illegal. -/
theorem illegalCausesInOrder : Obligations.IllegalCausesInOrder := by
  unfold Obligations.IllegalCausesInOrder
  refine ⟨fun c w => ⟨decode_eq_reservedOpcode, decode_eq_reservedBit, decode_eq_illegalField.trans ?_⟩, by decide⟩
  exact exists_congr fun o => and_congr_right fun _ => and_congr_right fun hres => Opcode.instr_illFormed hres

end Sys2Proof
end

section
/-! PROOFS. The opcode table and the assembler: a row of opcode_table.json is a command's opcode byte above reserved bits 0,
and the pseudo-instructions expand as 30_encoding.md R110 lists them. -/

namespace Sys2Proof

/-! ### The opcode table -/

/-- The mnemonic of a command (R103). -/
def Opcode.mnemonic : Opcode → String
  | .init => "INIT"
  | .start => "START"
  | .stop => "STOP"
  | .txa => "TXA"
  | .txb => "TXB"
  | .rx => "RX"
  | .status => "STATUS"
  | .rdByte => "RD_BYTE"
  | .wrByte => "WR_BYTE"
  | .wrPage => "WR_PAGE"
  | .seqRd => "SEQ_RD"
  | .waitWc => "WAIT_WC"
  | .decode => "DECODE"
  | .trace => "TRACE"
  | .regRd => "REG_RD"
  | .bufWr => "BUF_WR"
  | .bufRd => "BUF_RD"

/-- The table's row of a command: its opcode above an argument whose reserved bits are 0. -/
def Opcode.row (o : Opcode) : OpcodeRow where
  mnemonic := o.mnemonic
  value := o.code ++ 0#32
  mask := 0xFF#8 ++ (o.format.reserved Machine.defaultParams).extractLsb' 0 32

theorem opcodeTable_eq : opcodeTable = Opcode.all.map Opcode.row := by decide

theorem mem_opcodeTable {r : OpcodeRow} : r ∈ opcodeTable ↔ ∃ o : Opcode, o.row = r := by
  simp [opcodeTable_eq, Opcode.mem_all]

@[simp] theorem op_append (a : Byte) (x : BitVec 32) : CmdWord.op (a ++ x) = a := BitVec.extractLsb'_append_eq_left

@[simp] theorem arg_append (a : Byte) (x : BitVec 32) : (a ++ x : CmdWord).extractLsb' 0 32 = x :=
  BitVec.extractLsb'_append_eq_right

/-- Words are equal if their opcode bytes and their arguments are. -/
theorem op_append_inj {a b : Byte} {x y : BitVec 32} : (a ++ x : CmdWord) = b ++ y ↔ a = b ∧ x = y := by
  refine ⟨fun h => ⟨?_, ?_⟩, fun ⟨ha, hx⟩ => by rw [ha, hx]⟩
  · have hop := congrArg CmdWord.op h
    rwa [op_append, op_append] at hop
  · have harg := congrArg (BitVec.extractLsb' 0 32) h
    rwa [arg_append, arg_append] at harg

/-- A mask takes the opcode byte and the argument apart. -/
theorem and_op_append (w : CmdWord) (k : Byte) (m : BitVec 32) :
    w &&& (k ++ m) = (CmdWord.op w &&& k) ++ (w.extractLsb' 0 32 &&& m) :=
  calc w &&& (k ++ m) = (CmdWord.op w ++ w.extractLsb' 0 32) &&& (k ++ m) := by rw [op_append_arg]
    _ = (CmdWord.op w &&& k) ++ (w.extractLsb' 0 32 &&& m) := BitVec.and_append

/-- No bit of the opcode byte is reserved. -/
theorem Format.reserved_eq_append (f : Format) :
    f.reserved Machine.defaultParams = 0x00#8 ++ (f.reserved Machine.defaultParams).extractLsb' 0 32 := by
  cases f <;> decide

/-- A word is a row's when its opcode is the row's and no bit reserved there is 1 (R105). -/
theorem Opcode.row_matches (o : Opcode) (w : CmdWord) :
    w &&& o.row.mask = o.row.value ↔
      o.code = CmdWord.op w ∧ w &&& o.format.reserved Machine.defaultParams = 0#40 := by
  rw [Format.reserved_eq_append, and_op_append, show (0#40 : CmdWord) = 0x00#8 ++ 0#32 by decide, op_append_inj,
    Opcode.row, and_op_append, op_append_inj]
  have hop : CmdWord.op w &&& 0xFF#8 = CmdWord.op w := BitVec.and_allOnes
  simp [hop, eq_comm]

/-- Of the configuration only `FREQ_W` says which bits are reserved. -/
theorem Format.reserved_congr {c d : Config.Params} (h : c.freqW = d.freqW) (f : Format) :
    f.reserved c = f.reserved d := by
  cases f with
  | freq => rw [Format.reserved, Format.reserved, h]
  | none | addr | byte | bit | pair | reg => rfl

/-- A word is some row's exactly when it passes the first two steps of decoding (R105). -/
theorem exists_row_iff {c : Config.Params} {w : CmdWord} (h : c.freqW = 32) :
    (∃ r ∈ opcodeTable, w &&& r.mask = r.value) ↔
      ∃ o : Opcode, o.code = CmdWord.op w ∧ w &&& o.format.reserved c = 0#40 := by
  have hres : ∀ f : Format, f.reserved c = f.reserved Machine.defaultParams := Format.reserved_congr h
  simp only [mem_opcodeTable, exists_exists_eq_and, Opcode.row_matches, hres]

/-- The first two steps of decoding: the opcode is assigned and no reserved bit is 1 (R105). -/
theorem decode_passes_iff {c : Config.Params} {w : CmdWord} :
    (decode c w ≠ .error .reservedOpcode ∧ decode c w ≠ .error .reservedBit) ↔
      ∃ o : Opcode, o.code = CmdWord.op w ∧ w &&& o.format.reserved c = 0#40 := by
  rw [ne_eq, ne_eq, decode_eq_reservedOpcode, decode_eq_reservedBit]
  by_cases h : ∃ o : Opcode, o.code = CmdWord.op w
  · obtain ⟨o, ho⟩ := h
    simp only [Opcode.exists_code_eq ho, not_not]
    exact and_iff_right fun hn => hn o ho
  · exact iff_of_false (fun hn => hn.1 (not_exists.mp h)) (fun ⟨o, ho, _⟩ => h ⟨o, ho⟩)

/-- Settles O5: a command's row asks for its opcode byte and reserved bits 0, and no two commands share an opcode. -/
theorem opcodeTableAgreesWithDecoder : Obligations.OpcodeTableAgreesWithDecoder := by
  unfold Obligations.OpcodeTableAgreesWithDecoder
  refine ⟨fun c w h => (exists_row_iff h).trans decode_passes_iff.symm, fun w r q hr hq hwr hwq => ?_⟩
  obtain ⟨o, rfl⟩ := mem_opcodeTable.mp hr
  obtain ⟨p, rfl⟩ := mem_opcodeTable.mp hq
  have ho := ((o.row_matches w).mp hwr).1
  have hp := ((p.row_matches w).mp hwq).1
  rw [Opcode.code_injective (ho.trans hp.symm)]

/-! ### Pseudo-instructions -/

theorem fillFrom_length (i : Nat) (vs : List Byte) : (Asm.fillFrom i vs).length = vs.length := by
  induction vs generalizing i with
  | nil => rfl
  | cons v vs ih => exact congrArg (· + 1) (ih (i + 1))

/-- Byte `k` of a fill that starts at `i` goes to index `i + k` (30_encoding.md R110). -/
theorem fillFrom_getElem? {k : Nat} {vs : List Byte} {v : Byte} (h : vs[k]? = some v) (i : Nat) :
    (Asm.fillFrom i vs)[k]? = some (.bufWr (BitVec.ofNat 8 (i + k)) v) := by
  induction vs generalizing i k with
  | nil => cases h
  | cons u vs ih =>
    cases k with
    | zero => exact congrArg (Option.map (Instr.bufWr (BitVec.ofNat 8 i))) h
    | succ k =>
      rw [show i + (k + 1) = i + 1 + k by omega]
      exact ih h (i + 1)

/-- The two fields of TXA are the byte they are cut from (30_encoding.md R107). -/
theorem encode_txa_fields (b : Byte) :
    encode (.txa (b.extractLsb' 1 7) (b.extractLsb' 0 1)) = 0x04000000#32 ++ b := by
  have h : ∀ b : Byte, encode (.txa (b.extractLsb' 1 7) (b.extractLsb' 0 1)) = 0x04000000#32 ++ b := by decide
  exact h b

/-- Settles O60: TXA's fields keep the byte they are cut from, and BUF_FILL is one BUF_WR for each byte. -/
theorem pseudoInstructionsExpand : Obligations.PseudoInstructionsExpand := by
  unfold Obligations.PseudoInstructionsExpand
  refine ⟨fun dev rw => encode_txa_fields _, fun c => ⟨rfl, rfl, fun _ => rfl, fun _ => rfl, fun vs => ?_⟩⟩
  refine ⟨fillFrom_length 0 vs, fun k v h => ?_⟩
  rw [Asm.Pseudo.expand, fillFrom_getElem? h 0, Nat.zero_add]

end Sys2Proof
end

section
/-! PROOFS. The command port: a ready block takes a word and executes it, a busy one takes nothing, and each word taken is
answered once. -/

namespace Sys2Proof.Machine

/-! ### Taking a word, and going on -/

/-- A ready block with a word on the port runs what decoding makes of it (30_encoding.md R100, R105). -/
theorem step_word {s : State} {w : CmdWord} {i : Instr} {ws : List CmdWord} (hr : s.resetPin.head? ≠ some true)
    (hc : s.seq.cmd = none) (hp : s.port = w :: ws) (hd : decode s.cfg w = .ok i) :
    step s = exec i { s with port := ws, resetPin := s.resetPin.tail } := by
  unfold step
  rw [samplePort_free hr]
  simp only [hc, hp, hd]

/-- A busy block goes on with its command (R100). -/
theorem step_busy {s : State} (hr : s.resetPin.head? ≠ some true) (hc : s.seq.cmd ≠ none) :
    step s = resume { s with resetPin := s.resetPin.tail } := by
  obtain ⟨i, hi⟩ := Option.ne_none_iff_exists'.mp hc
  unfold step
  rw [samplePort_free hr]
  simp only [hi]

/-- Settles O7: the port gives the word, and the step is exec of the instruction it decodes to. -/
theorem stepExecutesDecodedCommand : Obligations.StepExecutesDecodedCommand := by
  unfold Obligations.StepExecutesDecodedCommand
  exact fun s w i ws => step_word

/-- The moves of a command leave alone what the host has to come. -/
theorem runMoves_inputs {n : Nat} {s t : State} (h : runMoves n s = .next t) :
    t.port = s.port ∧ t.resetPin = s.resetPin := by
  refine runMoves_induct (P := fun u => u.port = s.port ∧ u.resetPin = s.resetPin) (fun u v ⟨hport, hpin⟩ hm => ?_)
    ⟨rfl, rfl⟩ h
  obtain ⟨hport', hpin', -⟩ := move_inputs hm
  exact ⟨hport'.trans hport, hpin'.trans hpin⟩

/-- The moves of a command go on with it or end it (R100). -/
theorem runMoves_cmd {n : Nat} {s t : State} (h : runMoves n s = .next t) :
    t.seq.cmd = s.seq.cmd ∨ t.seq.cmd = none := by
  refine runMoves_induct (P := fun u => u.seq.cmd = s.seq.cmd ∨ u.seq.cmd = none) (fun u v hu hm => ?_) (.inl rfl) h
  obtain hv | hv := move_cmd hm
  · rwa [hv]
  · exact .inr hv

/-- Settles O11: while a command executes a step is its moves, which touch no input and at most end it. -/
theorem busyBlockTakesNoWord : Obligations.BusyBlockTakesNoWord := by
  unfold Obligations.BusyBlockTakesNoWord
  intro s hr hc
  have hstep := step_busy hr hc
  refine ⟨hstep, fun t ht => ?_⟩
  have hrun : resume { s with resetPin := s.resetPin.tail } = .next t := hstep.symm.trans ht
  exact ⟨(runMoves_inputs hrun).1, runMoves_cmd (s := { s with resetPin := s.resetPin.tail }) hrun⟩

/-! ### One response for each word -/

/-- The block is executing a command, or a response stands on the port (10_state.md R36, 30_encoding.md R106). -/
def State.engaged (s : State) : Prop := s.seq.cmd ≠ none ∨ s.resp ≠ none

/-- A command ends by responding (R106). -/
theorem move_engaged {s t : State} (hs : s.engaged) (h : move s = .next t) : t.engaged := by
  obtain ⟨-, rfl⟩ | ⟨i, hc, ⟨-, rfl⟩ | ⟨act, -, hact⟩⟩ := move_cases h
  · exact hs
  · exact hs
  have hcmd : s.seq.cmd ≠ none := by simp [hc]
  obtain ⟨-, ⟨p, -, -, rfl⟩ | ⟨k, v, -, rfl⟩ | ⟨-, -, rfl⟩⟩ | ⟨p, -, -, rfl⟩ | ⟨p, -, -, rfl⟩ := hact
  · exact .inl hcmd
  · exact .inr (by simp)
  · exact .inl hcmd
  · exact .inl (by rwa [observe_cmd])
  · exact .inl (by rwa [busTurn_seq])

theorem runMoves_engaged {n : Nat} {s t : State} (hs : s.engaged) (h : runMoves n s = .next t) : t.engaged :=
  runMoves_induct (fun _ _ hu hm => move_engaged hu hm) hs h

/-- An instruction executed is answered, or is still executing. -/
theorem exec_engaged {s t : State} {i : Instr} (h : exec i s = .next t) : t.engaged := by
  obtain ⟨-, hrun⟩ | rfl | ⟨f, d, -, -, -, rfl⟩ | ⟨k, v, rfl⟩ | ⟨en, -, rfl⟩ | ⟨k, v, -, rfl⟩ := exec_cases h
  · exact runMoves_engaged (s := accept i s) (.inl (by simp)) hrun
  all_goals exact .inr (by simp)

/-- An instruction leaves alone what the host has to come. -/
theorem exec_inputs {s t : State} {i : Instr} (h : exec i s = .next t) :
    t.port = s.port ∧ t.resetPin = s.resetPin := by
  obtain ⟨-, hrun⟩ | rfl | ⟨f, d, -, -, -, rfl⟩ | ⟨k, v, rfl⟩ | ⟨en, -, rfl⟩ | ⟨k, v, -, rfl⟩ := exec_cases h
  · exact runMoves_inputs (s := accept i s) hrun
  all_goals exact ⟨rfl, rfl⟩

/-- The words the block has still to answer: that of the command it executes, and those on the port. -/
def State.unanswered (s : State) : Nat := (if s.seq.cmd = none then 0 else 1) + s.port.length

theorem State.unanswered_ready {s : State} (h : s.seq.cmd = none) : s.unanswered = s.port.length := by
  rw [State.unanswered, if_pos h, Nat.zero_add]

/-- A step that works on a word gives its response or goes on with it. -/
theorem responseOf_length {s t : State} (hr : s.resetPin.head? ≠ some true) (hs : s.seq.cmd ≠ none ∨ s.port ≠ [])
    (ht : t.engaged) : (responseOf s t).toList.length + t.unanswered = 1 + t.port.length := by
  have hw : ¬(s.seq.cmd = none ∧ s.port = []) := by tauto
  unfold responseOf State.unanswered
  by_cases hc : t.seq.cmd = none
  · obtain ⟨r, hresp⟩ := Option.ne_none_iff_exists'.mp (ht.resolve_left (not_not.mpr hc))
    simp [hr, hw, hc, hresp]
  · simp [hc]

/-- A step without a reset answers one word of those unanswered for each response it gives, and uses one sample of the
reset input. -/
theorem step_unanswered {s t : State} (hr : s.resetPin.head? ≠ some true) (h : step s = .next t) :
    (responseOf s t).toList.length + t.unanswered = s.unanswered ∧ t.resetPin = s.resetPin.tail := by
  obtain ⟨pins, hp, -⟩ | ⟨-, ⟨hc, hrun⟩ | ⟨hc, hp, rfl⟩ | ⟨w, ws, hc, hp, hword⟩⟩ := step_cases h
  · simp [hp] at hr
  · obtain ⟨hport, hpin⟩ := runMoves_inputs hrun
    have ht : t.engaged := runMoves_engaged (s := { s with resetPin := s.resetPin.tail }) (.inl hc) hrun
    refine ⟨?_, hpin⟩
    rw [responseOf_length hr (.inl hc) ht, hport, State.unanswered, if_neg hc]
  · refine ⟨?_, rfl⟩
    simp [responseOf, State.unanswered, hc, hp]
  · have ht : t.engaged ∧ t.port = ws ∧ t.resetPin = s.resetPin.tail := by
      obtain ⟨i, -, hx⟩ | ⟨c, -, rfl⟩ := hword
      · exact ⟨exec_engaged hx, exec_inputs hx⟩
      · exact ⟨.inr (by simp), rfl, rfl⟩
    obtain ⟨heng, hport, hpin⟩ := ht
    refine ⟨?_, hpin⟩
    rw [responseOf_length hr (.inr (by simp [hp])) heng, hport, State.unanswered_ready hc, hp, List.length_cons,
      Nat.add_comm]

/-- A run is its first step and then the others. -/
theorem respondingRun_succ {n : Nat} {s t : State} {rs : List RespWord} (h : respondingRun (n + 1) s = some (t, rs)) :
    ∃ u qs, step s = .next u ∧ respondingRun n u = some (t, qs) ∧ rs = (responseOf s u).toList ++ qs := by
  unfold respondingRun at h
  cases hs : step s with
  | next u =>
    rw [hs] at h
    obtain ⟨⟨v, qs⟩, hrun, he⟩ := Option.map_eq_some_iff.mp h
    obtain ⟨rfl, rfl⟩ := Prod.mk.inj he
    exact ⟨u, qs, rfl, hrun, rfl⟩
  | fault r => rw [hs] at h; cases h
  | refused r => rw [hs] at h; cases h

/-- A run without a reset gives as many responses as it leaves fewer words unanswered. -/
theorem respondingRun_unanswered {n : Nat} {s t : State} {rs : List RespWord} (hr : ∀ b ∈ s.resetPin, b = false)
    (h : respondingRun n s = some (t, rs)) : rs.length + t.unanswered = s.unanswered := by
  induction n generalizing s rs with
  | zero =>
    obtain ⟨rfl, rfl⟩ := Prod.mk.inj (Option.some.inj h)
    exact Nat.zero_add _
  | succ n ih =>
    obtain ⟨u, qs, hs, hrun, rfl⟩ := respondingRun_succ h
    have hhead : s.resetPin.head? ≠ some true := fun hb => absurd (hr true (List.mem_of_mem_head? hb)) (by decide)
    obtain ⟨hcount, hpin⟩ := step_unanswered hhead hs
    have hrest := ih (fun b hb => hr b (List.mem_of_mem_tail (hpin ▸ hb))) hrun
    rw [List.length_append]
    omega

/-- Settles O9: no step without a reset changes the number of responses given and words unanswered, and a ready block has
the words on its port unanswered. -/
theorem runHasOneResponsePerWord : Obligations.RunHasOneResponsePerWord := by
  unfold Obligations.RunHasOneResponsePerWord
  intro s t n rs hc hr h
  have hcount := respondingRun_unanswered hr h
  rw [State.unanswered_ready hc] at hcount
  rw [Nat.add_assoc]
  exact hcount

end Sys2Proof.Machine
end

section
/-! PROOFS. INIT and its divisor, the code that STATUS responds, and what a launch writes (40_bus_driver_primitives.md R131 to
R134). -/

namespace Sys2Proof.Machine

/-! ### INIT -/

/-- A divisor that is at most `2 ^ RATE_W - 1` fits the 8 bits of RATE (00_scope.md R8, 10_state.md R22). -/
theorem rateMax_lt (c : Config.Params) : c.rateMax < 2 ^ 8 :=
  calc 2 ^ c.rateW.val - 1 < 2 ^ c.rateW.val := Nat.sub_lt (Nat.two_pow_pos _) Nat.one_pos
    _ ≤ 2 ^ 8 := Nat.pow_le_pow_right (by decide) (Nat.lt_succ_iff.mp c.rateW.isLt)

/-- The frequencies that INIT does not take (R132, R133). -/
theorem divisor_eq_none {c : Config.Params} {freq : BitVec 32}
    (h : freq = 0#32 ∨ c.baseClockHz / freq.toNat < 16 ∨ c.rateMax < (c.baseClockHz / freq.toNat - 16) / 2) :
    divisor c freq = none := by
  unfold divisor
  split
  · rfl
  next h0 =>
  split
  · rfl
  next h16 => exact if_pos ((h.resolve_left h0).resolve_left h16)

/-- For every other frequency RATE is the divisor itself, not truncated (R133). -/
theorem divisor_eq_some {c : Config.Params} {freq : BitVec 32} (h0 : freq ≠ 0#32)
    (h16 : 16 ≤ c.baseClockHz / freq.toNat) (hmax : (c.baseClockHz / freq.toNat - 16) / 2 ≤ c.rateMax) :
    ∃ d : Byte, d.toNat = (c.baseClockHz / freq.toNat - 16) / 2 ∧ divisor c freq = some d := by
  refine ⟨BitVec.ofNat 8 ((c.baseClockHz / freq.toNat - 16) / 2), ?_, ?_⟩
  · rw [BitVec.toNat_ofNat]
    exact Nat.mod_eq_of_lt (hmax.trans_lt (rateMax_lt c))
  · unfold divisor
    rw [if_neg h0, if_neg (Nat.not_lt.mpr h16), if_neg (Nat.not_lt.mpr hmax)]

theorem exec_init_twice {s : State} (h : s.initialized = true) (freq : BitVec 32) :
    exec (.init freq) s = .refused .initTwice := if_pos h

/-- The first INIT at a frequency without a divisor (R132). -/
theorem exec_init_range {s : State} {freq : BitVec 32} (h : s.initialized = false) (hd : divisor s.cfg freq = none) :
    exec (.init freq) s = .refused .initRange := by
  change execInit freq s = _
  unfold execInit
  rw [h, hd]
  rfl

/-- The first INIT at a frequency that has a divisor (R132). -/
theorem exec_init_divisor {s : State} {freq : BitVec 32} {d : Byte} (h : s.initialized = false)
    (hd : divisor s.cfg freq = some d) : exec (.init freq) s = .next (respond .ok 0x00#8 (s.programmed d)) := by
  change execInit freq s = _
  unfold execInit
  rw [h, hd]
  rfl

/-- Settles O16: the frequencies INIT takes are those that have a divisor, which fits RATE, and the response to the second
INIT does not look at the frequency. -/
theorem initProgramsTheDivisor : Obligations.InitProgramsTheDivisor := by
  unfold Obligations.InitProgramsTheDivisor
  rintro s freq q rfl
  refine ⟨fun hi => exec_init_twice hi freq, fun hi hout => ?_, fun hi h0 h16 hmax => ?_, fun hw => ?_⟩
  · exact exec_init_range hi (divisor_eq_none hout)
  · obtain ⟨d, hd, hdiv⟩ := divisor_eq_some h0 h16 hmax
    exact ⟨d, hd, exec_init_divisor hi hdiv⟩
  · have hmax : 2 ^ s.cfg.rateW.val - 1 = 255 := by rw [hw]; rfl
    omega

/-! ### STATUS -/

/-- Masking keeps the code bits and clears the prescaler bits (10_state.md R30). -/
theorem getLsbD_statusCode (c : Config.Params) (status : Byte) (j : Nat) :
    (statusCode c status).getLsbD j = (status.getLsbD j && decide (c.statusPsBits ≤ j)) := by
  unfold statusCode
  rw [BitVec.getLsbD_and, getLsbD_statusMask]
  by_cases hj : j < 8
  · simp [hj]
  · simp [BitVec.getLsbD_of_ge status j (Nat.le_of_not_lt hj)]

/-- With the table's `STATUS_CODE_BITS` the mask leaves out the low three bits (R134). -/
theorem statusMask_of_five {c : Config.Params} (h : c.statusCodeBits = 5) :
    c.statusPsBits = 3 ∧ c.statusMask = 0xF8#8 := by
  unfold Config.Params.statusMask Config.Params.statusPsBits
  rw [h]
  decide

/-- Settles O18: the word is STATUS's encoding, and the mask is 1 exactly at the code bits. -/
theorem statusRespondsMaskedCode : Obligations.StatusRespondsMaskedCode := by
  unfold Obligations.StatusRespondsMaskedCode
  intro s
  refine ⟨decodeOfEncodeIsTheInstruction s.cfg .status rfl, rfl, fun j hj => ?_, fun j hj => ?_, fun h => ?_⟩
  · exact (getLsbD_statusCode s.cfg s.status j).trans (by simp [hj])
  · exact (getLsbD_statusCode s.cfg s.status j).trans (by simp [hj])
  · obtain ⟨hps, hmask⟩ := statusMask_of_five h
    refine ⟨hps, hmask, ?_⟩
    rw [hmask, BitVec.and_assoc, show (0xF8#8 &&& 0x07#8) = 0x00#8 by decide, BitVec.and_zero]

/-! ### Launches -/

/-- A launch leaves CTRL with the request of its primitive and EN alone, whatever it held (R131). -/
theorem launch_ctrl_eq (p : Prim) (s : State) :
    (launch p s).ctrl = ctrlByte s.cfg.ctrlLayout (launchFields p) := ctrlWrite_launchWord _ _ p

/-- Settles O19: CTRL is left with the fields a launch writes beside INT, and each field of a byte of fields reads back. -/
theorem launchWritesControl : Obligations.LaunchWritesControl := by
  unfold Obligations.LaunchWritesControl
  have henable : launchWord defaultCtrlLayout (.rx false) = 0x84#8 := rfl
  refine ⟨fun s => ?_, fun l fs => ⟨fun f => ctrlField_ctrlByte l f fs, ctrlReserved_ctrlByte l fs⟩,
    fun l c => ⟨rfl, rfl, fun b => ⟨rfl, rfl⟩, fun ack => rfl⟩,
    rfl, rfl, rfl, rfl, fun b => ⟨henable, henable⟩, rfl, rfl, henable, rfl⟩
  exact ⟨⟨launch_ctrl_eq .start s, rfl⟩, ⟨launch_ctrl_eq .stop s, rfl⟩, fun b => ⟨launch_ctrl_eq (.txa b) s, rfl⟩,
    fun b => ⟨launch_ctrl_eq (.txb b) s, rfl⟩, ⟨launch_ctrl_eq (.rx true) s, rfl⟩, ⟨launch_ctrl_eq (.rx false) s, rfl⟩,
    fun p => ⟨rfl, rfl, rfl⟩⟩

end Sys2Proof.Machine
end

section
/-! PROOFS. The commands of one primitive: the state each leaves when the environment's first poll gives the outcome, and the
states in which each is refused (40_bus_driver_primitives.md R135 to R154). -/

namespace Sys2Proof.Machine

/-! ### The commands of one primitive -/

/-- The block after the primitive `p` alone, whose first poll, to `s1`, has had the outcome `a` (R136). -/
def State.performed (s s1 : State) (p : Prim) (a : Answer) : State :=
  { s with
    ctrl := ctrlComplete s.cfg.ctrlLayout p (ctrlByte s.cfg.ctrlLayout (launchFields p))
    data := outcomeData (launchData p s.data) (Config.freeByte s1.draws) p a
    status := withCode s.cfg s.status (outcomeCode s.cfg s.phase (statusCode s.cfg s.status) p a)
    phase := outcomePhase s.cfg s.phase p a
    seq := Seq.idle
    busHistory := s.busHistory ++ [outcomeEvent s.phase p a]
    diagHistory := s.diagHistory ++ traceOf s [outcomeCode s.cfg s.phase (statusCode s.cfg s.status) p a]
    env := s1.env
    draws := if drawsData p a then s1.draws + 1 else s1.draws }

/-- The response after the one primitive of a command: RESULT and the response are all else it writes. -/
theorem respond_afterPrim {s s1 : State} {p : Prim} {a : Answer} (hf : s.inflight = none)
    (ha : pollEnv p s = (some a, s1)) (i : Instr) (k : RespKind) (v : Byte) :
    respond k v (afterPrim (.prim p) p a (accept i s)) =
      { s.performed s1 p a with
        result := (afterPrim (.prim p) p a (accept i s)).result
        resp := some (respWord k 0#4 v) } := by
  apply State.ext <;> simp [State.performed, ha, hf]

section Completes
variable {s s1 : State} {i : Instr} {p : Prim} {a : Answer} (hr : s.ready) (hi : s.initialized = true)
  (hl : legalPhase p s.phase) (hk : 3 ≤ s.pace) (ha : pollEnv p s = (some a, s1))
include hr hi hl hk ha

/-- A command of one primitive that receives no byte (R140, R144, R148, R151). -/
theorem runCommand_respondOk (hs : sequenceOf s.cfg i = [.prim p, .respondOk]) (hp : ∀ ack, p ≠ .rx ack) :
    runCommand i s = .next { s.performed s1 p a with resp := some 0x0000#16 } := by
  rw [runCommand_single (v := fun _ => 0x00#8) hs (contract_eq_none hi hr.2 hl) (by rw [ha]) hk fun _ => rfl,
    respond_afterPrim hr.2 ha, afterPrim_result]
  cases p with
  | rx ack => exact absurd rfl (hp ack)
  | start | stop | txa _ | txb _ => rfl

/-- The command of RX: RESULT and the response are what DATA has become (R154). -/
theorem runCommand_respondResult {ack : Bool} (hs : sequenceOf s.cfg i = [.prim p, .respondResult]) (hp : p = .rx ack) :
    runCommand i s =
      .next { s.performed s1 p a with
        result := (s.performed s1 p a).data
        resp := some (0x10#8 ++ (s.performed s1 p a).data) } := by
  subst hp
  rw [runCommand_single (v := State.result) hs (contract_eq_none hi hr.2 hl) (by rw [ha]) hk fun _ => rfl,
    respond_afterPrim hr.2 ha, afterPrim_result]
  simp [State.performed, ha]

end Completes

/-- Settles O20: START has a row for each outcome, and its code and event look at the phase. -/
theorem startCompletes : Obligations.StartCompletes := by
  unfold Obligations.StartCompletes
  intro s s1 hr hi hk
  have hrun : ∀ a, pollEnv .start s = (some a, s1) →
      exec .start s = .next { s.performed s1 .start a with resp := some 0x0000#16 } :=
    fun a ha => runCommand_respondOk hr hi trivial hk ha rfl (by simp)
  exact ⟨hrun .granted, hrun .arbLost⟩

/-- Settles O21: completion takes STO back, which leaves EN alone. -/
theorem stopCompletes : Obligations.StopCompletes := by
  unfold Obligations.StopCompletes
  intro s s1 hr hi hphase hk ha
  refine (runCommand_respondOk hr hi hphase hk ha rfl (by simp)).trans ?_
  simp [State.performed, statusCode, launchData]

/-- Settles O22: the direction bit of the control byte chooses code and phase, and the acknowledge bit the code. -/
theorem txaCompletes : Obligations.TxaCompletes := by
  unfold Obligations.TxaCompletes
  intro s s1 sla rw hr hi hphase hk
  have hrun : ∀ a, pollEnv (.txa (sla ++ rw)) s = (some a, s1) →
      exec (.txa sla rw) s = .next { s.performed s1 (.txa (sla ++ rw)) a with resp := some 0x0000#16 } :=
    fun a ha => runCommand_respondOk hr hi hphase hk ha rfl (by simp)
  refine ⟨fun a ha => (hrun _ ha).trans ?_, fun ha => ⟨_, hrun _ ha⟩⟩
  simp [State.performed, launchData]

/-- Settles O23: both acknowledge bits leave the phase, and a lost arbitration draws DATA. -/
theorem txbCompletes : Obligations.TxbCompletes := by
  unfold Obligations.TxbCompletes
  intro s s1 b hr hi hphase hk
  have hrun : ∀ a, pollEnv (.txb b) s = (some a, s1) →
      exec (.txb b) s = .next { s.performed s1 (.txb b) a with resp := some 0x0000#16 } :=
    fun a ha => runCommand_respondOk hr hi hphase hk ha rfl (by simp)
  refine ⟨fun a ha => (hrun _ ha).trans ?_, fun ha => ⟨_, hrun _ ha⟩⟩
  simp [State.performed, launchData]

/-- Settles O24: the byte received or drawn is DATA, from which RESULT and the response are taken. -/
theorem rxCompletes : Obligations.RxCompletes := by
  unfold Obligations.RxCompletes
  intro s s1 ack hr hi hphase hk
  have hrun : ∀ a, pollEnv (.rx ack) s = (some a, s1) →
      exec (.rx ack) s = .next { s.performed s1 (.rx ack) a with
        result := (s.performed s1 (.rx ack) a).data
        resp := some (0x10#8 ++ (s.performed s1 (.rx ack) a).data) } :=
    fun a ha => runCommand_respondResult hr hi hphase hk ha rfl rfl
  refine ⟨fun d ha => (hrun _ ha).trans ?_, fun ha => ⟨(s.performed s1 (.rx ack) .arbLost).data, (hrun _ ha).trans ?_⟩⟩
  · simp [State.performed]
  · rw [State.performed, ctrlComplete_rx]
    rfl

end Sys2Proof.Machine
end

section
/-! PROOFS. Broken contracts: which refusal each primitive raises, and where a run of moves can be refused at all
(40_bus_driver_primitives.md R135). -/

namespace Sys2Proof.Machine

/-! ### The contracts -/

/-- Before INIT every primitive breaks its contract (R135). -/
theorem contract_uninitialized {s : State} (h : s.initialized = false) (p : Prim) :
    contract p s = some .notInitialized := if_pos h

/-- Which refusal a primitive raises outside its phase; START has none (R135). -/
def phaseRefusal : Prim → Option Refusal
  | .start => none
  | .stop => some .stopWithoutStart
  | .txa _ => some .addressNotAfterStart
  | .txb _ => some .transmitNotInWrite
  | .rx _ => some .receiveNotInRead

/-- A primitive in a phase that is not legal for it (R135). -/
theorem contract_illegalPhase {s : State} {p : Prim} (hi : s.initialized = true) (hf : s.inflight = none)
    (hl : ¬legalPhase p s.phase) : contract p s = phaseRefusal p := by
  unfold contract
  simp only [hi, hf, Bool.true_eq_false, if_false, ne_eq, not_true_eq_false]
  cases p with
  | start => exact absurd trivial hl
  | stop => exact if_pos (not_not.mp hl)
  | txa _ | txb _ | rx _ => exact if_neg hl

/-! ### Where a run is refused -/

/-- A refused run is refused at a move that some moves lead to. -/
theorem runMoves_refused {n : Nat} {s : State} {r : Refusal} (h : runMoves n s = .refused r) :
    ∃ m t, runMoves m s = .next t ∧ move t = .refused r := by
  induction n generalizing s with
  | zero => cases h
  | succ n ih =>
    by_cases hc : s.seq.cmd = none
    · rw [runMoves_done hc] at h
      cases h
    · obtain ⟨i, hi⟩ := Option.ne_none_iff_exists'.mp hc
      cases hm : move s with
      | next u =>
        rw [runMoves_step hi hm] at h
        obtain ⟨m, t, hrun, ht⟩ := ih h
        exact ⟨m + 1, t, (runMoves_step hi hm m).trans hrun, ht⟩
      | fault q => exact nomatch q
      | refused q =>
        rw [runMoves_refusal hi hm] at h
        exact ⟨0, s, rfl, hm.trans h⟩

/-- A move is refused only where it issues an entry (R135). -/
theorem move_refused {s : State} {r : Refusal} (h : move s = .refused r) :
    ∃ i act, s.seq.cmd = some i ∧ (sequenceOf s.cfg i)[s.seq.pc]? = some act ∧ s.seq.wait = none ∧
      issue act s = .refused r := by
  unfold move at h
  split at h
  · cases h
  next i hc =>
  split at h
  · cases h
  next act ha =>
  split at h
  · next hw => exact ⟨i, act, hc, ha, hw, h⟩
  · split at h <;> cases h

/-- A primitive is refused when its contract is broken (R135). -/
theorem issuePrim_refused {p : Prim} {s : State} {r : Refusal} (h : issuePrim p s = .refused r) :
    contract p s = some r := by
  unfold issuePrim at h
  split at h
  · next q hq => rw [hq, Host.Outcome.refused.inj h]
  · cases h

/-- The sequencer waits for the primitive in flight, whose completion flag is not up (10_state.md R26, R27, R37). -/
def State.Awaits (s : State) : Prop :=
  ∀ p, s.inflight = some p → s.seq.wait = some p ∧ completionSeen s.cfg.ctrlLayout p s.ctrl = false

theorem State.awaits_of_none {s : State} (h : s.inflight = none) : s.Awaits :=
  fun _ hp => nomatch h.symm.trans hp

theorem State.Awaits.inflight_none {s : State} (h : s.Awaits) (hw : s.seq.wait = none) : s.inflight = none := by
  cases hf : s.inflight with
  | none => rfl
  | some p => exact nomatch hw.symm.trans (h p hf).1

theorem move_awaits {s t : State} (h : s.Awaits) (hm : move s = .next t) : t.Awaits := by
  obtain ⟨-, rfl⟩ | ⟨i, -, ⟨-, rfl⟩ | ⟨act, -, hact⟩⟩ := move_cases hm
  · exact h
  · exact h
  obtain ⟨hw, ⟨p, -, -, rfl⟩ | ⟨k, v, -, rfl⟩ | ⟨-, -, rfl⟩⟩ | ⟨p, hw, hseen, rfl⟩ | ⟨p, -, -, rfl⟩ := hact
  · intro q hq
    obtain rfl : p = q := Option.some.inj hq
    exact ⟨rfl, completionSeen_launch _ _ _⟩
  · exact State.awaits_of_none (h.inflight_none hw)
  · exact State.awaits_of_none (h.inflight_none hw)
  · refine State.awaits_of_none ((observe_inflight act p s).trans ?_)
    by_contra hne
    obtain ⟨q, hq⟩ := Option.ne_none_iff_exists'.mp hne
    obtain ⟨hwq, hunseen⟩ := h q hq
    obtain rfl : p = q := Option.some.inj (hw.symm.trans hwq)
    exact nomatch hseen.symm.trans hunseen
  · obtain ⟨-, he⟩ | ⟨q, hq, he | ⟨a, -, he⟩⟩ := busTurn_cases s <;> rw [he]
    · exact h
    · rw [pollEnv_state]
      exact h
    · exact State.awaits_of_none rfl

/-- START has no contract but `initialized`, at its launch nothing is in flight, and its response is never refused (R140). -/
theorem exec_start_not_refused {s : State} (hf : s.inflight = none) (hi : s.initialized = true) (r : Refusal) :
    exec .start s ≠ .refused r := by
  intro h
  obtain ⟨m, t, hrun, hmove⟩ := runMoves_refused (s := accept .start s) h
  obtain ⟨i, act, hc, hact, hw, hissue⟩ := move_refused hmove
  have hinit : t.initialized = true := (runMoves_continues hrun).initialized.trans hi
  have hawaits : t.Awaits :=
    runMoves_induct (fun _ _ hu hm => move_awaits hu hm) (State.awaits_of_none (s := accept .start s) hf) hrun
  obtain rfl : i = .start := by
    obtain hcmd | hcmd := runMoves_cmd hrun
    · exact Option.some.inj (hc.symm.trans hcmd)
    · exact nomatch hc.symm.trans hcmd
  obtain rfl | rfl : act = .prim .start ∨ act = .respondOk := by
    simpa [sequenceOf, startSeq] using List.mem_of_getElem? hact
  · exact nomatch (issuePrim_refused hissue).symm.trans (contract_eq_none hinit (hawaits.inflight_none hw) trivial)
  · cases hissue

/-- Settles O25: each command meets the contract of its first primitive first, and START's holds at every launch. -/
theorem brokenContractsAreRefused : Obligations.BrokenContractsAreRefused := by
  unfold Obligations.BrokenContractsAreRefused
  intro s hr
  refine ⟨fun hi => ?_, fun hi => ?_⟩
  · have hfirst : ∀ {i p acts}, sequenceOf s.cfg i = .prim p :: acts → runCommand i s = .refused .notInitialized :=
      fun {i p acts} hs => runCommand_contract hs (fun _ => rfl) (contract_uninitialized hi p)
    exact ⟨hfirst rfl, hfirst rfl, fun _ _ => hfirst rfl, fun _ => hfirst rfl, fun _ => hfirst rfl, fun _ => hfirst rfl,
      fun _ _ => hfirst rfl, fun a n hn => (exec_wrPage hn a s).trans (hfirst rfl),
      fun a n hn => (exec_seqRd hn a s).trans (hfirst rfl), hfirst rfl⟩
  · have hphase : ∀ {i p act r}, sequenceOf s.cfg i = [.prim p, act] → ¬legalPhase p s.phase → phaseRefusal p = some r →
        runCommand i s = .refused r := fun {i p act r} hs hl hp =>
      runCommand_contract hs (fun _ => rfl) ((contract_illegalPhase hi hr.2 hl).trans hp)
    exact ⟨exec_start_not_refused hr.2 hi, fun h => hphase rfl (not_not.mpr h) rfl, fun h _ _ => hphase rfl h rfl,
      fun h _ => hphase rfl h rfl, fun h _ => hphase rfl h rfl⟩

end Sys2Proof.Machine
end

section
/-! PROOFS. The frame of the bus commands: no move writes `trace_en`, and only the commands whose tables receive a byte write
RESULT (40_bus_driver_primitives.md R136, 41_eeprom_client_transactions.md R171). -/

namespace Sys2Proof.Machine

theorem move_traceEn {s t : State} (h : move s = .next t) : t.traceEn = s.traceEn := by
  obtain ⟨-, rfl⟩ | ⟨i, -, ⟨-, rfl⟩ | ⟨act, -, hact⟩⟩ := move_cases h
  · rfl
  · rfl
  obtain ⟨-, ⟨p, -, -, rfl⟩ | ⟨k, v, -, rfl⟩ | ⟨-, -, rfl⟩⟩ | ⟨p, -, -, rfl⟩ | ⟨p, -, -, rfl⟩ := hact <;> simp

theorem runMoves_traceEn {n : Nat} {s t : State} (h : runMoves n s = .next t) : t.traceEn = s.traceEn :=
  runMoves_induct (P := fun u => u.traceEn = s.traceEn) (fun _ _ hu hm => (move_traceEn hm).trans hu) rfl h

/-! ### Who writes RESULT -/

/-- The commands that receive a byte (R154, R180, R185). -/
def receivesByte (i : Instr) : Prop := (∃ a, i = .rx a) ∨ (∃ a, i = .rdByte a) ∨ ∃ a l, i = .seqRd a l

/-- An entry that is an RX stands in the tables of those commands only. -/
theorem receivesByte_of_rx {c : Config.Params} {i : Instr} {ack : Bool} (h : .prim (.rx ack) ∈ sequenceOf c i) :
    receivesByte i := by
  cases i with
  | rx a => exact .inl ⟨a, rfl⟩
  | rdByte a => exact .inr (.inl ⟨a, rfl⟩)
  | seqRd a l => exact .inr (.inr ⟨a, l, rfl⟩)
  | init _ | status | decode _ | trace _ | regRd _ | bufWr _ _ | bufRd _ => cases h
  | start | stop | txa _ _ | txb _ | wrByte _ _ | wrPage _ _ | waitWc =>
    simp [sequenceOf, startSeq, stopSeq, txaSeq, txbSeq, wrByteSeq, wrPageSeq, waitWcSeq, openWrite] at h

/-- A primitive issued is launched (R130). -/
theorem issuePrim_next {p : Prim} {s t : State} (h : issuePrim p s = .next t) : t = launch p s := by
  unfold issuePrim at h
  split at h
  · cases h
  · exact (Host.Outcome.next.inj h).symm

/-- An RX is launched by the commands that receive a byte. -/
theorem receivesByte_of_issue {i : Instr} {act : SeqAct} {s t : State} {ack : Bool} (ha : act ∈ sequenceOf s.cfg i)
    (h : issue act s = .next t) (ht : t.seq.wait = some (.rx ack)) (hw : s.seq.wait = none) : receivesByte i := by
  have hprim : ∀ {p}, issuePrim p s = .next t → p = .rx ack := fun {p} hp => by
    rw [issuePrim_next hp] at ht
    exact Option.some.inj ht
  cases act with
  | prim p =>
    obtain rfl := hprim h
    exact receivesByte_of_rx ha
  | recvBuf l =>
    obtain ⟨a, rfl⟩ := seqRd_of_recvBuf ha
    exact .inr (.inr ⟨a, l, rfl⟩)
  | sendBuf l =>
    simp only [issue] at h
    split at h
    · cases h
    · exact nomatch hprim h
  | untilAck =>
    simp only [issue] at h
    split at h <;> rw [← Host.Outcome.next.inj h] at ht
    · cases ht
    · exact nomatch hw.symm.trans ht
  | respondOk | respondResult =>
    rw [← Host.Outcome.next.inj h] at ht
    cases ht

/-- Nothing is waited for once a completion is seen. -/
@[simp] theorem observe_wait (act : SeqAct) (p : Prim) (s : State) : (observe act p s).seq.wait = none := by
  cases act <;> simp [observe, finishEntry]

/-- Only an RX is latched (20_memory.md R76 step 6). -/
theorem observe_result {p : Prim} (hp : ∀ ack, p ≠ .rx ack) (act : SeqAct) (s : State) :
    (observe act p s).result = s.result := by
  cases p with
  | rx ack => exact absurd rfl (hp ack)
  | start | stop | txa _ | txb _ => simp [observe, latchResult]

/-- The command executing, if any, receives no byte, and the sequencer waits for no RX. -/
structure State.Sends (s : State) : Prop where
  cmd : ∀ i, s.seq.cmd = some i → ¬receivesByte i
  wait : ∀ ack, s.seq.wait ≠ some (.rx ack)

/-- A command that receives no byte goes on so, and leaves RESULT alone. -/
theorem move_sends {s t : State} (h : s.Sends) (hm : move s = .next t) : t.Sends ∧ t.result = s.result := by
  have hcmd : ∀ i, t.seq.cmd = some i → ¬receivesByte i := fun i hi => by
    obtain hc | hc := move_cmd hm
    · exact h.cmd i (hc.symm.trans hi)
    · exact nomatch hc.symm.trans hi
  obtain ⟨-, rfl⟩ | ⟨i, hc, ⟨-, rfl⟩ | ⟨act, ha, hact⟩⟩ := move_cases hm
  · exact ⟨h, rfl⟩
  · exact ⟨h, rfl⟩
  obtain ⟨hw, ⟨p, hissue, hk, rfl⟩ | ⟨k, v, -, rfl⟩ | ⟨-, -, rfl⟩⟩ | ⟨p, hw, -, rfl⟩ | ⟨p, hw, -, rfl⟩ := hact
  · have hlaunch : issue act s = .next (launch p s) := by rw [hissue, issuePrim, hk]
    exact ⟨⟨hcmd, fun ack ht => h.cmd i hc (receivesByte_of_issue (List.mem_of_getElem? ha) hlaunch ht hw)⟩, rfl⟩
  · exact ⟨⟨hcmd, by simp⟩, rfl⟩
  · exact ⟨⟨hcmd, h.wait⟩, rfl⟩
  · exact ⟨⟨hcmd, by simp⟩, observe_result (fun ack hp => h.wait ack (hp ▸ hw)) act s⟩
  · exact ⟨⟨hcmd, by simpa using h.wait⟩, busTurn_result s⟩

/-- A command that receives no byte leaves RESULT alone. -/
theorem runCommand_result {s t : State} {i : Instr} (hi : ¬receivesByte i) (h : runCommand i s = .next t) :
    t.result = s.result := by
  have hstart : (accept i s).Sends := ⟨fun j hj => Option.some.inj hj ▸ hi, by simp⟩
  refine (runMoves_induct (P := fun u => u.Sends ∧ u.result = s.result) (fun u v ⟨hu, hres⟩ hm => ?_)
    ⟨hstart, rfl⟩ h).2
  obtain ⟨hv, he⟩ := move_sends hu hm
  exact ⟨hv, he.trans hres⟩

/-! ### The frame -/

/-- A bus command is its moves, or has length 0, which is illegal (60_exceptions.md R243). -/
theorem exec_busCommand {s t : State} {i : Instr} (hs : sequenceOf s.cfg i ≠ []) (h : exec i s = .next t) :
    runCommand i s = .next t ∨ t = raiseIllegal .illegalField s := by
  obtain hrun | htable | hillegal := exec_shape s.cfg i
  · exact .inl ((hrun s).symm.trans h)
  · exact absurd htable hs
  · exact .inr (Host.Outcome.next.inj (h.symm.trans (hillegal s)))

/-- Settles O53: every move keeps the frame, RESULT is written by RX and BUF by SEQ_RD only. -/
theorem busCommandFrame : Obligations.BusCommandFrame := by
  unfold Obligations.BusCommandFrame
  intro s t i hs hx
  obtain hrun | rfl := exec_busCommand hs hx
  · have hcont := runMoves_continues hrun
    obtain ⟨hport, hpin⟩ := runMoves_inputs hrun
    refine ⟨hcont.cfg, hcont.rate, hcont.initialized, runMoves_traceEn (s := accept i s) hrun, hport, hpin, hcont.statusPs,
      fun hrx hrd hsq => runCommand_result (fun hi => ?_) hrun, fun hsq => readBuf_congr hcont.cfg ?_⟩
    · obtain ⟨a, rfl⟩ | ⟨a, rfl⟩ | ⟨a, l, rfl⟩ := hi
      · exact hrx a rfl
      · exact hrd a rfl
      · exact hsq a l rfl
    · exact runMoves_buf (s := accept i s) (fun ⟨a, l, hc⟩ => hsq a l (Option.some.inj hc)) hrun
  · exact ⟨rfl, rfl, rfl, rfl, rfl, rfl, rfl, fun _ _ _ => rfl, fun _ _ => rfl⟩

end Sys2Proof.Machine
end

section
/-! PROOFS. Where the stores of SEQ_RD end (41_eeprom_client_transactions.md R185). -/

namespace Sys2Proof.Machine

/-- SEQ_RD of `len` bytes has responded, or has `i` below `len` up to its data loop, at entry 5 (R185). -/
def State.storesBelow (len : Byte) (s : State) : Prop :=
  s.seq.cmd = none ∨ ∃ addr, s.seq.cmd = some (.seqRd addr len) ∧ (s.seq.pc ≤ 5 → s.seq.i.toNat < len.toNat)

/-- The index of the next turn of a data loop that goes on is below the length (R187). -/
theorem toNat_lt_of_loopGoesOn {i len : Byte} (h : loopGoesOn i len = true) : i.toNat < len.toNat := by
  simpa [loopGoesOn, BitVec.ult] using h

/-- The entry that stores stands at 5 in the table of SEQ_RD, behind entries `do P` (R185). -/
theorem seqRdSeq_recvBuf {c : Config.Params} {addr len l : Byte} {n : Nat}
    (h : (sequenceOf c (.seqRd addr len))[n]? = some (.recvBuf l)) : n = 5 ∧ l = len := by
  have hn : n < 8 := (List.getElem?_eq_some_iff.mp h).1
  interval_cases n <;> simp [sequenceOf, seqRdSeq, openWrite, turnRead] at h
  exact ⟨rfl, h.symm⟩

/-- Every other entry of SEQ_RD leaves `seq.i` alone and goes at most one entry further. -/
theorem observe_seqRd_other {act : SeqAct} {c : Config.Params} {addr len : Byte}
    (ha : act ∈ sequenceOf c (.seqRd addr len)) (hn : ∀ l, act ≠ .recvBuf l) (p : Prim) (s : State) :
    (observe act p s).seq.i = s.seq.i ∧ s.seq.pc ≤ (observe act p s).seq.pc := by
  cases act with
  | recvBuf l => exact absurd rfl (hn l)
  | sendBuf l => simp [sequenceOf, seqRdSeq, openWrite, turnRead] at ha
  | prim _ | untilAck | respondOk | respondResult => simp [observe, finishEntry]

/-- A byte that is not the one SEQ_RD stores (R185). -/
theorem readBuf_observe_recvBuf {s : State} {k : Byte} (h : s.seq.i ≠ k) (len : Byte) (p : Prim) :
    readBuf k (observe (.recvBuf len) p s) = readBuf k s := by
  rw [← readBuf_writeBuf_other (s := s) (v := (observe (.recvBuf len) p s).result) h]
  exact readBuf_congr (by simp) (by simp [observe, finishEntry]) k

theorem observe_recvBuf_seq (len : Byte) (p : Prim) (s : State) :
    (observe (.recvBuf len) p s).seq =
      { s.seq with
        i := s.seq.i + 1#8
        pc := if loopGoesOn (s.seq.i + 1#8) len then s.seq.pc else s.seq.pc + 1
        wait := none } := by
  simp [observe, finishEntry]

/-- A move of SEQ_RD stores below `len` at most. -/
theorem move_storesBelow {s t : State} {len : Byte} (h : s.storesBelow len) (hm : move s = .next t) :
    t.storesBelow len ∧ ∀ k : Byte, len.toNat ≤ k.toNat → readBuf k t = readBuf k s := by
  obtain ⟨hc, rfl⟩ | ⟨i, hc, ⟨-, rfl⟩ | ⟨act, ha, hact⟩⟩ := move_cases hm
  · exact ⟨h, fun _ _ => rfl⟩
  · exact ⟨h, fun _ _ => rfl⟩
  obtain ⟨addr, hcmd, hi⟩ : ∃ addr, s.seq.cmd = some (.seqRd addr len) ∧ (s.seq.pc ≤ 5 → s.seq.i.toNat < len.toNat) :=
    h.resolve_left (by simp [hc])
  obtain rfl : i = .seqRd addr len := Option.some.inj (hc.symm.trans hcmd)
  obtain ⟨-, ⟨p, -, -, rfl⟩ | ⟨k, v, -, rfl⟩ | ⟨rfl, -, -⟩⟩ | ⟨p, -, -, rfl⟩ | ⟨p, -, -, rfl⟩ := hact
  · exact ⟨.inr ⟨addr, hcmd, hi⟩, fun _ _ => rfl⟩
  · exact ⟨.inl rfl, fun _ _ => rfl⟩
  · exact absurd (List.mem_of_getElem? ha) (by simp [sequenceOf, seqRdSeq, openWrite, turnRead])
  · by_cases hr : ∃ l, act = .recvBuf l
    · obtain ⟨l, rfl⟩ := hr
      obtain ⟨hpc, rfl⟩ := seqRdSeq_recvBuf ha
      refine ⟨.inr ⟨addr, by simpa using hcmd, fun hle => ?_⟩, fun k hk => ?_⟩
      · rw [observe_recvBuf_seq] at hle ⊢
        by_cases hg : loopGoesOn (s.seq.i + 1#8) l = true
        · exact toNat_lt_of_loopGoesOn hg
        · simp [hg, hpc] at hle
      · have hne : s.seq.i ≠ k := fun he => by have := hi hpc.le; rw [he] at this; omega
        exact readBuf_observe_recvBuf hne l p
    · have hn : ∀ l, act ≠ .recvBuf l := fun l hl => hr ⟨l, hl⟩
      obtain ⟨he, hle⟩ := observe_seqRd_other (List.mem_of_getElem? ha) hn p s
      exact ⟨.inr ⟨addr, by simpa using hcmd, fun h5 => by rw [he]; exact hi (hle.trans h5)⟩,
        fun k _ => readBuf_congr (observe_cfg _ _ _) (observe_buf hn p s) k⟩
  · exact ⟨.inr ⟨addr, by simpa using hcmd, by simpa using hi⟩,
      fun k _ => readBuf_congr (busTurn_cfg s) (busTurn_buf s) k⟩

/-- Settles O54: `seq.i` is below `len` where SEQ_RD stores, and no other move of it touches BUF. -/
theorem seqRdStoresBelowLen : Obligations.SeqRdStoresBelowLen := by
  unfold Obligations.SeqRdStoresBelowLen
  intro s t addr len hx
  by_cases hlen : len = 0#8
  · have ht : exec (.seqRd addr len) s = .next (raiseIllegal .illegalField s) := if_pos hlen
    rw [← Host.Outcome.next.inj (ht.symm.trans hx)]
    exact fun _ _ => rfl
  · rw [exec_seqRd hlen] at hx
    have hstart : (accept (.seqRd addr len) s).storesBelow len :=
      .inr ⟨addr, rfl, fun _ => by simpa using toNat_pos_of_ne_zero hlen⟩
    refine (runMoves_induct
      (P := fun u => u.storesBelow len ∧ ∀ k : Byte, len.toNat ≤ k.toNat → readBuf k u = readBuf k s)
      (fun u v ⟨hu, hread⟩ hm => ?_) ⟨hstart, fun _ _ => rfl⟩ hx).2
    obtain ⟨hv, hkeep⟩ := move_storesBelow hu hm
    exact ⟨hv, fun k hk => (hkeep k hk).trans (hread k hk)⟩

end Sys2Proof.Machine
end

section
/-! PROOFS. Why a single master has no transaction refused: every entry of a table leaves a phase the next one is legal
in (41_eeprom_client_transactions.md R174). -/

namespace Sys2Proof.Machine

/-! ### The phases along a table -/

/-- The phases an entry's primitive may be launched in; an entry that launches none stands in any (R135). -/
def SeqAct.legalIn (ph : Phase) : SeqAct → Prop
  | .prim p => legalPhase p ph
  | .sendBuf _ => ph = .mt
  | .recvBuf _ => ph = .mr
  | .untilAck | .respondOk | .respondResult => True

/-- The phase a primitive launched in a legal phase leaves, unless it loses arbitration (10_state.md R32). -/
def primPhase (c : Config.Params) : Prim → Phase
  | .start => .started
  | .stop => .idle
  | .txa b => if directionOf b = c.dirWrite then .mt else .mr
  | .txb _ => .mt
  | .rx _ => .mr

/-- The phase an entry leaves, unless its primitive loses arbitration. -/
def SeqAct.phaseAfter (c : Config.Params) : SeqAct → Phase
  | .prim p => primPhase c p
  | .sendBuf _ => .mt
  | .recvBuf _ => .mr
  | .untilAck | .respondOk | .respondResult => .idle

/-- The primitives an entry launches. -/
def SeqAct.launches (p : Prim) : SeqAct → Prop
  | .prim q => p = q
  | .sendBuf _ => ∃ v, p = .txb v
  | .recvBuf _ => ∃ ack, p = .rx ack
  | .untilAck | .respondOk | .respondResult => False

theorem outcomePhase_of_kept {c : Config.Params} {ph : Phase} {p : Prim} {a : Answer} (hl : legalPhase p ph)
    (hf : fits p a = true) (ha : a ≠ .arbLost) : outcomePhase c ph p a = primPhase c p := by
  cases p <;> cases a <;> simp_all [fits, outcomePhase, primPhase, legalPhase]

theorem SeqAct.launches_phaseAfter {act : SeqAct} {p : Prim} (h : act.launches p) (c : Config.Params) :
    primPhase c p = act.phaseAfter c := by
  cases act with
  | prim q => rw [show p = q from h]; rfl
  | sendBuf _ => obtain ⟨v, rfl⟩ := h; rfl
  | recvBuf _ => obtain ⟨ack, rfl⟩ := h; rfl
  | untilAck | respondOk | respondResult => exact h.elim

theorem SeqAct.launches_legal {act : SeqAct} {p : Prim} {ph : Phase} (h : act.launches p) (hl : act.legalIn ph) :
    legalPhase p ph := by
  cases act with
  | prim q => rw [show p = q from h]; exact hl
  | sendBuf _ => obtain ⟨v, rfl⟩ := h; exact hl
  | recvBuf _ => obtain ⟨ack, rfl⟩ := h; exact hl
  | untilAck | respondOk | respondResult => exact h.elim

/-- Every entry of a table leaves a phase the next one is legal in (R180 to R186). -/
theorem sequenceOf_chain (c : Config.Params) (i : Instr) :
    (sequenceOf c i).IsChain fun x y => y.legalIn (x.phaseAfter c) := by
  cases i <;> simp [sequenceOf, startSeq, stopSeq, txaSeq, txbSeq, rxSeq, rdByteSeq, wrByteSeq, wrPageSeq, seqRdSeq,
    waitWcSeq, openWrite, turnRead, SeqAct.legalIn, SeqAct.phaseAfter, primPhase]

theorem sequenceOf_legal_next {c : Config.Params} {i : Instr} {n : Nat} {x y : SeqAct}
    (hx : (sequenceOf c i)[n]? = some x) (hy : (sequenceOf c i)[n + 1]? = some y) : y.legalIn (x.phaseAfter c) := by
  obtain ⟨hn, rfl⟩ := List.getElem?_eq_some_iff.mp hx
  obtain ⟨hn', rfl⟩ := List.getElem?_eq_some_iff.mp hy
  exact List.isChain_iff_getElem.mp (sequenceOf_chain c i) n hn'

/-! ### A single master -/

/-- How far the entry `act` has come: not begun in a phase that is legal for it, in flight in such a phase, or completed
with the arbitration kept. -/
def State.stage (act : SeqAct) (s : State) : Prop :=
  (s.seq.wait = none ∧ act.legalIn s.phase) ∨
    ∃ p, s.seq.wait = some p ∧ act.launches p ∧
      ((s.inflight = some p ∧ act.legalIn s.phase) ∨ (s.inflight = none ∧ s.phase = act.phaseAfter s.cfg))

/-- No arbitration is lost, and the entry reached is at one of its stages (R174). -/
structure State.OnCourse (s : State) : Prop where
  env : s.env.singleMaster
  awaits : s.Awaits
  stage : ∀ i act, s.seq.cmd = some i → (sequenceOf s.cfg i)[s.seq.pc]? = some act → s.stage act

/-- A single master stays one, and loses no arbitration (20_memory.md R73). -/
theorem pollEnv_singleMaster {p : Prim} {s : State} (h : s.env.singleMaster) :
    (pollEnv p s).2.env.singleMaster ∧ (pollEnv p s).1 ≠ some .arbLost := by
  cases he : s.env with
  | scripted now again =>
    rw [he] at h
    obtain ⟨hnow, hagain⟩ := h
    simp only [pollEnv, he]
    unfold scriptAnswer
    split
    · simp only [List.mem_cons, not_or] at hnow
      split
      · exact ⟨⟨hnow.2, hagain⟩, by simpa using Ne.symm hnow.1⟩
      · exact ⟨⟨by simpa using hnow, hagain⟩, by simp⟩
    · split
      · simp only [List.mem_cons, not_or] at hagain
        split
        · exact ⟨⟨hagain.2, by simpa using hagain⟩, by simpa using Ne.symm hagain.1⟩
        · exact ⟨⟨hnow, by simpa using hagain⟩, by simp⟩
      · exact ⟨⟨hnow, hagain⟩, by simp⟩
  | device d =>
    rw [pollEnv_device he]
    exact ⟨trivial, fun ha => Device.answer_ne_arbLost _ _ _ p d (Option.some.inj ha)⟩
  | free =>
    rw [he] at h
    simp only [pollEnv, he]
    exact ⟨h, fun ha => h _ _ (Option.filter_eq_some_iff.mp ha).1⟩

/-- The primitive an entry issues is one it launches. -/
theorem launches_of_issue {act : SeqAct} {p : Prim} {s : State} (h : issue act s = issuePrim p s)
    (hk : contract p s = none) : act.launches p := by
  have hlaunch : issue act s = .next (launch p s) := by rw [h, issuePrim, hk]
  obtain ⟨-, hf, -⟩ := contract_none hk
  have hprim : ∀ {q}, issuePrim q s = .next (launch p s) → p = q := fun {q} hq =>
    Option.some.inj (congrArg State.inflight (issuePrim_next hq))
  have hnone : ∀ {u : State}, u.inflight = s.inflight → .next u ≠ issue act s := fun {u} hu he =>
    nomatch (congrArg State.inflight (Host.Outcome.next.inj (he.trans hlaunch))).symm.trans (hu.trans hf)
  cases act with
  | prim q => exact hprim hlaunch
  | recvBuf l => exact ⟨_, hprim hlaunch⟩
  | sendBuf l =>
    simp only [issue] at hlaunch
    split at hlaunch
    · cases hlaunch
    · next v _ => exact ⟨v, hprim hlaunch⟩
  | untilAck =>
    by_cases hcode : statusCode s.cfg s.status = s.cfg.codes.slaWAck
    · exact absurd (if_pos hcode).symm (hnone (respond_inflight .ok 0x00#8 s))
    · exact absurd (if_neg hcode).symm (hnone (u := { s with seq := { s.seq with pc := 0 } }) rfl)
  | respondOk => exact absurd rfl (hnone (respond_inflight .ok 0x00#8 s))
  | respondResult => exact absurd rfl (hnone (respond_inflight .okData s.result s))

/-- Only WAIT_WC goes back, to START (R186). -/
theorem untilAck_table {c : Config.Params} {i : Instr} (h : .untilAck ∈ sequenceOf c i) :
    (sequenceOf c i)[0]? = some (.prim .start) := by
  cases i with
  | waitWc => rfl
  | init _ | status | decode _ | trace _ | regRd _ | bufWr _ _ | bufRd _ => cases h
  | start | stop | txa _ _ | txb _ | rx _ | rdByte _ | wrByte _ _ | wrPage _ _ | seqRd _ _ =>
    simp [sequenceOf, startSeq, stopSeq, txaSeq, txbSeq, rxSeq, rdByteSeq, wrByteSeq, wrPageSeq, seqRdSeq, openWrite,
      turnRead] at h

theorem busTurn_stage {act : SeqAct} {s : State} (h : s.stage act) (ha : s.Awaits) (he : s.env.singleMaster) :
    (busTurn s).stage act := by
  obtain ⟨-, hb⟩ | ⟨p, hf, hb | ⟨a, hpoll, hb⟩⟩ := busTurn_cases s <;> rw [hb]
  · exact h
  · rw [pollEnv_state]
    exact h
  obtain ⟨hw, -⟩ := ha p hf
  obtain ⟨hn, -⟩ | ⟨q, hq, hlaunch, ⟨-, hl⟩ | ⟨hn, -⟩⟩ := h
  · exact nomatch hw.symm.trans hn
  · obtain rfl : p = q := Option.some.inj (hw.symm.trans hq)
    refine .inr ⟨p, by simpa using hw, hlaunch, .inr ⟨rfl, ?_⟩⟩
    have hkept : a ≠ .arbLost := fun hlost => (pollEnv_singleMaster he).2 (hlost ▸ hpoll)
    rw [complete_phase, pollEnv_cfg, pollEnv_phase,
      outcomePhase_of_kept (SeqAct.launches_legal hlaunch hl) (pollEnv_fits hpoll) hkept, complete_cfg, pollEnv_cfg]
    exact SeqAct.launches_phaseAfter hlaunch s.cfg
  · exact nomatch hf.symm.trans hn

/-- A completed entry leaves a phase that is legal for the entry the sequencer goes to. -/
theorem observe_stage {act act' : SeqAct} {p : Prim} {s : State} {i : Instr}
    (ha : (sequenceOf s.cfg i)[s.seq.pc]? = some act) (hphase : s.phase = act.phaseAfter s.cfg)
    (hlaunch : act.launches p) (ha' : (sequenceOf s.cfg i)[(observe act p s).seq.pc]? = some act') :
    (observe act p s).stage act' := by
  refine .inl ⟨observe_wait act p s, ?_⟩
  rw [observe_phase, hphase]
  have hnext : (observe act p s).seq.pc = s.seq.pc + 1 → act'.legalIn (act.phaseAfter s.cfg) := fun hpc =>
    sequenceOf_legal_next ha (hpc ▸ ha')
  have hloop : ∀ l, act = .sendBuf l ∨ act = .recvBuf l → act'.legalIn (act.phaseAfter s.cfg) := fun l hl => by
    have hpc : (observe act p s).seq.pc = s.seq.pc ∨ (observe act p s).seq.pc = s.seq.pc + 1 := by
      obtain rfl | rfl := hl <;> simp only [observe, finishEntry, countLoop_seq] <;> split <;> simp
    obtain hpc | hpc := hpc
    · rw [hpc, ha] at ha'
      obtain rfl := Option.some.inj ha'
      obtain rfl | rfl := hl <;> rfl
    · exact hnext hpc
  cases act with
  | prim q => exact hnext (by simp [observe, finishEntry])
  | sendBuf l => exact hloop l (.inl rfl)
  | recvBuf l => exact hloop l (.inr rfl)
  | untilAck | respondOk | respondResult => exact hlaunch.elim

theorem move_onCourse {s t : State} (h : s.OnCourse) (hm : move s = .next t) : t.OnCourse := by
  obtain ⟨he, haw, hst⟩ := h
  have haw' := move_awaits haw hm
  obtain ⟨-, rfl⟩ | ⟨i, hc, ⟨-, rfl⟩ | ⟨act, ha, hact⟩⟩ := move_cases hm
  · exact ⟨he, haw, hst⟩
  · exact ⟨he, haw, hst⟩
  have hstage := hst i act hc ha
  obtain ⟨hw, ⟨p, hissue, hk, rfl⟩ | ⟨k, v, -, rfl⟩ | ⟨rfl, -, rfl⟩⟩ | ⟨p, hw, hseen, rfl⟩ | ⟨p, hw, -, rfl⟩ := hact
  · refine ⟨he, haw', fun j act' hj ha' => ?_⟩
    obtain rfl : i = j := Option.some.inj (hc.symm.trans hj)
    obtain rfl : act = act' := Option.some.inj (ha.symm.trans ha')
    obtain ⟨-, hl⟩ | ⟨q, hq, -⟩ := hstage
    · exact .inr ⟨p, rfl, launches_of_issue hissue hk, .inl ⟨rfl, hl⟩⟩
    · exact nomatch hw.symm.trans hq
  · exact ⟨he, haw', fun j act' hj => nomatch hj⟩
  · refine ⟨he, haw', fun j act' hj ha' => .inl ⟨hw, ?_⟩⟩
    obtain rfl : i = j := Option.some.inj (hc.symm.trans hj)
    obtain rfl := Option.some.inj ((untilAck_table (List.mem_of_getElem? ha)).symm.trans ha')
    trivial
  · refine ⟨by simpa using he, haw', fun j act' hj ha' => ?_⟩
    obtain rfl : i = j := Option.some.inj (hc.symm.trans ((observe_cmd act p s).symm.trans hj))
    obtain ⟨hn, -⟩ | ⟨q, hq, hlaunch, ⟨hf, -⟩ | ⟨-, hphase⟩⟩ := hstage
    · exact nomatch hw.symm.trans hn
    · obtain rfl : p = q := Option.some.inj (hw.symm.trans hq)
      exact nomatch hseen.symm.trans (haw p hf).2
    · obtain rfl : p = q := Option.some.inj (hw.symm.trans hq)
      exact observe_stage ha hphase hlaunch (by simpa using ha')
  · refine ⟨?_, haw', fun j act' hj ha' => ?_⟩
    · obtain ⟨-, hb⟩ | ⟨p, -, hb | ⟨a, -, hb⟩⟩ := busTurn_cases s <;> rw [hb]
      · exact he
      · exact (pollEnv_singleMaster he).1
      · exact (pollEnv_singleMaster he).1
    · obtain rfl : i = j := Option.some.inj (hc.symm.trans (by simpa using hj))
      obtain rfl : act = act' := Option.some.inj (ha.symm.trans (by simpa using ha'))
      exact busTurn_stage hstage haw he

/-- An entry issued on course is refused for a byte of BUF never written only (R174, 20_memory.md R63). -/
theorem issue_refused_onCourse {act : SeqAct} {s : State} {r : Refusal} (hi : s.initialized = true)
    (hf : s.inflight = none) (hl : act.legalIn s.phase) (h : issue act s = .refused r) :
    r = .unwrittenBuffer ∧ ∃ l, act = .sendBuf l := by
  have hprim : ∀ p, legalPhase p s.phase → issuePrim p s ≠ .refused r := fun p hp hr =>
    nomatch (issuePrim_refused hr).symm.trans (contract_eq_none hi hf hp)
  cases act with
  | prim p => exact absurd h (hprim p hl)
  | recvBuf l => exact absurd h (hprim _ hl)
  | sendBuf l =>
    simp only [issue] at h
    split at h
    · exact ⟨(Host.Outcome.refused.inj h).symm, l, rfl⟩
    · next v _ => exact absurd h (hprim (.txb v) hl)
  | untilAck =>
    simp only [issue] at h
    split at h <;> cases h
  | respondOk | respondResult => cases h

/-- Only WR_PAGE sends from BUF (R183). -/
theorem wrPage_of_sendBuf {c : Config.Params} {i : Instr} {l : Byte} (h : .sendBuf l ∈ sequenceOf c i) :
    ∃ a, i = .wrPage a l := by
  cases i with
  | wrPage a m =>
    obtain rfl : l = m := by simpa [sequenceOf, wrPageSeq, openWrite] using h
    exact ⟨a, rfl⟩
  | init _ | status | decode _ | trace _ | regRd _ | bufWr _ _ | bufRd _ => cases h
  | start | stop | txa _ _ | txb _ | rx _ | rdByte _ | wrByte _ _ | seqRd _ _ | waitWc =>
    simp [sequenceOf, startSeq, stopSeq, txaSeq, txbSeq, rxSeq, rdByteSeq, wrByteSeq, seqRdSeq, waitWcSeq, openWrite,
      turnRead] at h

/-- A command that begins with START is refused by no single master but WR_PAGE, for a byte never written. -/
theorem runMoves_singleMaster {s : State} {i : Instr} {n : Nat} {r : Refusal} (hr : s.ready) (hi : s.initialized = true)
    (he : s.env.singleMaster) (hs : (sequenceOf s.cfg i)[0]? = some (.prim .start))
    (h : runMoves n (accept i s) = .refused r) : r = .unwrittenBuffer ∧ ∃ a l, i = .wrPage a l := by
  obtain ⟨m, t, hrun, hmove⟩ := runMoves_refused h
  obtain ⟨j, act, hc, ha, hw, hissue⟩ := move_refused hmove
  have hstart : (accept i s).OnCourse := ⟨he, State.awaits_of_none hr.2, fun j act hj ha => by
    obtain rfl : i = j := Option.some.inj hj
    obtain rfl := Option.some.inj (hs.symm.trans ha)
    exact .inl ⟨rfl, trivial⟩⟩
  have hon : t.OnCourse := runMoves_induct (fun _ _ hu hm => move_onCourse hu hm) hstart hrun
  obtain ⟨-, hl⟩ | ⟨p, hp, -⟩ := hon.stage j act hc ha
  · obtain ⟨rfl, l, rfl⟩ := issue_refused_onCourse ((runMoves_continues hrun).initialized.trans hi)
      (hon.awaits.inflight_none hw) hl hissue
    obtain ⟨a, rfl⟩ := wrPage_of_sendBuf (List.mem_of_getElem? ha)
    obtain hcmd | hcmd := runMoves_cmd hrun
    · exact ⟨rfl, a, l, Option.some.inj (hcmd.symm.trans hc)⟩
    · exact nomatch hc.symm.trans hcmd
  · exact nomatch hw.symm.trans hp

/-- Settles O37: with no arbitration lost each entry leaves a phase the next is legal in, so BUF alone can refuse. -/
theorem singleMasterNeverRefuses : Obligations.SingleMasterNeverRefuses := by
  unfold Obligations.SingleMasterNeverRefuses
  intro s n i r hr hi he
  refine ⟨fun hcmd h => ?_, fun ⟨a, l, hcmd⟩ h => ?_⟩
  · have hs : (sequenceOf s.cfg i)[0]? = some (.prim .start) := by
      obtain ⟨a, rfl⟩ | ⟨a, d, rfl⟩ | ⟨a, l, rfl⟩ | rfl := hcmd <;> rfl
    obtain ⟨-, a, l, rfl⟩ := runMoves_singleMaster hr hi he hs h
    simp at hcmd
  · subst hcmd
    exact (runMoves_singleMaster hr hi he rfl h).1

end Sys2Proof.Machine
end

section
/-! PROOFS. The walk of a table against a script, in every field of the state: a primitive leaves inside a transaction
what it leaves by itself, and the block inside a transaction differs from that in `seq`, the response and BUF only
(41_eeprom_client_transactions.md R171). -/

namespace Sys2Proof.Machine

/-! ### The block inside a transaction -/

/-- The block `s` as it stands inside a transaction: at `q`, without a response, and with this BUF. -/
def State.inside (q : Seq) (m : Memory) (s : State) : State := { s with seq := q, resp := none, buf := m }

/-- The block on a bus that gives these answers (20_memory.md R70). -/
def State.scripted (now again : List Answer) (s : State) : State := { s with env := .scripted now again }

@[simp] theorem inside_cfg (q : Seq) (m : Memory) (s : State) : (s.inside q m).cfg = s.cfg := rfl
@[simp] theorem scripted_cfg (now again : List Answer) (s : State) : (s.scripted now again).cfg = s.cfg := rfl

theorem State.scripted_self {s : State} {now again : List Answer} (h : s.env = .scripted now again) :
    s.scripted now again = s := by
  unfold State.scripted; rw [← h]

/-- The block after a primitive with this outcome, but for the environment (40_bus_driver_primitives.md R136). -/
def State.did (p : Prim) (a : Answer) (s : State) : State :=
  { s.performed s p a with
    seq := s.seq
    result := match p with
      | .rx _ => (s.performed s p a).data
      | .start | .stop | .txa _ | .txb _ => s.result }

/-- INIT has been, and nothing is in flight. -/
def State.able (s : State) : Prop := s.initialized = true ∧ s.inflight = none

section Did
variable (p : Prim) (a : Answer) (s : State)

@[simp] theorem did_cfg : (s.did p a).cfg = s.cfg := rfl
@[simp] theorem did_ctrl :
    (s.did p a).ctrl = ctrlComplete s.cfg.ctrlLayout p (ctrlByte s.cfg.ctrlLayout (launchFields p)) := rfl
@[simp] theorem did_rate : (s.did p a).rate = s.rate := rfl
@[simp] theorem did_status :
    (s.did p a).status = withCode s.cfg s.status (outcomeCode s.cfg s.phase (statusCode s.cfg s.status) p a) := rfl
@[simp] theorem did_data :
    (s.did p a).data = outcomeData (launchData p s.data) (Config.freeByte s.draws) p a := rfl
@[simp] theorem did_phase : (s.did p a).phase = outcomePhase s.cfg s.phase p a := rfl
@[simp] theorem did_inflight : (s.did p a).inflight = s.inflight := rfl
@[simp] theorem did_initialized : (s.did p a).initialized = s.initialized := rfl
@[simp] theorem did_traceEn : (s.did p a).traceEn = s.traceEn := rfl
@[simp] theorem did_result :
    (s.did p a).result =
      match p with
      | .rx _ => outcomeData (launchData p s.data) (Config.freeByte s.draws) p a
      | .start | .stop | .txa _ | .txb _ => s.result := rfl
@[simp] theorem did_seq : (s.did p a).seq = s.seq := rfl
@[simp] theorem did_buf : (s.did p a).buf = s.buf := rfl
@[simp] theorem did_resp : (s.did p a).resp = s.resp := rfl
@[simp] theorem did_busHistory : (s.did p a).busHistory = s.busHistory ++ [outcomeEvent s.phase p a] := rfl
@[simp] theorem did_diagHistory :
    (s.did p a).diagHistory =
      s.diagHistory ++ traceOf s [outcomeCode s.cfg s.phase (statusCode s.cfg s.status) p a] := rfl
@[simp] theorem did_env : (s.did p a).env = s.env := rfl
@[simp] theorem did_draws : (s.did p a).draws = if drawsData p a then s.draws + 1 else s.draws := rfl
@[simp] theorem did_port : (s.did p a).port = s.port := rfl
@[simp] theorem did_resetPin : (s.did p a).resetPin = s.resetPin := rfl
@[simp] theorem did_pace : (s.did p a).pace = s.pace := rfl

@[simp] theorem traceOf_did (l : List Byte) : traceOf (s.did p a) l = traceOf s l := rfl
end Did

/-- The environment does not look at where the sequencer stands. -/
theorem pollEnv_inside (p : Prim) (q : Seq) (m : Memory) (s : State) :
    pollEnv p (s.inside q m) = ((pollEnv p s).1, (pollEnv p s).2.inside q m) := by
  unfold pollEnv State.inside
  cases s.env <;> rfl

/-- A primitive that the script answers does inside a transaction what it does by itself. -/
theorem afterPrim_inside {s : State} {q : Seq} {p : Prim} {a : Answer} {now again : List Answer}
    (hf : s.inflight = none) (hw : q.wait = none) (hp : pollEnv p s = (some a, s.scripted now again))
    (act : SeqAct) (m : Memory) :
    afterPrim act p a (s.inside q m) = finishEntry act (((s.did p a).scripted now again).inside q m) := by
  have hin : pollEnv p (s.inside q m) = (some a, (s.scripted now again).inside q m) := by rw [pollEnv_inside, hp]
  have hentry : afterPrim act p a (s.inside q m) = finishEntry act (afterPrim .respondOk p a (s.inside q m)) := rfl
  have hseq : (afterPrim .respondOk p a (s.inside q m)).seq = q := by
    simp [afterPrim, observe, finishEntry, State.inside, ← hw]
  have hbuf : (afterPrim .respondOk p a (s.inside q m)).buf = m := by
    simp [afterPrim, observe, finishEntry, State.inside]
  rw [hentry]
  congr 1
  apply State.ext <;>
    simp only [hseq, hbuf, afterPrim_cfg, afterPrim_ctrl, afterPrim_rate, afterPrim_status, afterPrim_data,
      afterPrim_phase, afterPrim_inflight, afterPrim_initialized, afterPrim_traceEn, afterPrim_result, afterPrim_resp,
      afterPrim_busHistory, afterPrim_diagHistory, afterPrim_env, afterPrim_draws, afterPrim_port, afterPrim_resetPin,
      afterPrim_pace, hin]
  case inflight => exact hf.symm
  case result => cases p <;> rfl
  all_goals rfl

/-- The block after these primitives with these outcomes, but for the environment. -/
def State.doing (l : List (Prim × Answer)) (s : State) : State := l.foldl (fun s x => s.did x.1 x.2) s

section Doing
variable (l l' : List (Prim × Answer)) (s : State)

@[simp] theorem doing_nil : s.doing [] = s := rfl
@[simp] theorem doing_cons (x : Prim × Answer) : s.doing (x :: l) = (s.did x.1 x.2).doing l := rfl
@[simp] theorem doing_append : s.doing (l ++ l') = (s.doing l).doing l' := List.foldl_append ..

/-- Primitives write neither the configuration nor the programming of INIT, and leave nothing in flight. -/
theorem doing_frame : (s.doing l).cfg = s.cfg ∧ (s.doing l).initialized = s.initialized ∧
    (s.doing l).inflight = s.inflight := by
  induction l generalizing s with
  | nil => exact ⟨rfl, rfl, rfl⟩
  | cons x l ih => exact ih (s.did x.1 x.2)

@[simp] theorem doing_cfg : (s.doing l).cfg = s.cfg := (doing_frame l s).1
end Doing

theorem State.able.did {s : State} (h : s.able) (p : Prim) (a : Answer) : (s.did p a).able := h

theorem State.able.doing {s : State} (h : s.able) (l : List (Prim × Answer)) : (s.doing l).able := by
  obtain ⟨-, hi, hf⟩ := doing_frame l s
  exact ⟨hi.trans h.1, hf.trans h.2⟩

/-! ### Entries -/

section Entry
variable {s : State} {i : Instr} {pc : Nat} {j : Byte} {m : Memory} {act : SeqAct} {p : Prim}

/-- An entry whose primitive the script answers at the first poll. -/
theorem inside_answered {a : Answer} {now again : List Answer} (h : s.able) (ht : (sequenceOf s.cfg i)[pc]? = some act)
    (hact : ∀ u : State, u.cfg = s.cfg → u.seq = ⟨some i, pc, j, none⟩ → u.buf = m → issue act u = issuePrim p u)
    (hl : legalPhase p s.phase) (hp : pollEnv p s = (some a, s.scripted now again)) :
    MovesTo 3 (s.inside ⟨some i, pc, j, none⟩ m)
      (finishEntry act (((s.did p a).scripted now again).inside ⟨some i, pc, j, none⟩ m)) := by
  have hk : contract p (s.inside ⟨some i, pc, j, none⟩ m) = none := contract_eq_none h.1 h.2 hl
  intro n
  rw [runMoves_prim (s := s.inside ⟨some i, pc, j, none⟩ m) (a := a) (i := i) rfl rfl ht (hact _ rfl rfl rfl) hk
    (by rw [pollEnv_inside, hp]) n, afterPrim_inside h.2 rfl hp]

/-- An entry whose primitive is answered by the next answer of the script. -/
theorem inside_step {a : Answer} {now again : List Answer} (h : s.able) (ht : (sequenceOf s.cfg i)[pc]? = some act)
    (hact : ∀ u : State, u.cfg = s.cfg → u.seq = ⟨some i, pc, j, none⟩ → u.buf = m → issue act u = issuePrim p u)
    (hl : legalPhase p s.phase) (hf : fits p a = true) :
    MovesTo 3 ((s.scripted (a :: now) again).inside ⟨some i, pc, j, none⟩ m)
      (finishEntry act (((s.did p a).scripted now again).inside ⟨some i, pc, j, none⟩ m)) :=
  inside_answered (s := s.scripted (a :: now) again) h ht hact hl (pollEnv_scripted rfl hf)

/-- An entry whose primitive is not legal in the phase the walk has come to (R135, R174). -/
theorem inside_refused {r : Refusal} (h : s.able) (ht : (sequenceOf s.cfg i)[pc]? = some act)
    (hact : ∀ u : State, u.cfg = s.cfg → u.seq = ⟨some i, pc, j, none⟩ → u.buf = m → issue act u = issuePrim p u)
    (hl : ¬legalPhase p s.phase) (hr : phaseRefusal p = some r) (now again : List Answer) (n : Nat) :
    runMoves (n + 1) ((s.scripted now again).inside ⟨some i, pc, j, none⟩ m) = .refused r := by
  have hk : contract p ((s.scripted now again).inside ⟨some i, pc, j, none⟩ m) = some r :=
    (contract_illegalPhase h.1 h.2 hl).trans hr
  exact runMoves_contract (i := i) rfl rfl ht (hact ((s.scripted now again).inside _ m) rfl rfl rfl) hk n

/-- A response ends the transaction. -/
theorem inside_respond {k : RespKind} {v : State → Byte} (ht : (sequenceOf s.cfg i)[pc]? = some act)
    (hact : ∀ u, issue act u = .next (respond k (v u) u)) (n : Nat) :
    runMoves (n + 1) (s.inside ⟨some i, pc, j, none⟩ m) =
      .next (respond k (v (s.inside ⟨some i, pc, j, none⟩ m)) (s.inside Seq.idle m)) :=
  runMoves_respond (i := i) rfl rfl ht (hact _) n
end Entry

@[simp] theorem fits_granted : fits .start .granted = true := rfl
@[simp] theorem fits_byte (ack : Bool) (d : Byte) : fits (.rx ack) (.byte d) = true := rfl
@[simp] theorem fits_done : fits .stop .done = true := rfl

/-- Each primitive may be launched in the phase the ones before it leave, and each outcome is one of the primitive's. -/
def legalFrom (c : Config.Params) : Phase → List (Prim × Answer) → Prop
  | _, [] => True
  | ph, x :: l => legalPhase x.1 ph ∧ fits x.1 x.2 = true ∧ legalFrom c (outcomePhase c ph x.1 x.2) l

theorem drop_eq_cons {α : Type} {l xs : List α} {x : α} {n : Nat} (h : l.drop n = x :: xs) :
    l[n]? = some x ∧ l.drop (n + 1) = xs := by
  constructor
  · rw [← Nat.add_zero n, ← List.getElem?_drop, h]; rfl
  · rw [← List.drop_drop, h]; rfl

/-- Entries `do P` in a row, answered by the script. -/
theorem walk {l : List (Prim × Answer)} {s : State} {i : Instr} {pc : Nat} {acts : List SeqAct}
    {now again : List Answer} (j : Byte) (m : Memory) (h : s.able)
    (ht : (sequenceOf s.cfg i).drop pc = l.map (fun x => .prim x.1) ++ acts) (hl : legalFrom s.cfg s.phase l) :
    MovesTo (3 * l.length) ((s.scripted (l.map Prod.snd ++ now) again).inside ⟨some i, pc, j, none⟩ m)
      (((s.doing l).scripted now again).inside ⟨some i, pc + l.length, j, none⟩ m) := by
  induction l generalizing s pc with
  | nil => exact MovesTo.refl _
  | cons x l ih =>
    obtain ⟨hentry, htail⟩ := drop_eq_cons ht
    obtain ⟨hlegal, hfits, hrest⟩ := hl
    have h1 := inside_step (j := j) (m := m) (now := l.map Prod.snd ++ now) (again := again) h hentry
      (fun _ _ _ _ => rfl) hlegal hfits
    have h2 := h1.trans (ih (s := s.did x.1 x.2) h htail hrest)
    rwa [Nat.add_comm 3, ← Nat.mul_succ, Nat.add_right_comm] at h2

/-! ### A START in each phase that the transactions launch one in, and stretches of one phase -/

@[simp] theorem startEvent_idle : startEvent .idle = .s := rfl
@[simp] theorem startEvent_mt : startEvent .mt = .sr := rfl
@[simp] theorem startCode_idle (c : Config.Params) : startCode c .idle = c.codes.start := rfl
@[simp] theorem startCode_mt (c : Config.Params) : startCode c .mt = c.codes.rstart := rfl

/-- A code written back is no change (10_state.md R30). -/
@[simp] theorem withCode_statusCode (c : Config.Params) (status : Byte) :
    withCode c status (statusCode c status) = status := by
  unfold withCode statusCode
  ext i hi
  simp only [BitVec.getElem_and, BitVec.getElem_or, BitVec.getElem_not]
  cases c.statusMask[i] <;> simp

/-- Primitives that keep the phase leave an event and a trace event each, and some values in the registers that the next
primitive writes over. -/
theorem doing_stretch {l : List (Prim × Answer)} {s : State} {code : Prim × Answer → Byte}
    (h : ∀ x ∈ l, drawsData x.1 x.2 = false ∧ outcomePhase s.cfg s.phase x.1 x.2 = s.phase ∧
      ∀ old, outcomeCode s.cfg s.phase old x.1 x.2 = code x) :
    ∃ c d k r, s.doing l = { s with
      ctrl := c
      data := d
      status := withCode s.cfg s.status k
      result := r
      busHistory := s.busHistory ++ l.map (fun x => outcomeEvent s.phase x.1 x.2)
      diagHistory := s.diagHistory ++ traceOf s (l.map code) } := by
  induction l generalizing s with
  | nil => exact ⟨s.ctrl, s.data, statusCode s.cfg s.status, s.result, by simp [traceOf]⟩
  | cons x l ih =>
    obtain ⟨⟨hdraw, hphase, hcode⟩, htail⟩ := List.forall_mem_cons.mp h
    obtain ⟨c, d, k, r, hx⟩ := ih (s := s.did x.1 x.2) (by simpa [hphase] using htail)
    refine ⟨c, d, k, r, hx.trans ?_⟩
    simp [hphase, hdraw, hcode, ← traceOf_append]

/-! ### The transactions without a loop -/

/-- `open_write(addr)` with the acknowledge of SLA+W and the outcome of the offset (R182). -/
def openScript (c : Config.Params) (addr : Byte) (a1 : AckBit) (a2 : Answer) : List (Prim × Answer) :=
  [(.start, .granted), (.txa (slaW c), answerOf a1), (.txb addr, a2)]

/-- `turn_read` with the acknowledge of SLA+R (R182). -/
def turnScript (c : Config.Params) (a3 : AckBit) : List (Prim × Answer) :=
  [(.start, .granted), (.txa (slaR c), answerOf a3)]

/-- The walk from the acceptance of a command whose table begins with these primitives. -/
theorem walk_accept {l : List (Prim × Answer)} {s : State} {i : Instr} {acts : List SeqAct} {now again : List Answer}
    (h : s.able) (ht : sequenceOf s.cfg i = l.map (fun x => .prim x.1) ++ acts) (hl : legalFrom s.cfg s.phase l)
    (he : s.env = .scripted (l.map Prod.snd ++ now) again) :
    MovesTo (3 * l.length) (accept i s)
      (((s.doing l).scripted now again).inside ⟨some i, l.length, 0#8, none⟩ s.buf) := by
  have hw := walk (pc := 0) (now := now) (again := again) 0#8 s.buf h ht hl
  rwa [State.scripted_self he, Nat.zero_add] at hw

/-- RD_BYTE with any outcome of the offset byte: it runs to its response (R180, R182). -/
theorem rdByte_scripted {s : State} {addr : Byte} {a1 a3 : AckBit} {a2 : Answer} {d : Byte} {rest again : List Answer}
    (h : s.able) (ha : fits (.txb addr) a2 = true) (hk : 21 ≤ s.pace)
    (he : s.env = .scripted
      (.granted :: answerOf a1 :: a2 :: .granted :: answerOf a3 :: .byte d :: .done :: rest) again) :
    exec (.rdByte addr) s = .next (respond .okData d
      (((s.doing (openScript s.cfg addr a1 a2 ++ turnScript s.cfg a3 ++
        [(.rx false, .byte d), (.stop, .done)])).scripted rest again).inside Seq.idle s.buf)) := by
  have hw := walk_accept (i := .rdByte addr) (acts := [.respondResult])
    (l := openScript s.cfg addr a1 a2 ++ turnScript s.cfg a3 ++ [(.rx false, .byte d), (.stop, .done)]) h rfl
    (by simp [openScript, turnScript, legalFrom, legalPhase, ha]) he
  refine (hw.command (inside_respond (v := State.result) rfl fun _ => rfl) hk).trans ?_
  simp [openScript, turnScript, State.scripted, State.inside]

/-- Settles O27: the walk of seven entries, and the seven primitives taken together. -/
theorem rdByteCompletes : Obligations.RdByteCompletes := by
  unfold Obligations.RdByteCompletes
  intro s addr a1 a2 a3 d rest again hr hi hk he
  refine (rdByte_scripted ⟨hi, hr.2⟩ (by simp) hk he).trans ?_
  simp [openScript, turnScript, State.scripted, State.inside, respond, launchData, policyBit, dataRCode,
    ← traceOf_append]

/-- Settles O28: the walk of five entries, and the five primitives taken together. -/
theorem wrByteCompletes : Obligations.WrByteCompletes := by
  unfold Obligations.WrByteCompletes
  intro s addr data a1 a2 a3 rest again hr hi hk he
  have hw := walk_accept (i := .wrByte addr data) (acts := [.respondOk])
    (l := openScript s.cfg addr a1 (answerOf a2) ++ [(.txb data, answerOf a3), (.stop, .done)]) ⟨hi, hr.2⟩ rfl
    (by simp [openScript, legalFrom, legalPhase]) he
  refine (hw.command (inside_respond (v := fun _ => 0x00#8) rfl fun _ => rfl) hk).trans ?_
  simp [openScript, State.scripted, State.inside, respond, launchData, ← traceOf_append]

end Sys2Proof.Machine
end

section
/-! PROOFS. The data loops of WR_PAGE and SEQ_RD against a script, in every field of the state
(41_eeprom_client_transactions.md R183, R185, R187). -/

namespace Sys2Proof.Machine

/-! ### The bytes of BUF -/

/-- The byte of a BUF at an index, as `readBuf` gives it (20_memory.md R62, R63). -/
def bufByte (c : Config.Params) (m : Memory) (k : Byte) : Option Byte :=
  if k.toNat < c.bufSize then Memory.read bufBlank m k.toNat else none

/-- A BUF with one byte stored, as `writeBuf` stores it (R62). -/
def bufStore (c : Config.Params) (k v : Byte) (m : Memory) : Memory :=
  if k.toNat < c.bufSize then Memory.write bufBlank m k.toNat v else m

theorem readBuf_eq (k : Byte) (s : State) : readBuf k s = bufByte s.cfg s.buf k := rfl

theorem readBuf_stored {s t : State} {m : Memory} (hc : t.cfg = s.cfg) (hb : t.buf = m) (k : Byte) :
    readBuf k t = bufByte s.cfg m k := by
  rw [readBuf_eq, hc, hb]

theorem bufByte_bufStore_same {c : Config.Params} {k : Byte} (h : k.toNat < c.bufSize) (v : Byte) (m : Memory) :
    bufByte c (bufStore c k v m) k = some v := by
  simp [bufByte, bufStore, h]

theorem bufByte_bufStore_other {c : Config.Params} {j k : Byte} (h : k ≠ j) (v : Byte) (m : Memory) :
    bufByte c (bufStore c k v m) j = bufByte c m j := by
  have hn : k.toNat ≠ j.toNat := fun e => h (BitVec.eq_of_toNat_eq e)
  unfold bufByte bufStore
  by_cases hk : k.toNat < c.bufSize <;> simp [hk, Memory.read_write_other hn]

/-- The bytes `ds` have been stored in BUF from index 0 on, and nothing else (R185). -/
structure BufFilled (c : Config.Params) (m : Memory) (ds : List Byte) (m' : Memory) : Prop where
  below : ∀ k : Byte, k.toNat < ds.length → k.toNat < c.bufSize → bufByte c m' k = ds[k.toNat]?
  above : ∀ k : Byte, ds.length ≤ k.toNat → bufByte c m' k = bufByte c m k

theorem BufFilled.nil (c : Config.Params) (m : Memory) : BufFilled c m [] m :=
  ⟨fun _ hk => absurd hk (Nat.not_lt_zero _), fun _ _ => rfl⟩

theorem BufFilled.snoc {c : Config.Params} {m m' : Memory} {ds : List Byte} (h : BufFilled c m ds m')
    (hlen : ds.length < 256) (d : Byte) : BufFilled c m (ds ++ [d]) (bufStore c (BitVec.ofNat 8 ds.length) d m') := by
  have hidx : (BitVec.ofNat 8 ds.length).toNat = ds.length := by
    rw [BitVec.toNat_ofNat]
    exact Nat.mod_eq_of_lt hlen
  have hother : ∀ k : Byte, k.toNat ≠ ds.length → BitVec.ofNat 8 ds.length ≠ k := fun k hk he => hk (by rw [← he, hidx])
  refine ⟨fun k hk hs => ?_, fun k hk => ?_⟩ <;> rw [List.length_append, List.length_singleton] at hk
  · by_cases he : k.toNat = ds.length
    · obtain rfl : BitVec.ofNat 8 ds.length = k := BitVec.eq_of_toNat_eq (hidx.trans he.symm)
      rw [bufByte_bufStore_same hs, he]
      simp
    · have hlt : k.toNat < ds.length := by omega
      rw [bufByte_bufStore_other (hother k he), h.below k hlt hs, List.getElem?_append_left hlt]
  · rw [bufByte_bufStore_other (hother k (by omega)), h.above k (by omega)]

/-! ### A turn of each loop -/

/-- A turn of a data loop with other turns to come, or the last one (R187). -/
theorem countLoop_inside {len : Byte} {n : Nat} (hn : n < len.toNat) (i : Instr) (pc : Nat) (m : Memory) (s : State) :
    countLoop len (s.inside ⟨some i, pc, BitVec.ofNat 8 n, none⟩ m) =
      s.inside ⟨some i, if n + 1 < len.toNat then pc else pc + 1, BitVec.ofNat 8 (n + 1), none⟩ m := by
  unfold countLoop State.inside
  simp only [loopGoesOn_succ hn, decide_eq_true_eq, BitVec.ofNat_add]

/-- An entry of WR_PAGE sends the byte of BUF at `seq.i` (R183). -/
theorem issue_sendBuf {s : State} {v : Byte} (h : readBuf s.seq.i s = some v) (len : Byte) :
    issue (.sendBuf len) s = issuePrim (.txb v) s := by
  simp only [issue, h]

section Turn
variable {s : State} {addr len v : Byte} {n : Nat} {m : Memory} {a : Answer}

/-- WR_PAGE sends byte `n` wherever its loop stands at it (R183). -/
theorem issue_sendBuf_at (hv : bufByte s.cfg m (BitVec.ofNat 8 n) = some v) (u : State) (hc : u.cfg = s.cfg)
    (hs : u.seq = ⟨some (.wrPage addr len), 3, BitVec.ofNat 8 n, none⟩) (hb : u.buf = m) :
    issue (.sendBuf len) u = issuePrim (.txb v) u :=
  issue_sendBuf (by rw [readBuf_stored hc hb, hs, hv]) len

/-- SEQ_RD acknowledges byte `n` if others follow (R185). -/
theorem issue_recvBuf_at (hn : n < len.toNat) (u : State) (_ : u.cfg = s.cfg)
    (hs : u.seq = ⟨some (.seqRd addr len), 5, BitVec.ofNat 8 n, none⟩) (_ : u.buf = m) :
    issue (.recvBuf len) u = issuePrim (.rx (decide (n + 1 < len.toNat))) u := by
  rw [← ackPolicy_ofNat hn, issue, hs]

/-- Byte `n` of WR_PAGE, whatever its outcome (R183). -/
theorem send_step (h : s.able) (hn : n < len.toNat) (hv : bufByte s.cfg m (BitVec.ofNat 8 n) = some v)
    (hphase : s.phase = .mt) (hf : fits (.txb v) a = true) (now again : List Answer) :
    MovesTo 3 ((s.scripted (a :: now) again).inside ⟨some (.wrPage addr len), 3, BitVec.ofNat 8 n, none⟩ m)
      (((s.did (.txb v) a).scripted now again).inside
        ⟨some (.wrPage addr len), if n + 1 < len.toNat then 3 else 4, BitVec.ofNat 8 (n + 1), none⟩ m) := by
  rw [← countLoop_inside hn]
  exact inside_step h rfl (issue_sendBuf_at hv) hphase hf

/-- Byte `n` of SEQ_RD, whatever its outcome (R185). -/
theorem recv_step {ack : Bool} (h : s.able) (hn : n < len.toNat) (hack : decide (n + 1 < len.toNat) = ack)
    (hphase : s.phase = .mr) (hf : fits (.rx ack) a = true) (now again : List Answer) :
    MovesTo 3 ((s.scripted (a :: now) again).inside ⟨some (.seqRd addr len), 5, BitVec.ofNat 8 n, none⟩ m)
      (((s.did (.rx ack) a).scripted now again).inside
        ⟨some (.seqRd addr len), if n + 1 < len.toNat then 5 else 6, BitVec.ofNat 8 (n + 1), none⟩
        (bufStore s.cfg (BitVec.ofNat 8 n) (s.did (.rx ack) a).result m)) := by
  subst hack
  rw [← countLoop_inside hn]
  exact inside_step h rfl (issue_recvBuf_at hn) hphase hf
end Turn

/-! ### The loops -/

/-- Bytes and their acknowledges, as the primitives of WR_PAGE with their outcomes. -/
def sendScript (l : List (Byte × AckBit)) : List (Prim × Answer) := l.map fun x => (.txb x.1, answerOf x.2)

/-- Bytes that are acknowledged, as the primitives of SEQ_RD with their outcomes. -/
def recvScript (ds : List Byte) : List (Prim × Answer) := ds.map fun d => (.rx true, .byte d)

theorem sendScript_snoc (l : List (Byte × AckBit)) (x : Byte × AckBit) :
    sendScript (l ++ [x]) = sendScript l ++ [(.txb x.1, answerOf x.2)] := by simp [sendScript]

theorem recvScript_snoc (ds : List Byte) (d : Byte) :
    recvScript (ds ++ [d]) = recvScript ds ++ [(.rx true, .byte d)] := by
  simp [recvScript]

/-- WR_PAGE up to bytes that others follow (R183). -/
theorem wrPage_sent {s : State} {addr len : Byte} {a1 a2 : AckBit} {l : List (Byte × AckBit)} {now again : List Answer}
    (h : s.able) (hlen : l.length < len.toNat) (hv : ∀ k x, l[k]? = some x → readBuf (BitVec.ofNat 8 k) s = some x.1)
    (he : s.env = .scripted (.granted :: answerOf a1 :: answerOf a2 :: (l.map (answerOf ·.2) ++ now)) again) :
    (s.doing (openScript s.cfg addr a1 (answerOf a2) ++ sendScript l)).phase = .mt ∧
    MovesTo (3 * l.length + 9) (accept (.wrPage addr len) s)
      (((s.doing (openScript s.cfg addr a1 (answerOf a2) ++ sendScript l)).scripted now again).inside
        ⟨some (.wrPage addr len), 3, BitVec.ofNat 8 l.length, none⟩ s.buf) := by
  induction l using List.reverseRecOn generalizing now with
  | nil =>
    exact ⟨by simp [openScript, sendScript], walk_accept (l := openScript s.cfg addr a1 (answerOf a2))
      (acts := [.sendBuf len, .prim .stop, .respondOk]) h rfl (by simp [openScript, legalFrom, legalPhase]) he⟩
  | append_singleton l x ih =>
    rw [List.length_append, List.length_singleton] at hlen ⊢
    obtain ⟨hp, hw⟩ := ih (now := answerOf x.2 :: now) (by omega)
      (fun k y hk => hv k y (by rw [List.getElem?_append_left (List.getElem?_eq_some_iff.mp hk).1, hk]))
      (by simpa using he)
    have hx := send_step (addr := addr) (m := s.buf) (a := answerOf x.2) (h.doing _) (Nat.lt_of_succ_lt hlen)
      (by rw [doing_cfg]; exact hv l.length x (by simp)) hp (by simp) now again
    rw [if_pos hlen] at hx
    have hnext := hw.trans hx
    rw [sendScript_snoc, ← List.append_assoc, doing_append]
    exact ⟨by simpa using hp, by rwa [Nat.add_right_comm, ← Nat.mul_succ] at hnext⟩

/-- SEQ_RD up to bytes that others follow, whatever the outcome of the offset byte (R182, R185). -/
theorem seqRd_received {s : State} {addr len : Byte} {a1 a3 : AckBit} {a2 : Answer} {ds : List Byte}
    {now again : List Answer} (h : s.able) (ha : fits (.txb addr) a2 = true) (hlen : ds.length < len.toNat)
    (he : s.env = .scripted
      (.granted :: answerOf a1 :: a2 :: .granted :: answerOf a3 :: (ds.map Answer.byte ++ now)) again) :
    (s.doing (openScript s.cfg addr a1 a2 ++ turnScript s.cfg a3 ++ recvScript ds)).phase = .mr ∧
    ∃ m, BufFilled s.cfg s.buf ds m ∧
      MovesTo (3 * ds.length + 15) (accept (.seqRd addr len) s)
        (((s.doing (openScript s.cfg addr a1 a2 ++ turnScript s.cfg a3 ++ recvScript ds)).scripted now again).inside
          ⟨some (.seqRd addr len), 5, BitVec.ofNat 8 ds.length, none⟩ m) := by
  induction ds using List.reverseRecOn generalizing now with
  | nil =>
    exact ⟨by simp [openScript, turnScript, recvScript], s.buf, .nil _ _,
      walk_accept (l := openScript s.cfg addr a1 a2 ++ turnScript s.cfg a3)
      (acts := [.recvBuf len, .prim .stop, .respondOk]) h rfl
      (by simp [openScript, turnScript, legalFrom, legalPhase, ha]) he⟩
  | append_singleton ds d ih =>
    rw [List.length_append, List.length_singleton] at hlen ⊢
    obtain ⟨hp, m, hm, hw⟩ := ih (now := .byte d :: now) (by omega) (by simpa using he)
    have hx := recv_step (addr := addr) (m := m) (a := .byte d) (h.doing _) (Nat.lt_of_succ_lt hlen)
      (decide_eq_true hlen) hp rfl now again
    rw [if_pos hlen] at hx
    have hnext := hw.trans hx
    rw [recvScript_snoc, ← List.append_assoc, doing_append]
    refine ⟨by simpa using hp, _, hm.snoc (by omega) d, ?_⟩
    rw [doing_cfg] at hnext
    rwa [Nat.add_right_comm, ← Nat.mul_succ] at hnext

theorem sendScript_result (l : List (Byte × AckBit)) (s : State) : (s.doing (sendScript l)).result = s.result := by
  induction l generalizing s with
  | nil => rfl
  | cons x l ih => exact ih (s.did (.txb x.1) (answerOf x.2))

/-- The bytes of WR_PAGE taken together. -/
theorem doing_sendScript {s : State} {l : List (Byte × AckBit)} (h : s.phase = .mt) :
    ∃ c d k, s.doing (sendScript l) = { s with
      ctrl := c
      data := d
      status := withCode s.cfg s.status k
      busHistory := s.busHistory ++ l.map (fun x => .tx x.1 x.2)
      diagHistory := s.diagHistory ++ traceOf s (l.map (fun x => dataWCode s.cfg x.2)) } := by
  obtain ⟨c, d, k, r, hx⟩ := doing_stretch (s := s) (l := sendScript l)
    (code := fun x => outcomeCode s.cfg .mt 0x00#8 x.1 x.2) (List.forall_mem_map.mpr fun x _ => by simp [h])
  obtain rfl : s.result = r := (sendScript_result l s).symm.trans (congrArg State.result hx)
  exact ⟨c, d, k, hx.trans (by simp [sendScript, Function.comp_def])⟩

/-- The bytes of SEQ_RD but the last taken together. -/
theorem doing_recvScript {s : State} {ds : List Byte} (h : s.phase = .mr) :
    ∃ c d k r, s.doing (recvScript ds) = { s with
      ctrl := c
      data := d
      status := withCode s.cfg s.status k
      result := r
      busHistory := s.busHistory ++ ds.map (fun b => .rx b .ack)
      diagHistory := s.diagHistory ++ traceOf s (ds.map (fun _ => s.cfg.codes.dataRAck)) } := by
  obtain ⟨c, d, k, r, hx⟩ := doing_stretch (s := s) (l := recvScript ds)
    (code := fun _ => s.cfg.codes.dataRAck) (by simp [recvScript, h, dataRCode, policyBit])
  exact ⟨c, d, k, r, hx.trans (by simp [recvScript, Function.comp_def, policyBit])⟩

/-! ### The transactions with a loop -/

/-- A walk that comes to STOP as its last primitive runs to its response. -/
theorem MovesTo.stops {k : Nat} {s t : State} {i : Instr} {pc : Nat} {j : Byte} {m : Memory} {rest again : List Answer}
    (hw : MovesTo k (accept i s) ((t.scripted (.done :: rest) again).inside ⟨some i, pc, j, none⟩ m)) (h : t.able)
    (ht : (sequenceOf t.cfg i).drop pc = [.prim .stop, .respondOk]) (hphase : t.phase ≠ .idle) (hk : k + 3 ≤ s.pace) :
    runCommand i s = .next (respond .ok 0x00#8 (((t.did .stop .done).scripted rest again).inside Seq.idle m)) := by
  have hstop := walk (l := [(.stop, .done)]) (now := rest) (again := again) j m h ht ⟨hphase, rfl, trivial⟩
  exact (hw.trans hstop).command (inside_respond (s := (t.did .stop .done).scripted rest again) (v := fun _ => 0x00#8)
    (drop_eq_cons (drop_eq_cons ht).2).1 fun _ => rfl) hk

/-- SEQ_RD with any outcome of the offset byte: it receives its bytes and runs to its response (R182, R185). -/
theorem seqRd_scripted {s : State} {addr len : Byte} {a1 a3 : AckBit} {a2 : Answer} {ds : List Byte} {d : Byte}
    {rest again : List Answer} (h : s.able) (ha : fits (.txb addr) a2 = true) (hk : 3 * (ds.length + 7) ≤ s.pace)
    (hlen : len.toNat = ds.length + 1)
    (he : s.env = .scripted
      (.granted :: answerOf a1 :: a2 :: .granted :: answerOf a3 :: ((ds ++ [d]).map Answer.byte ++ .done :: rest))
      again) :
    ∃ t, exec (.seqRd addr len) s = .next t ∧
      t = respond .ok 0x00#8
        (((s.doing (openScript s.cfg addr a1 a2 ++ turnScript s.cfg a3 ++ recvScript ds ++
          [(.rx false, .byte d), (.stop, .done)])).scripted rest again).inside Seq.idle t.buf) ∧
      (∀ k : Byte, k.toNat < len.toNat → k.toNat < s.cfg.bufSize → readBuf k t = (ds ++ [d])[k.toNat]?) ∧
      ∀ k : Byte, len.toNat ≤ k.toNat → readBuf k t = readBuf k s := by
  have hlen0 : len ≠ 0#8 := fun h0 => by simp [h0] at hlen
  obtain ⟨hp, m, hm, hw⟩ := seqRd_received (len := len) (ds := ds) (now := .byte d :: .done :: rest) h ha (by omega)
    (by simpa using he)
  have hx := recv_step (addr := addr) (m := m) (a := .byte d) (h.doing _) (by omega)
    (decide_eq_false (by omega : ¬ds.length + 1 < len.toNat)) hp rfl (.done :: rest) again
  rw [if_neg (by omega), doing_cfg] at hx
  have hstop := (hw.trans hx).stops ((h.doing _).did _ _) (by rw [did_cfg, doing_cfg]; rfl)
    (by rw [did_phase, hp]; exact Phase.noConfusion) (by omega)
  have hfill := hm.snoc (by have := len.isLt; omega) d
  rw [doing_append]
  exact ⟨_, (exec_seqRd hlen0 _ _).trans hstop, rfl,
    fun k hk hs => (readBuf_stored (by simp) rfl k).trans (hfill.below k (by simpa [hlen] using hk) hs),
    fun k hk => (readBuf_stored (by simp) rfl k).trans (hfill.above k (by simpa [hlen] using hk))⟩

/-- Settles O29: the walk of the loop to its last byte and to STOP, and the primitives taken together. -/
theorem wrPageCompletes : Obligations.WrPageCompletes := by
  unfold Obligations.WrPageCompletes
  intro s addr len a1 a2 vs acks v a rest again hr hi hk hlen hacks hread he
  have hlen0 : len ≠ 0#8 := fun h0 => by simp [h0] at hlen
  have hs : s.able := ⟨hi, hr.2⟩
  have hzip : (vs.zip acks).length = vs.length := by simp [hacks]
  have hsnd : ∀ {α : Type} (f : AckBit → α), (vs.zip acks).map (fun x => f x.2) = acks.map f := fun f => by
    conv_rhs => rw [← List.map_snd_zip hacks.le, List.map_map]
    rfl
  obtain ⟨hp, hw⟩ := wrPage_sent (addr := addr) (len := len) (l := vs.zip acks) (now := answerOf a :: .done :: rest)
    hs (by omega)
    (fun k x hx => by
      obtain ⟨hv, -⟩ := List.getElem?_zip_eq_some.mp hx
      have hlt := (List.getElem?_eq_some_iff.mp hv).1
      rw [hread k (by omega), List.getElem?_append_left hlt, hv])
    (by simpa [hsnd] using he)
  rw [hzip] at hw
  have hx := send_step (addr := addr) (m := s.buf) (a := answerOf a) (hs.doing _) (by omega : vs.length < len.toNat)
    (v := v) (by rw [doing_cfg]; exact (hread vs.length (by omega)).trans (by simp)) hp (by simp) (.done :: rest) again
  rw [if_neg (by omega)] at hx
  have hstop := (hw.trans hx).stops ((hs.doing _).did _ _) (by rw [did_cfg, doing_cfg]; rfl)
    (by rw [did_phase, hp]; simp) (by omega)
  obtain ⟨c, b, k, hsend⟩ := doing_sendScript (l := vs.zip acks)
    (s := s.doing (openScript s.cfg addr a1 (answerOf a2))) (by simp [openScript])
  rw [exec_wrPage hlen0]
  refine hstop.trans ?_
  rw [doing_append, hsend]
  have hzipWith : (vs.zip acks).map (fun x => BusEvent.tx x.1 x.2) ++ [.tx v a] =
      List.zipWith BusEvent.tx (vs ++ [v]) (acks ++ [a]) := by
    rw [List.zipWith_append hacks.symm, ← List.map_uncurry_zip_eq_zipWith]; rfl
  by_cases htr : s.traceEn = true <;>
    simp [openScript, State.scripted, State.inside, respond, launchData, traceOf, htr, hsnd, ← hzipWith]

/-- Settles O30: the walk of the loop, and the primitives taken together. -/
theorem seqRdCompletes : Obligations.SeqRdCompletes := by
  unfold Obligations.SeqRdCompletes
  intro s addr len a1 a2 a3 ds d rest again hr hi hk hlen he
  obtain ⟨t, hx, ht, hread⟩ := seqRd_scripted (addr := addr) (a2 := answerOf a2) ⟨hi, hr.2⟩ (by simp) hk hlen he
  obtain ⟨c, b, k, r, hrecv⟩ := doing_recvScript (ds := ds)
    (s := s.doing (openScript s.cfg addr a1 (answerOf a2) ++ turnScript s.cfg a3)) (by simp [openScript, turnScript])
  refine ⟨t, hx, ht.trans ?_, hread⟩
  rw [doing_append, doing_append, hrecv]
  by_cases htr : s.traceEn = true <;>
    simp [openScript, turnScript, State.scripted, State.inside, respond, launchData, policyBit, dataRCode, traceOf, htr]

@[simp] theorem outcomePhase_arbLost (c : Config.Params) (ph : Phase) (p : Prim) :
    outcomePhase c ph p .arbLost = .idle := by cases p <;> rfl
@[simp] theorem outcomeEvent_txb_arbLost (ph : Phase) (b : Byte) :
    outcomeEvent ph (.txb b) .arbLost = .lost (.tx b) := rfl

/-- Settles O36: the offset byte that is lost leaves phase idle, where START is legal, and the walk goes on. -/
theorem readRunsOnAfterLostOffset : Obligations.ReadRunsOnAfterLostOffset := by
  unfold Obligations.ReadRunsOnAfterLostOffset
  intro s addr a1 a3 rest again hr hi
  refine ⟨fun d hk he => ⟨_, rdByte_scripted ⟨hi, hr.2⟩ rfl hk he, rfl, ?_⟩, fun len ds d hk hlen he => ?_⟩
  · simp [openScript, turnScript, State.scripted, State.inside, launchData, policyBit, respWord, kindCode]
  · obtain ⟨t, hx, ht, hread⟩ := seqRd_scripted (addr := addr) ⟨hi, hr.2⟩ rfl hk hlen he
    obtain ⟨c, b, k, r, hrecv⟩ := doing_recvScript (ds := ds)
      (s := s.doing (openScript s.cfg addr a1 .arbLost ++ turnScript s.cfg a3)) (by simp [openScript, turnScript])
    rw [doing_append, doing_append, hrecv] at ht
    refine ⟨t, hx, by rw [ht]; rfl, by rw [ht]; rfl, ?_, ?_, ?_, hread⟩ <;> rw [ht]
    · simp [State.scripted, State.inside]
    · simp [State.scripted, State.inside, launchData]
    · simp [openScript, turnScript, State.scripted, State.inside, policyBit]

end Sys2Proof.Machine
end

section
/-! PROOFS. Arbitration lost inside a transaction: it leaves phase idle, where START alone is legal
(41_eeprom_client_transactions.md R174). -/

namespace Sys2Proof.Machine

/-- Each primitive that can be refused by phase is refused in phase idle (R135). -/
theorem not_legalPhase_idle {p : Prim} {r : Refusal} (h : phaseRefusal p = some r) : ¬legalPhase p .idle := by
  cases p with
  | start => cases h
  | stop => exact fun hl => hl rfl
  | txa _ | txb _ | rx _ => exact Phase.noConfusion

@[simp] theorem fits_arbLost {p : Prim} (h : p ≠ .stop) : fits p .arbLost = true := by
  cases p with
  | stop => exact absurd rfl h
  | start | txa _ | txb _ | rx _ => rfl

section Lost
variable {s t : State} {i : Instr} {act : SeqAct} {p : Prim} {r : Refusal} {rest again : List Answer}

/-- A walk that comes in phase idle to an entry that does not begin with START is refused there. -/
theorem MovesTo.refuses {k pc : Nat} {j : Byte} {m : Memory}
    (hw : MovesTo k (accept i s) ((t.scripted rest again).inside ⟨some i, pc, j, none⟩ m)) (h : t.able)
    (hidle : t.phase = .idle) (ht : (sequenceOf t.cfg i)[pc]? = some act)
    (hact : ∀ u : State, u.cfg = t.cfg → u.seq = ⟨some i, pc, j, none⟩ → u.buf = m → issue act u = issuePrim p u)
    (hr : phaseRefusal p = some r) (hk : k ≤ s.pace) : runCommand i s = .refused r :=
  hw.command (inside_refused h ht hact (hidle ▸ not_legalPhase_idle hr) hr rest again) hk

/-- A table that begins with these primitives, the last of which lost arbitration. -/
theorem lost_refuses {l : List (Prim × Answer)} {acts : List SeqAct} (h : s.able)
    (hl : legalFrom s.cfg s.phase l) (ht : sequenceOf s.cfg i = l.map (fun x => .prim x.1) ++ act :: acts)
    (he : s.env = .scripted (l.map Prod.snd ++ rest) again) (hidle : (s.doing l).phase = .idle)
    (hact : ∀ u : State, u.cfg = s.cfg → u.seq = ⟨some i, l.length, 0#8, none⟩ → u.buf = s.buf →
      issue act u = issuePrim p u)
    (hr : phaseRefusal p = some r) (hk : 3 * l.length ≤ s.pace) : runCommand i s = .refused r :=
  (walk_accept h ht hl he).refuses (h.doing l) hidle (act := act) (by simp [ht]) (by rwa [doing_cfg]) hr hk
end Lost

/-- Acknowledges, with the bytes of BUF that they answer. -/
def sentBytes (s : State) (acks : List AckBit) : List (Byte × AckBit) :=
  acks.mapIdx fun k a => ((readBuf (BitVec.ofNat 8 k) s).getD 0x00#8, a)

theorem sentBytes_answers (s : State) (acks : List AckBit) :
    (sentBytes s acks).map (answerOf ·.2) = acks.map answerOf := by
  refine List.ext_getElem? fun k => ?_
  simp [sentBytes, Function.comp_def]

section
variable {s : State} {addr len : Byte} {a1 a2 a3 : AckBit} {rest again : List Answer}

theorem readBuf_ofNat {k : Nat} (hread : ∀ k : Byte, k.toNat < len.toNat → readBuf k s ≠ none) (hk : k < len.toNat) :
    readBuf (BitVec.ofNat 8 k) s = some ((readBuf (BitVec.ofNat 8 k) s).getD 0x00#8) := by
  have hidx : (BitVec.ofNat 8 k).toNat = k := by
    rw [BitVec.toNat_ofNat]
    exact Nat.mod_eq_of_lt (hk.trans len.isLt)
  obtain ⟨v, hv⟩ := Option.ne_none_iff_exists'.mp (hread (BitVec.ofNat 8 k) (by rwa [hidx]))
  rw [hv, Option.getD_some]

/-- A byte of WR_PAGE that is lost (R174). -/
theorem wrPage_lost {acks : List AckBit} (h : s.able) (hk : 3 * acks.length + 12 ≤ s.pace)
    (hlen : acks.length < len.toNat) (hread : ∀ k : Byte, k.toNat < len.toNat → readBuf k s ≠ none)
    (he : s.env = .scripted
      (.granted :: answerOf a1 :: answerOf a2 :: (acks.map answerOf ++ .arbLost :: rest)) again) :
    runCommand (.wrPage addr len) s =
      .refused (if acks.length + 1 < len.toNat then .transmitNotInWrite else .stopWithoutStart) := by
  have hcount : (sentBytes s acks).length = acks.length := List.length_mapIdx
  obtain ⟨hp, hw⟩ := wrPage_sent (addr := addr) (len := len) (l := sentBytes s acks) (now := .arbLost :: rest) h
    (by rwa [hcount])
    (fun k x hx => by
      have hlt := (List.getElem?_eq_some_iff.mp hx).1
      simp only [sentBytes, List.getElem?_mapIdx, Option.map_eq_some_iff] at hx
      obtain ⟨a, -, rfl⟩ := hx
      exact readBuf_ofNat hread (by omega))
    (by rwa [sentBytes_answers])
  rw [hcount] at hw
  have hx := send_step (addr := addr) (a := .arbLost) (h.doing _) hlen
    (by rw [doing_cfg]; exact readBuf_ofNat hread hlen) hp rfl rest again
  by_cases hmore : acks.length + 1 < len.toNat
  · rw [if_pos hmore] at hx ⊢
    exact (hw.trans hx).refuses ((h.doing _).did _ _) rfl (act := .sendBuf len) rfl
      (issue_sendBuf_at (by rw [did_cfg, doing_cfg]; exact readBuf_ofNat hread hmore)) rfl (by omega)
  · rw [if_neg hmore] at hx ⊢
    exact (hw.trans hx).refuses ((h.doing _).did _ _) rfl (act := .prim .stop) rfl (fun _ _ _ _ => rfl) rfl (by omega)

/-- A byte of SEQ_RD that is lost (R174). -/
theorem seqRd_lost {ds : List Byte} (h : s.able) (hk : 3 * ds.length + 18 ≤ s.pace) (hlen : ds.length < len.toNat)
    (he : s.env = .scripted (.granted :: answerOf a1 :: answerOf a2 :: .granted :: answerOf a3 ::
      (ds.map Answer.byte ++ .arbLost :: rest)) again) :
    runCommand (.seqRd addr len) s =
      .refused (if ds.length + 1 < len.toNat then .receiveNotInRead else .stopWithoutStart) := by
  obtain ⟨hp, m, -, hw⟩ := seqRd_received (addr := addr) (len := len) (ds := ds) (now := .arbLost :: rest) h (by simp)
    hlen he
  have hx := recv_step (addr := addr) (m := m) (a := .arbLost) (h.doing _) hlen rfl hp rfl rest again
  by_cases hmore : ds.length + 1 < len.toNat
  · rw [if_pos hmore] at hx ⊢
    exact (hw.trans hx).refuses ((h.doing _).did _ _) rfl (act := .recvBuf len) rfl (issue_recvBuf_at hmore) rfl
      (by omega)
  · rw [if_neg hmore] at hx ⊢
    exact (hw.trans hx).refuses ((h.doing _).did _ _) rfl (act := .prim .stop) rfl (fun _ _ _ _ => rfl) rfl (by omega)
end

/-- Settles O35: the entry after a lost primitive is reached in phase idle, where START alone is legal. -/
theorem lostArbitrationRefusesTransaction : Obligations.LostArbitrationRefusesTransaction := by
  unfold Obligations.LostArbitrationRefusesTransaction
  intro s addr data len a1 a2 a3 acks ds rest again hr hi hk hlen
  have hs : s.able := ⟨hi, hr.2⟩
  rw [exec_wrPage hlen, exec_seqRd hlen]
  refine ⟨fun he => ?_, fun he => ?_, fun he => ?_, fun he => ?_, fun he => ?_, fun he => ?_,
    fun he hk hlen hread => wrPage_lost hs hk hlen hread he, fun he hk hlen => seqRd_lost hs hk hlen he⟩
  · have hl : legalFrom s.cfg s.phase [(.start, .arbLost)] := ⟨trivial, rfl, trivial⟩
    have hrefuse : ∀ {i acts}, sequenceOf s.cfg i = .prim .start :: .prim (.txa (slaW s.cfg)) :: acts →
        runCommand i s = .refused .addressNotAfterStart := fun ht =>
      lost_refuses hs hl ht he rfl (fun _ _ _ _ => rfl) rfl (by simp; omega)
    exact ⟨hrefuse rfl, hrefuse rfl, hrefuse rfl, hrefuse rfl, hrefuse rfl⟩
  · have hl : legalFrom s.cfg s.phase [(.start, .granted), (.txa (slaW s.cfg), .arbLost)] := by
      simp [legalFrom, legalPhase]
    have hrefuse : ∀ {i acts}, sequenceOf s.cfg i =
          .prim .start :: .prim (.txa (slaW s.cfg)) :: .prim (.txb addr) :: acts →
        runCommand i s = .refused .transmitNotInWrite := fun ht =>
      lost_refuses hs hl ht he rfl (fun _ _ _ _ => rfl) rfl (by simp; omega)
    exact ⟨hrefuse rfl, hrefuse rfl, hrefuse rfl, hrefuse rfl⟩
  · have hl : legalFrom s.cfg s.phase (openScript s.cfg addr a1 .arbLost) := by
      simp [openScript, legalFrom, legalPhase]
    refine ⟨lost_refuses (act := .prim (.txb data)) hs hl rfl he rfl (fun _ _ _ _ => rfl) rfl
      (by simp [openScript]; omega), fun hread => ?_⟩
    obtain ⟨v, hv⟩ := Option.ne_none_iff_exists'.mp hread
    exact lost_refuses (act := .sendBuf len) hs hl rfl he rfl (issue_sendBuf_at hv) rfl (by simp [openScript]; omega)
  · have hl : ∀ x, x = (.start, .arbLost) ∨ x = (.txb data, .arbLost) →
        legalFrom s.cfg s.phase (openScript s.cfg addr a1 (answerOf a2) ++ [x]) := by
      rintro x (rfl | rfl) <;> simp [openScript, legalFrom, legalPhase]
    have hread : ∀ {i acts}, sequenceOf s.cfg i =
          openWrite s.cfg addr ++ .prim .start :: .prim (.txa (slaR s.cfg)) :: acts →
        runCommand i s = .refused .addressNotAfterStart := fun ht =>
      lost_refuses hs (hl _ (.inl rfl)) ht he rfl (fun _ _ _ _ => rfl) rfl (by simp [openScript]; omega)
    exact ⟨hread rfl, lost_refuses (act := .prim .stop) hs (hl _ (.inr rfl)) rfl he rfl (fun _ _ _ _ => rfl) rfl
      (by simp [openScript]; omega), hread rfl⟩
  · have hl : legalFrom s.cfg s.phase (openScript s.cfg addr a1 (answerOf a2) ++
        [(.start, .granted), (.txa (slaR s.cfg), .arbLost)]) := by
      simp [openScript, legalFrom, legalPhase]
    exact ⟨lost_refuses (act := .prim (.rx false)) hs hl rfl he rfl (fun _ _ _ _ => rfl) rfl
        (by simp [openScript]; omega),
      lost_refuses (act := .recvBuf len) hs hl rfl he rfl (issue_recvBuf_at (toNat_pos_of_ne_zero hlen)) rfl
        (by simp [openScript]; omega)⟩
  · have hl : legalFrom s.cfg s.phase (openScript s.cfg addr a1 (answerOf a2) ++ turnScript s.cfg a3 ++
        [(.rx false, .arbLost)]) := by
      simp [openScript, turnScript, legalFrom, legalPhase]
    exact lost_refuses (act := .prim .stop) hs hl rfl he rfl (fun _ _ _ _ => rfl) rfl
      (by simp [openScript, turnScript]; omega)

end Sys2Proof.Machine
end

section
/-! PROOFS. WAIT_WC against a script, in every field of the state (41_eeprom_client_transactions.md R186). -/

namespace Sys2Proof.Machine

/-- A pair of WAIT_WC, with the outcome of its control byte. -/
def waitPair (c : Config.Params) (a : Answer) : List (Prim × Answer) := [(.start, .granted), (.txa (slaW c), a)]

/-- The primitives of a WAIT_WC that is refused `n` times, with their outcomes. -/
def waitScript (c : Config.Params) : Nat → List (Prim × Answer)
  | 0 => waitPair c (answerOf .ack)
  | n + 1 => waitPair c (answerOf .nak) ++ waitScript c n

/-- A pair whose control byte is answered, taken together. -/
theorem doing_waitPair (a : AckBit) (s : State) : s.doing (waitPair s.cfg (answerOf a)) = { s with
    ctrl := ctrlByte s.cfg.ctrlLayout [.int, .en]
    data := slaW s.cfg
    status := withCode s.cfg s.status (slaWCode s.cfg a)
    phase := .mt
    busHistory := s.busHistory ++ [startEvent s.phase, .tx (slaW s.cfg) a]
    diagHistory := s.diagHistory ++ traceOf s [startCode s.cfg s.phase, slaWCode s.cfg a] } := by
  apply State.ext <;> simp [waitPair, launchData, ← traceOf_append]

/-- A refused control byte leaves another code than the one WAIT_WC waits for (00_scope.md R9). -/
theorem doing_waitPair_nak {s : State} (hc : s.cfg.codesWf) :
    statusCode s.cfg (s.doing (waitPair s.cfg (answerOf .nak))).status ≠ s.cfg.codes.slaWAck := by
  rw [doing_waitPair, statusCode_withCode]
  exact (statusCode_slaW hc).2

/-- Its primitives taken together. -/
theorem doing_waitScript (n : Nat) (s : State) : s.doing (waitScript s.cfg n) = { s with
    ctrl := ctrlByte s.cfg.ctrlLayout [.int, .en]
    data := slaW s.cfg
    status := withCode s.cfg s.status s.cfg.codes.slaWAck
    phase := .mt
    busHistory := s.busHistory ++ waitEvents (slaW s.cfg) s.phase n
    diagHistory := s.diagHistory ++ traceOf s (waitCodes s.cfg s.phase n) } := by
  induction n generalizing s with
  | zero => exact doing_waitPair .ack s
  | succ n ih =>
    have h := ih (s.doing (waitPair s.cfg (answerOf .nak)))
    rw [doing_cfg, doing_waitPair] at h
    rw [waitScript, doing_append, doing_waitPair, h]
    by_cases htr : s.traceEn = true <;> simp [waitEvents, waitCodes, slaWCode, traceOf, htr]

section Wait
variable {s : State} {j : Byte} {m : Memory}

/-- The sequencer goes back to START when the control byte was not acknowledged. -/
theorem waitWc_back (h : statusCode s.cfg s.status ≠ s.cfg.codes.slaWAck) :
    MovesTo 1 (s.inside ⟨some .waitWc, 2, j, none⟩ m) (s.inside ⟨some .waitWc, 0, j, none⟩ m) :=
  runMoves_untilAck_back (s := s.inside ⟨some .waitWc, 2, j, none⟩ m) rfl h

/-- A pair whose control byte is not acknowledged. -/
theorem waitWc_again {a : Answer} {now again : List Answer} (h : s.able) (hf : fits (.txa (slaW s.cfg)) a = true)
    (hc : statusCode s.cfg (s.doing (waitPair s.cfg a)).status ≠ s.cfg.codes.slaWAck)
    (hp : pollEnv .start s = (some .granted, s.scripted (a :: now) again)) :
    MovesTo 7 (s.inside ⟨some .waitWc, 0, j, none⟩ m)
      (((s.doing (waitPair s.cfg a)).scripted now again).inside
        ⟨some .waitWc, 0, j, none⟩ m) := by
  have hstart := inside_answered (i := .waitWc) (pc := 0) (act := .prim .start) (j := j) (m := m) h rfl
    (fun _ _ _ _ => rfl) trivial hp
  have haddr := inside_step (s := s.did .start .granted) (i := .waitWc) (pc := 1) (j := j) (m := m) (now := now)
    (again := again) (act := .prim (.txa (slaW s.cfg))) (h.did _ _) rfl (fun _ _ _ _ => rfl) rfl hf
  exact (hstart.trans haddr).trans (waitWc_back hc)

/-- A wait that is refused `n` times comes to its response. -/
theorem waitWc_scripted {n : Nat} {rest again : List Answer} (h : s.able) (hc : s.cfg.codesWf) :
    MovesTo (7 * n + 6) ((s.scripted (waitAnswers n ++ rest) again).inside ⟨some .waitWc, 0, j, none⟩ m)
      (((s.doing (waitScript s.cfg n)).scripted rest again).inside ⟨some .waitWc, 2, j, none⟩ m) := by
  induction n generalizing s with
  | zero =>
    exact walk (l := waitPair s.cfg .ack) (acts := [.untilAck]) j m h rfl
      (by simp [waitPair, legalFrom, legalPhase, fits])
  | succ n ih =>
    have hpair := waitWc_again (s := s.scripted (waitAnswers (n + 1) ++ rest) again) (a := answerOf .nak) (j := j)
      (m := m) h (by simp) (doing_waitPair_nak hc) (pollEnv_scripted rfl rfl)
    have hall := hpair.trans (ih (s := s.doing (waitPair s.cfg (answerOf .nak))) (h.doing _) hc)
    rwa [doing_cfg, ← doing_append, show 7 + (7 * n + 6) = 7 * (n + 1) + 6 by ring] at hall

/-- A wait that a walk has come to, from there to its response. -/
theorem MovesTo.waits {u : State} {k n : Nat} {rest again : List Answer}
    (hw : MovesTo k (accept .waitWc s)
      ((u.scripted (waitAnswers n ++ rest) again).inside ⟨some .waitWc, 0, 0#8, none⟩ s.buf))
    (h : u.able) (hc : u.cfg.codesWf) (hk : k + (7 * n + 6) ≤ s.pace) :
    exec .waitWc s = .next (respond .ok 0x00#8
      (((u.doing (waitScript u.cfg n)).scripted rest again).inside Seq.idle s.buf)) := by
  have hack : statusCode (u.doing (waitScript u.cfg n)).cfg (u.doing (waitScript u.cfg n)).status =
      (u.doing (waitScript u.cfg n)).cfg.codes.slaWAck := by
    rw [doing_waitScript, statusCode_withCode]
    exact (statusCode_slaW hc).1
  exact (hw.trans (waitWc_scripted h hc)).command (runMoves_untilAck_end rfl hack) hk
end Wait

/-- The status code of a lost arbitration is not that of an acknowledged SLA+W (00_scope.md R9). -/
theorem statusCode_arbLost_ne {c : Config.Params} (h : c.codesWf) :
    statusCode c c.codes.arbLost ≠ c.codes.slaWAck := by
  rw [statusCode_known h (by simp [Config.StatusCodes.known])]
  intro he
  have hd := h.1
  simp [Config.StatusCodes.known, he] at hd

section Lost
variable (c : Config.Params) (ph : Phase) (old b : Byte)

@[simp] theorem outcomeCode_txa_arbLost : outcomeCode c ph old (.txa b) .arbLost = c.codes.arbLost := rfl
@[simp] theorem outcomeEvent_txa_arbLost : outcomeEvent ph (.txa b) .arbLost = .lost (.tx b) := rfl
@[simp] theorem drawsData_txa_arbLost : drawsData (.txa b) .arbLost = true := rfl
end Lost

/-- Settles O31: the refused pairs one by one, and the pair that ends them; a lost one before them leaves phase idle. -/
theorem waitWcCompletes : Obligations.WaitWcCompletes := by
  unfold Obligations.WaitWcCompletes
  intro s n rest again hr hi hc
  have hs : s.able := ⟨hi, hr.2⟩
  refine ⟨fun hk he => ?_, fun hk he => ?_⟩
  · have hstart : MovesTo 0 (accept .waitWc s)
        ((s.scripted (waitAnswers n ++ rest) again).inside ⟨some .waitWc, 0, 0#8, none⟩ s.buf) := by
      rw [State.scripted_self he]
      exact MovesTo.refl _
    rw [hstart.waits hs hc (by omega), doing_waitScript]
    simp [State.scripted, State.inside, respond]
  · have hlost : statusCode s.cfg (s.doing (waitPair s.cfg .arbLost)).status ≠ s.cfg.codes.slaWAck := by
      simpa [waitPair] using statusCode_arbLost_ne hc
    have hpair := waitWc_again (j := 0#8) (m := s.buf) hs rfl hlost (pollEnv_scripted he rfl)
    rw [MovesTo.waits hpair (hs.doing _) hc (by omega), doing_waitScript]
    by_cases htr : s.traceEn = true <;>
      simp [waitPair, State.scripted, State.inside, respond, traceOf, htr]

/-- Against a bus that refuses every control byte a pair leads to the next one. -/
theorem waitWc_endless {s : State} (hs : s.able) (hc : s.cfg.codesWf) (he : s.env = .scripted [] [.granted, .nak])
    (n : Nat) : ∃ u : State, u.cfg = s.cfg ∧ u.able ∧ u.env = .scripted [] [.granted, .nak] ∧
      MovesTo (7 * n) (accept .waitWc s) (u.inside ⟨some .waitWc, 0, 0#8, none⟩ s.buf) := by
  induction n with
  | zero => exact ⟨s, rfl, hs, he, MovesTo.refl _⟩
  | succ n ih =>
    obtain ⟨u, hcfg, hu, hue, hw⟩ := ih
    have hp : pollEnv .start u = (some .granted, u.scripted [.nak] [.granted, .nak]) := by
      simp [pollEnv, hue, scriptAnswer, fits, State.scripted]
    have hpair := waitWc_again (a := answerOf .nak) (j := 0#8) (m := s.buf) hu (by simp)
      (doing_waitPair_nak (hcfg ▸ hc)) hp
    exact ⟨(u.doing (waitPair u.cfg (answerOf .nak))).scripted [] [.granted, .nak], by simpa using hcfg, hu.doing _,
      rfl, hw.trans hpair⟩

/-- Settles O32: the pairs take up any number of moves. -/
theorem waitWcNeverGivesUp : Obligations.WaitWcNeverGivesUp := by
  unfold Obligations.WaitWcNeverGivesUp
  intro s n hr hi hc he
  obtain ⟨u, -, -, -, hw⟩ := waitWc_endless ⟨hi, hr.2⟩ hc he n
  have hall := hw.next
  cases hrun : runMoves n (accept .waitWc s) with
  | next t =>
    obtain hcmd | hcmd := runMoves_cmd hrun
    · exact ⟨t, rfl, hcmd⟩
    · have hend := Host.Outcome.next.inj (hall.symm.trans (runMoves_mono hrun hcmd (by omega)))
      exact nomatch (congrArg (·.seq.cmd) hend).trans hcmd
  | refused r => exact nomatch hall.symm.trans (runMoves_mono_refused hrun (by omega))
  | fault f => exact nomatch f

end Sys2Proof.Machine
end

section
/-! PROOFS. A transaction and the host that issues its primitives make the same moves, but for the host's acceptances
and responses (41_eeprom_client_transactions.md R171). -/

namespace Sys2Proof.Machine

/-! ### One primitive -/

section Move
variable {s : State} {i : Instr} {act : SeqAct} {p : Prim}

/-- A move that issues an entry. -/
theorem move_issue (hc : s.seq.cmd = some i) (hw : s.seq.wait = none)
    (ht : (sequenceOf s.cfg i)[s.seq.pc]? = some act) : move s = issue act s := by
  unfold move
  simp only [hc, ht, hw]

/-- A move that polls for a completion. -/
theorem move_poll (hc : s.seq.cmd = some i) (hw : s.seq.wait = some p)
    (ht : (sequenceOf s.cfg i)[s.seq.pc]? = some act) :
    move s = if completionSeen s.cfg.ctrlLayout p s.ctrl then .next (observe act p s) else .next (busTurn s) := by
  unfold move
  simp only [hc, ht, hw]
end Move

/-- The command that the host issues for a primitive. -/
def primCommand : Prim → Instr
  | .start => .start
  | .stop => .stop
  | .txa b => .txa (addressOf b) (directionOf b)
  | .txb b => .txb b
  | .rx ack => .rx ack

/-- Its table is the primitive and a response. -/
theorem sequenceOf_command (c : Config.Params) (p : Prim) : ∃ act k, ∃ v : State → Byte,
    sequenceOf c (primCommand p) = [.prim p, act] ∧ ∀ s, issue act s = .next (respond k (v s) s) := by
  cases p with
  | start | stop | txb _ => exact ⟨.respondOk, .ok, fun _ => 0x00#8, rfl, fun _ => rfl⟩
  | txa b =>
    exact ⟨.respondOk, .ok, fun _ => 0x00#8, by simp [primCommand, sequenceOf, txaSeq, controlByte], fun _ => rfl⟩
  | rx _ => exact ⟨.respondResult, .okData, State.result, rfl, fun _ => rfl⟩

@[simp] theorem primCommand_slaW (c : Config.Params) :
    primCommand (.txa (slaW c)) = .txa (deviceSla c) c.dirWrite := by
  rw [primCommand, directionOf_slaW, addressOf_slaW]; rfl

@[simp] theorem primCommand_slaR (c : Config.Params) :
    primCommand (.txa (slaR c)) = .txa (deviceSla c) c.dirRead := by
  rw [primCommand, directionOf_slaR, addressOf_slaR]; rfl

theorem exec_command (p : Prim) (s : State) :
    exec (primCommand p) s = runMoves (s.pace + 1) (accept (primCommand p) s) := by
  cases p <;> rfl

/-- The host has had a command performed: the sequencer rests, and configuration and BUF are as they were. -/
structure State.Served (s t : State) : Prop where
  cfg : t.cfg = s.cfg
  buf : t.buf = s.buf
  seq : t.seq = Seq.idle

theorem State.Served.trans {s t u : State} (h : s.Served t) (h' : t.Served u) : s.Served u :=
  ⟨h'.cfg.trans h.cfg, h'.buf.trans h.buf, h'.seq⟩

/-- The bus has its turn inside a transaction as it has it outside. -/
theorem busTurn_inside (q : Seq) (m : Memory) (s : State) : busTurn (s.inside q m) = (busTurn s).inside q m := by
  unfold busTurn
  simp only [show (s.inside q m).inflight = s.inflight from rfl]
  cases s.inflight with
  | none => rfl
  | some p =>
    simp only [pollEnv_inside]
    cases (pollEnv p s).1 <;> rfl

theorem latchResult_inside (p : Prim) (q : Seq) (m : Memory) (s : State) :
    latchResult p (s.inside q m) = (latchResult p s).inside q m := by cases p <;> rfl

theorem emitTrace_inside (q : Seq) (m : Memory) (s : State) : emitTrace (s.inside q m) = (emitTrace s).inside q m := by
  unfold emitTrace
  rw [show (s.inside q m).traceEn = s.traceEn from rfl]
  split <;> rfl

/-- The completion is observed inside a transaction as it is outside, but for what the entry does. -/
theorem observe_inside (act : SeqAct) (p : Prim) (q : Seq) (m : Memory) (k : RespKind) (v : Byte) (s : State) :
    observe act p (s.inside q m) =
      finishEntry act ((respond k v (observe (.prim p) p s)).inside { q with wait := none } m) := by
  have hprim : ∀ u : State, (respond k v (finishEntry (.prim p) u)).inside { q with wait := none } m =
      u.inside { q with wait := none } m := fun _ => rfl
  unfold observe
  rw [hprim, ← emitTrace_inside, ← latchResult_inside]
  rfl

/-- From the launch on, the host's command and the entry of the transaction run to the same end. -/
theorem flight_follows {p : Prim} {u : State} {N : Nat} {cmd : Instr} {pc : Nat} {act : SeqAct} (j : Byte) (m : Memory)
    (hu : u.seq = ⟨some (primCommand p), 0, 0#8, some p⟩) (ht : (sequenceOf u.cfg cmd)[pc]? = some act) :
    ∃ t, runMoves N u = .next t ∧ (t.seq.cmd = none → u.Served t ∧ ∃ n,
      MovesTo n (u.inside ⟨some cmd, pc, j, some p⟩ m) (finishEntry act (t.inside ⟨some cmd, pc, j, none⟩ m))) := by
  induction N generalizing u with
  | zero => exact ⟨u, rfl, fun h => by simp [hu] at h⟩
  | succ N ih =>
    obtain ⟨ans, k, v, htable, hans⟩ := sequenceOf_command u.cfg p
    have hhost := move_poll (s := u) (i := primCommand p) (p := p) (act := .prim p) (by rw [hu]) (by rw [hu])
      (by rw [hu, htable]; rfl)
    have hentry := move_poll (s := u.inside ⟨some cmd, pc, j, some p⟩ m) (p := p) rfl rfl ht
    rw [show (u.inside ⟨some cmd, pc, j, some p⟩ m).cfg = u.cfg from rfl,
      show (u.inside ⟨some cmd, pc, j, some p⟩ m).ctrl = u.ctrl from rfl] at hentry
    cases hseen : completionSeen u.cfg.ctrlLayout p u.ctrl with
    | false =>
      simp only [hseen, Bool.false_eq_true, if_false, busTurn_inside] at hhost hentry
      obtain ⟨t, hrun, hend⟩ := ih (u := busTurn u) (by rw [busTurn_seq, hu]) (by rw [busTurn_cfg, ht])
      refine ⟨t, (runMoves_step (by rw [hu]) hhost N).trans hrun, fun hdone => ?_⟩
      obtain ⟨⟨hcfg, hbuf, hseq⟩, n, hmoves⟩ := hend hdone
      exact ⟨⟨hcfg.trans (busTurn_cfg u), hbuf.trans (busTurn_buf u), hseq⟩, 1 + n,
        MovesTo.trans (runMoves_step (i := cmd) rfl hentry) hmoves⟩
    | true =>
      simp only [hseen, if_true, observe_inside act p _ m k (v (observe (.prim p) p u))] at hhost hentry
      have hseq : (observe (.prim p) p u).seq = ⟨some (primCommand p), 1, 0#8, none⟩ := by
        simp [observe, finishEntry, hu]
      cases N with
      | zero =>
        exact ⟨_, runMoves_step (by rw [hu]) hhost 0, fun hdone => by simp [hseq] at hdone⟩
      | succ N =>
        refine ⟨_, (runMoves_step (by rw [hu]) hhost (N + 1)).trans (runMoves_respond (i := primCommand p) (act := ans)
          (by rw [hseq]) (by rw [hseq]) (by rw [observe_cfg, hseq, htable]; rfl) (hans _) N), fun _ =>
          ⟨⟨by simp, by simp [observe, finishEntry], rfl⟩, 1, runMoves_step (i := cmd) rfl hentry⟩⟩

/-- An entry that issues `p`, and the host that issues its command in the same state. -/
theorem entry_follows {p : Prim} {s : State} {cmd : Instr} {pc : Nat} {act : SeqAct} {j : Byte} {m : Memory}
    (ht : (sequenceOf s.cfg cmd)[pc]? = some act)
    (hact : issue act (s.inside ⟨some cmd, pc, j, none⟩ m) = issuePrim p (s.inside ⟨some cmd, pc, j, none⟩ m)) :
    (∃ r, exec (primCommand p) s = .refused r ∧ runMoves 1 (s.inside ⟨some cmd, pc, j, none⟩ m) = .refused r) ∨
    ∃ t, exec (primCommand p) s = .next t ∧ (t.seq.cmd = none → s.Served t ∧ ∃ n,
      MovesTo n (s.inside ⟨some cmd, pc, j, none⟩ m) (finishEntry act (t.inside ⟨some cmd, pc, j, none⟩ m))) := by
  obtain ⟨ans, -, -, htable, -⟩ := sequenceOf_command s.cfg p
  have hentry : (sequenceOf (accept (primCommand p) s).cfg (primCommand p))[0]? = some (.prim p) := by
    rw [accept_cfg, htable]; rfl
  cases hk : contract p s with
  | some r =>
    exact .inl ⟨r, (exec_command p s).trans (runMoves_contract rfl rfl hentry rfl hk _),
      runMoves_contract (s := s.inside ⟨some cmd, pc, j, none⟩ m) (i := cmd) rfl rfl ht hact hk 0⟩
  | none =>
    have hhost : move (accept (primCommand p) s) = .next (launch p (accept (primCommand p) s)) := by
      rw [move_issue rfl rfl hentry, issue, issuePrim, show contract p (accept (primCommand p) s) = none from hk]
    have hlaunch : move (s.inside ⟨some cmd, pc, j, none⟩ m) =
        .next ((launch p (accept (primCommand p) s)).inside ⟨some cmd, pc, j, some p⟩ m) := by
      rw [move_issue (i := cmd) rfl rfl ht, hact, issuePrim,
        show contract p (s.inside ⟨some cmd, pc, j, none⟩ m) = none from hk]
      rfl
    obtain ⟨t, hrun, hend⟩ := flight_follows (u := launch p (accept (primCommand p) s)) (N := s.pace) j m rfl ht
    refine .inr ⟨t, (exec_command p s).trans ((runMoves_step rfl hhost _).trans hrun), fun hdone => ?_⟩
    obtain ⟨⟨hcfg, hbuf, hseq⟩, n, hmoves⟩ := hend hdone
    exact ⟨⟨hcfg, hbuf, hseq⟩, 1 + n, MovesTo.trans (runMoves_step (i := cmd) rfl hlaunch) hmoves⟩

/-! ### Several primitives -/

/-- Where the host ends by these commands from `s`, there the block that stands at `x` comes to stand so, and where the
host is refused it is refused. -/
def Tracks (is : List Instr) (s x : State) (P : State → State → Prop) : Prop :=
  (∀ t, hostRun is s = .next t → t.seq.cmd = none → ∃ n y, MovesTo n x y ∧ P t y) ∧
  ∀ r, hostRun is s = .refused r → ∃ n, runMoves n x = .refused r

theorem hostRun_cons_next {i : Instr} {is : List Instr} {s t : State} (h : exec i s = .next t) :
    hostRun (i :: is) s = if t.seq.cmd = none then hostRun is t else .next t := by
  simp only [hostRun, h]

/-- A run of the host, and then another: the first one ends, is under way, or is refused. -/
theorem hostRun_append {s : State} (h : s.seq.cmd = none) (is js : List Instr) :
    (∃ t, hostRun is s = .next t ∧ t.seq.cmd = none ∧ hostRun (is ++ js) s = hostRun js t) ∨
      (∃ t, hostRun is s = .next t ∧ t.seq.cmd ≠ none ∧ hostRun (is ++ js) s = .next t) ∨
      ∃ r, hostRun is s = .refused r ∧ hostRun (is ++ js) s = .refused r := by
  induction is generalizing s with
  | nil => exact .inl ⟨s, rfl, h, rfl⟩
  | cons i is ih =>
    cases hexec : exec i s with
    | fault f => exact nomatch f
    | refused r => exact .inr (.inr ⟨r, by simp only [hostRun, hexec], by simp only [List.cons_append, hostRun, hexec]⟩)
    | next t =>
      rw [List.cons_append, hostRun_cons_next hexec, hostRun_cons_next hexec]
      by_cases ht : t.seq.cmd = none
      · rw [if_pos ht, if_pos ht]
        exact ih ht
      · rw [if_neg ht, if_neg ht]
        exact .inr (.inl ⟨t, rfl, ht, rfl⟩)

theorem hostRun_append_next {s t : State} {is : List Instr} (h : s.seq.cmd = none) (hrun : hostRun is s = .next t)
    (ht : t.seq.cmd = none) (js : List Instr) : hostRun (is ++ js) s = hostRun js t := by
  obtain ⟨u, hu, -, hall⟩ | ⟨u, hu, hn, -⟩ | ⟨r, hr, -⟩ := hostRun_append h is js
  · rw [hall, Host.Outcome.next.inj (hrun.symm.trans hu)]
  · exact absurd (Host.Outcome.next.inj (hrun.symm.trans hu) ▸ ht) hn
  · exact nomatch hrun.symm.trans hr

theorem hostRun_singleton (i : Instr) (s : State) : hostRun [i] s = exec i s := by
  cases h : exec i s with
  | next t => rw [hostRun_cons_next h, hostRun, ite_self]
  | fault r => simp only [hostRun, h]
  | refused r => simp only [hostRun, h]

section Tracks
variable {s x : State} {is js : List Instr} {P Q : State → State → Prop}

/-- Moves before the ones that a run of the host corresponds to. -/
theorem Tracks.after {w : State} {k : Nat} (hw : MovesTo k w x) (h : Tracks is s x P) : Tracks is s w P := by
  refine ⟨fun t ht hdone => ?_, fun r hr => ?_⟩
  · obtain ⟨n, y, hmoves, hp⟩ := h.1 t ht hdone
    exact ⟨k + n, y, hw.trans hmoves, hp⟩
  · obtain ⟨n, hn⟩ := h.2 r hr
    exact ⟨n + k, (hw n).trans hn⟩

/-- Where the block stands, with what is known of the host there. -/
theorem Tracks.mono (h : Tracks is s x P) (hpq : ∀ t y, hostRun is s = .next t → P t y → Q t y) : Tracks is s x Q := by
  refine ⟨fun t ht hdone => ?_, h.2⟩
  obtain ⟨n, y, hmoves, hp⟩ := h.1 t ht hdone
  exact ⟨n, y, hmoves, hpq t y ht hp⟩

/-- A run of the host, and then another from where it ended. -/
theorem Tracks.append (hs : s.seq.cmd = none) (h : Tracks is s x P)
    (h' : ∀ t y, hostRun is s = .next t → t.seq.cmd = none → P t y → Tracks js t y Q) : Tracks (is ++ js) s x Q := by
  obtain ⟨hnext, hrefused⟩ := h
  obtain ⟨t, hrun, ht, hall⟩ | ⟨t, hrun, ht, hall⟩ | ⟨r, hrun, hall⟩ := hostRun_append hs is js <;>
    unfold Tracks <;> rw [hall]
  · obtain ⟨n, y, hmoves, hp⟩ := hnext t hrun ht
    exact (h' t y hrun ht hp).after hmoves
  · exact ⟨fun u hu hdone => absurd (Host.Outcome.next.inj hu ▸ hdone) ht, fun r hr => nomatch hr⟩
  · exact ⟨fun u hu => (nomatch hu), fun r' hr => Host.Outcome.refused.inj hr ▸ hrefused r hrun⟩

end Tracks

/-- An entry and the command of its primitive. -/
theorem Tracks.entry {p : Prim} {s : State} {cmd : Instr} {pc : Nat} {act : SeqAct} {j : Byte} {m : Memory}
    (ht : (sequenceOf s.cfg cmd)[pc]? = some act)
    (hact : issue act (s.inside ⟨some cmd, pc, j, none⟩ m) = issuePrim p (s.inside ⟨some cmd, pc, j, none⟩ m)) :
    Tracks [primCommand p] s (s.inside ⟨some cmd, pc, j, none⟩ m)
      fun t y => s.Served t ∧ y = finishEntry act (t.inside ⟨some cmd, pc, j, none⟩ m) := by
  unfold Tracks
  rw [hostRun_singleton]
  obtain ⟨r, hhost, hrun⟩ | ⟨t, hhost, hend⟩ := entry_follows ht hact
  · exact ⟨fun t ht => (nomatch hhost.symm.trans ht), fun r' hr => ⟨1, hrun.trans (hhost.symm.trans hr)⟩⟩
  · refine ⟨fun u hu hdone => ?_, fun r hr => nomatch hhost.symm.trans hr⟩
    obtain rfl := Host.Outcome.next.inj (hhost.symm.trans hu)
    obtain ⟨hserved, n, hmoves⟩ := hend hdone
    exact ⟨n, _, hmoves, hserved, rfl⟩

/-- Entries `do P` in a row and the commands of their primitives. -/
theorem Tracks.prims {p : Prim} {ps : List Prim} {s : State} {cmd : Instr} {pc : Nat} {acts : List SeqAct} (j : Byte)
    (m : Memory) (hs : s.seq.cmd = none) (ht : (sequenceOf s.cfg cmd).drop pc = (p :: ps).map SeqAct.prim ++ acts) :
    Tracks ((p :: ps).map primCommand) s (s.inside ⟨some cmd, pc, j, none⟩ m)
      fun t y => s.Served t ∧ y = t.inside ⟨some cmd, pc + (ps.length + 1), j, none⟩ m := by
  induction ps generalizing p s pc with
  | nil => exact Tracks.entry (drop_eq_cons ht).1 rfl
  | cons p' ps ih =>
    obtain ⟨hentry, htail⟩ := drop_eq_cons ht
    refine (Tracks.entry (j := j) (m := m) hentry rfl).append (js := (p' :: ps).map primCommand) hs
      fun t y _ hdone ⟨hserved, hy⟩ => ?_
    obtain rfl : y = t.inside ⟨some cmd, pc + 1, j, none⟩ m := hy
    have hrest := ih (p := p') (s := t) (pc := pc + 1) hdone (by rw [hserved.cfg]; exact htail)
    refine hrest.mono fun u z _ ⟨hu, hz⟩ => ⟨hserved.trans hu, ?_⟩
    rw [hz, List.length_cons, Nat.add_right_comm pc 1, Nat.add_assoc]

/-! ### The loops -/

/-- Commands issued one for each index, and the turns of a loop. -/
theorem Tracks.loop {is : List Instr} {s x : State} {f : Nat → Instr} {P : Nat → State → State → Prop} {len : Nat}
    (hs : s.seq.cmd = none) (h : Tracks is s x (P 0))
    (hturn : ∀ k t y, k < len → hostRun (is ++ (List.range k).map f) s = .next t → t.seq.cmd = none → P k t y →
      Tracks [f k] t y (P (k + 1))) : Tracks (is ++ (List.range len).map f) s x (P len) := by
  induction len with
  | zero => simpa using h
  | succ n ih =>
    rw [List.range_succ, List.map_append, ← List.append_assoc]
    exact (ih fun k t y hk => hturn k t y (Nat.lt_succ_of_lt hk)).append hs fun t y => hturn n t y (Nat.lt_succ_self n)

/-! ### The transactions -/

/-- A response inside a transaction is a response on the port of the host. -/
theorem respond_inside {s t : State} (h : s.Served t) (k : RespKind) (v : Byte) :
    respond k v (t.inside Seq.idle s.buf) = { t with resp := some (respWord k 0#4 v) } := by
  obtain ⟨-, hbuf, hseq⟩ := h
  rw [← hbuf]
  unfold respond State.inside
  rw [← hseq]

/-- The block that stands at a response once the host has ended. -/
theorem Tracks.responds {is : List Instr} {s x : State} {cmd : Instr} {pc : Nat} {j : Byte} {act : SeqAct}
    {k : RespKind} {v : State → Byte}
    (h : Tracks is s x fun t y => s.Served t ∧ y = t.inside ⟨some cmd, pc, j, none⟩ s.buf)
    (ht : (sequenceOf s.cfg cmd)[pc]? = some act) (hact : ∀ u, issue act u = .next (respond k (v u) u)) :
    (∀ t, hostRun is s = .next t → t.seq.cmd = none → ∃ n, runMoves n x =
        .next { t with resp := some (respWord k 0#4 (v (t.inside ⟨some cmd, pc, j, none⟩ s.buf))) }) ∧
      ∀ r, hostRun is s = .refused r → ∃ n, runMoves n x = .refused r := by
  refine ⟨fun t hrun hdone => ?_, h.2⟩
  obtain ⟨n, y, hmoves, hserved, rfl⟩ := h.1 t hrun hdone
  refine ⟨1 + n, (hmoves 1).trans ?_⟩
  rw [inside_respond (by rw [hserved.cfg, ht]) hact 0, respond_inside hserved]

/-- The host's commands for `open_write(addr)` (R182). -/
def openCommands (c : Config.Params) (addr : Byte) : List Instr := [.start, .txa (deviceSla c) c.dirWrite, .txb addr]

/-- The host's commands for `turn_read` (R182). -/
def turnCommands (c : Config.Params) : List Instr := [.start, .txa (deviceSla c) c.dirRead]

section Loop
variable {s : State} {addr len : Byte}

/-- WR_PAGE up to its STOP. -/
theorem wrPage_tracks {vs : List Byte} (hs : s.seq.cmd = none) (hlen : len ≠ 0#8) (hvs : vs.length = len.toNat)
    (hread : ∀ k, k < len.toNat → readBuf (BitVec.ofNat 8 k) s = vs[k]?) :
    Tracks (openCommands s.cfg addr ++ vs.map Instr.txb) s (accept (.wrPage addr len) s)
      fun t y => s.Served t ∧ y = t.inside ⟨some (.wrPage addr len), 4, len, none⟩ s.buf := by
  have hopen := Tracks.prims (p := .start) (ps := [.txa (slaW s.cfg), .txb addr]) (cmd := .wrPage addr len) (pc := 0)
    (acts := [.sendBuf len, .prim .stop, .respondOk]) 0#8 s.buf hs rfl
  simp only [List.map_cons, List.map_nil, primCommand_slaW] at hopen
  have hloop := Tracks.loop (is := openCommands s.cfg addr) (len := len.toNat)
    (f := fun k => .txb (vs[k]?.getD 0x00#8))
    (P := fun k t y => s.Served t ∧ y = t.inside
      ⟨some (.wrPage addr len), if k < len.toNat then 3 else 4, BitVec.ofNat 8 k, none⟩ s.buf) hs
    (by rw [if_pos (toNat_pos_of_ne_zero hlen)]; exact hopen)
    (by
      rintro k t y hk - hdone ⟨hserved, rfl⟩
      have hv : vs[k]? = some (vs[k]?.getD 0x00#8) := by rw [List.getElem?_eq_getElem (hvs ▸ hk)]; rfl
      rw [if_pos hk]
      refine (Tracks.entry (p := .txb (vs[k]?.getD 0x00#8)) (act := .sendBuf len) rfl
        (issue_sendBuf_at (hread k hk |>.trans hv) _ hserved.cfg rfl rfl)).mono fun u z _ ⟨hu, hz⟩ =>
          ⟨hserved.trans hu, hz.trans (countLoop_inside hk _ _ _ _)⟩)
  have hbytes : (List.range len.toNat).map (fun k => Instr.txb (vs[k]?.getD 0x00#8)) = vs.map Instr.txb := by
    rw [← hvs]
    refine List.ext_getElem (by simp) fun k h1 h2 => ?_
    simp [List.getElem?_eq_getElem (by simpa using h2)]
  rw [hbytes, if_neg (by omega), BitVec.ofNat_toNat, BitVec.setWidth_eq] at hloop
  exact hloop

/-- The first `n` bytes stored in BUF are the results of these runs of the host (R185). -/
def State.Stored (s : State) (run : Nat → Host.Outcome State Fault Refusal) (n : Nat) (m : Memory) : Prop :=
  ∃ ds, ds.length = n ∧ BufFilled s.cfg s.buf ds m ∧ ∀ k v, k < n → run k = .next v → ds[k]? = some v.result

/-- SEQ_RD stands at byte `n`, or behind its loop. -/
def State.Receiving (s : State) (addr len : Byte) (run : Nat → Host.Outcome State Fault Refusal) (n : Nat)
    (t y : State) : Prop :=
  s.Served t ∧ ∃ m, s.Stored run n m ∧
    y = t.inside ⟨some (.seqRd addr len), if n < len.toNat then 5 else 6, BitVec.ofNat 8 n, none⟩ m

theorem State.Stored.snoc {s u : State} {run : Nat → Host.Outcome State Fault Refusal} {n : Nat} {m : Memory}
    (h : s.Stored run n m) (hn : n < 256) (hu : run n = .next u) :
    s.Stored run (n + 1) (bufStore s.cfg (BitVec.ofNat 8 n) u.result m) := by
  obtain ⟨ds, rfl, hm, hres⟩ := h
  refine ⟨ds ++ [u.result], by simp, hm.snoc hn u.result, fun k v hk hv => ?_⟩
  obtain hlt | rfl := Nat.lt_succ_iff_lt_or_eq.mp hk
  · rw [List.getElem?_append_left hlt, hres k v hlt hv]
  · rw [Host.Outcome.next.inj (hu.symm.trans hv)]
    simp

/-- A byte of SEQ_RD and the host's RX. -/
theorem seqRd_turn {run : Nat → Host.Outcome State Fault Refusal} {n : Nat} {t y : State} (hn : n < len.toNat)
    (hrun : run n = exec (.rx (decide (n + 1 < len.toNat))) t) (h : s.Receiving addr len run n t y) :
    Tracks [.rx (decide (n + 1 < len.toNat))] t y (s.Receiving addr len run (n + 1)) := by
  obtain ⟨hserved, m, hm, rfl⟩ := h
  rw [if_pos hn]
  refine (Tracks.entry (p := .rx (decide (n + 1 < len.toNat))) (act := .recvBuf len) rfl
    (issue_recvBuf_at (s := s) hn _ hserved.cfg rfl rfl)).mono fun u z hu ⟨hu', hz⟩ => ?_
  have hall := hserved.trans hu'
  rw [hostRun_singleton] at hu
  refine ⟨hall, _, hm.snoc (by have := len.isLt; omega) (hrun.trans hu), ?_⟩
  rw [hz, ← hall.cfg]
  exact countLoop_inside hn _ _ _ _

/-- SEQ_RD up to its STOP. -/
theorem seqRd_tracks {is : List Instr} {f : Nat → Instr} (hs : s.seq.cmd = none) (hlen : len ≠ 0#8)
    (his : is = openCommands s.cfg addr ++ turnCommands s.cfg) (hf : ∀ k, f k = .rx (decide (k + 1 < len.toNat))) :
    Tracks (is ++ (List.range len.toNat).map f) s (accept (.seqRd addr len) s)
      (s.Receiving addr len (fun k => hostRun (is ++ (List.range (k + 1)).map f) s) len.toNat) := by
  have hopen := Tracks.prims (p := .start) (ps := [.txa (slaW s.cfg), .txb addr, .start, .txa (slaR s.cfg)])
    (cmd := .seqRd addr len) (pc := 0) (acts := [.recvBuf len, .prim .stop, .respondOk]) 0#8 s.buf hs rfl
  simp only [List.map_cons, List.map_nil, primCommand_slaW, primCommand_slaR] at hopen
  refine Tracks.loop hs ?_ fun k t y hk hrun hdone h => ?_
  · rw [his]
    exact hopen.mono fun t y _ ⟨hserved, hy⟩ => ⟨hserved, s.buf,
      ⟨[], rfl, .nil _ _, fun _ _ hk => absurd hk (Nat.not_lt_zero _)⟩,
      by rw [hy, if_pos (toNat_pos_of_ne_zero hlen)]; rfl⟩
  · rw [hf k]
    refine seqRd_turn hk ?_ h
    rw [← hf k, ← hostRun_singleton, ← hostRun_append_next hs hrun hdone, List.range_succ, List.map_append,
      List.append_assoc]
    rfl

/-- The host's commands up to byte `k` of SEQ_RD. -/
theorem take_seqRd {is : List Instr} {f : Nat → Instr} {k n : Nat} (his : is.length = 5) (hk : k < n) :
    (is ++ (List.range n).map f ++ [Instr.stop]).take (6 + k) = is ++ (List.range (k + 1)).map f := by
  rw [List.append_assoc, List.take_append, List.take_of_length_le (by omega),
    List.take_append_of_le_length (by simp; omega), ← List.map_take, List.take_range, his]
  congr 3
  omega

/-- SEQ_RD and its primitives. -/
theorem seqRd_equals {prims : List Instr} (hs : s.seq.cmd = none) (hlen : len ≠ 0#8)
    (hprims : prims = openCommands s.cfg addr ++ turnCommands s.cfg ++
      (List.range len.toNat).map (fun k => Instr.rx (decide (k + 1 < len.toNat))) ++ [.stop]) :
    (∀ t, hostRun prims s = .next t → t.seq.cmd = none →
      ∃ n u, runMoves n (accept (.seqRd addr len) s) = .next u ∧
        u = { t with resp := some 0x0000#16, buf := u.buf } ∧
        (∀ (k : Byte) (v : State), k.toNat < len.toNat → k.toNat < s.cfg.bufSize →
          hostRun (prims.take (6 + k.toNat)) s = .next v → readBuf k u = some v.result) ∧
        ∀ k : Byte, len.toNat ≤ k.toNat → readBuf k u = readBuf k s) ∧
    ∀ r, hostRun prims s = .refused r → ∃ n, runMoves n (accept (.seqRd addr len) s) = .refused r := by
  subst hprims
  have h := (seqRd_tracks (addr := addr) hs hlen rfl fun _ => rfl).append (js := [.stop])
    (Q := fun t y => s.Served t ∧ ∃ m, s.Stored _ len.toNat m ∧ y = t.inside ⟨some (.seqRd addr len), 7, len, none⟩ m)
    hs (by
      rintro t y - hdone ⟨hserved, m, hm, rfl⟩
      rw [if_neg (by omega), BitVec.ofNat_toNat, BitVec.setWidth_eq]
      exact (Tracks.entry (p := .stop) (act := .prim .stop) rfl rfl).mono fun u z _ ⟨hu, hz⟩ =>
        ⟨hserved.trans hu, m, hm, hz⟩)
  refine ⟨fun t hrun hdone => ?_, h.2⟩
  obtain ⟨n, y, hmoves, hserved, m, ⟨ds, hds, hm, hres⟩, rfl⟩ := h.1 t hrun hdone
  have hend := (hmoves 1).trans
    (inside_respond (act := .respondOk) (k := .ok) (v := fun _ => 0x00#8) rfl (fun _ => rfl) 0)
  have hread : ∀ k, readBuf k (respond .ok 0x00#8 (t.inside Seq.idle m)) = bufByte s.cfg m k :=
    readBuf_stored hserved.cfg rfl
  refine ⟨1 + n, _, hend, ?_, fun k v hk hsize hv => ?_, fun k hk => ?_⟩
  · unfold respond State.inside
    rw [← hserved.seq]
    rfl
  · rw [take_seqRd rfl hk] at hv
    rw [hread, hm.below k (hds ▸ hk) hsize]
    exact hres k.toNat v hk hv
  · exact (hread k).trans (hm.above k (hds ▸ hk))

/-- WAIT_WC up to a pair before which each code was another than `ST_SLA_W_ACK` (R186). -/
theorem waitWc_tracks {pairs : Nat → List Instr} (hs : s.seq.cmd = none)
    (hpairs : ∀ k, pairs k = (List.replicate (k + 1) [.start, .txa (deviceSla s.cfg) s.cfg.dirWrite]).flatten) (n : Nat)
    (hcodes : ∀ k v, k < n → hostRun (pairs k) s = .next v → statusCode s.cfg v.status ≠ s.cfg.codes.slaWAck) :
    Tracks (pairs n) s (accept .waitWc s) fun t y => s.Served t ∧ y = t.inside ⟨some .waitWc, 2, 0#8, none⟩ s.buf := by
  have hpair : ∀ t, t.seq.cmd = none → t.cfg = s.cfg →
      Tracks [.start, .txa (deviceSla s.cfg) s.cfg.dirWrite] t (t.inside ⟨some .waitWc, 0, 0#8, none⟩ s.buf)
        fun u z => t.Served u ∧ z = u.inside ⟨some .waitWc, 2, 0#8, none⟩ s.buf := fun t ht hcfg => by
    have h := Tracks.prims (p := .start) (ps := [.txa (slaW s.cfg)]) (cmd := .waitWc) (pc := 0) (acts := [.untilAck])
      0#8 s.buf ht (by rw [hcfg]; rfl)
    simp only [List.map_cons, List.map_nil, primCommand_slaW] at h
    exact h
  induction n with
  | zero =>
    rw [hpairs]
    exact hpair s hs rfl
  | succ n ih =>
    have hnext : pairs (n + 1) = pairs n ++ [.start, .txa (deviceSla s.cfg) s.cfg.dirWrite] := by
      rw [hpairs, List.replicate_succ', List.flatten_append, ← hpairs, List.flatten_singleton]
    rw [hnext]
    refine (ih fun k v hk => hcodes k v (Nat.lt_succ_of_lt hk)).append hs ?_
    rintro t y hrun hdone ⟨hserved, rfl⟩
    have hback := waitWc_back (s := t) (j := 0#8) (m := s.buf)
      (by rw [hserved.cfg]; exact hcodes n t (Nat.lt_succ_self n) hrun)
    exact ((hpair t hdone hserved.cfg).after hback).mono fun u z _ ⟨hu, hz⟩ => ⟨hserved.trans hu, hz⟩
end Loop

/-- Settles O38: entry by entry the transaction and the host make the same moves. -/
theorem transactionEqualsItsPrimitives : Obligations.TransactionEqualsItsPrimitives := by
  unfold Obligations.TransactionEqualsItsPrimitives
  intro s hr
  refine ⟨fun addr prims hprims => ?_, fun addr data prims hprims => ?_,
    fun addr len vs prims hlen hvs hread hprims => ?_, fun addr len prims hlen hprims => ?_,
    fun m pairs hpairs hcodes => ?_⟩
  · have h := Tracks.prims (p := .start)
      (ps := [.txa (slaW s.cfg), .txb addr, .start, .txa (slaR s.cfg), .rx false, .stop])
      (cmd := .rdByte addr) (pc := 0) (acts := [.respondResult]) 0#8 s.buf hr.1 rfl
    simp only [List.map_cons, List.map_nil, primCommand_slaW, primCommand_slaR] at h
    subst hprims
    have hends := h.responds (act := .respondResult) (k := .okData) (v := State.result) rfl fun _ => rfl
    exact hends
  · have h := Tracks.prims (p := .start) (ps := [.txa (slaW s.cfg), .txb addr, .txb data, .stop])
      (cmd := .wrByte addr data) (pc := 0) (acts := [.respondOk]) 0#8 s.buf hr.1 rfl
    simp only [List.map_cons, List.map_nil, primCommand_slaW] at h
    subst hprims
    have hends := h.responds (act := .respondOk) (k := .ok) (v := fun _ => 0x00#8) rfl fun _ => rfl
    exact hends
  · subst hprims
    have h := (wrPage_tracks (addr := addr) hr.1 hlen hvs hread).append (js := [.stop])
      (Q := fun t y => s.Served t ∧ y = t.inside ⟨some (.wrPage addr len), 5, len, none⟩ s.buf) hr.1 (by
      rintro t y - hdone ⟨hserved, rfl⟩
      exact (Tracks.entry (p := .stop) (act := .prim .stop) rfl rfl).mono fun u z _ ⟨hu, hz⟩ => ⟨hserved.trans hu, hz⟩)
    have hends := h.responds (act := .respondOk) (k := .ok) (v := fun _ => 0x00#8) rfl fun _ => rfl
    exact hends
  · exact seqRd_equals hr.1 hlen hprims
  · have h := waitWc_tracks hr.1 hpairs m hcodes
    refine ⟨fun t hrun hdone hack => ?_, h.2⟩
    obtain ⟨n, y, hmoves, hserved, rfl⟩ := h.1 t hrun hdone
    refine ⟨1 + n, (hmoves 1).trans ?_⟩
    rw [runMoves_untilAck_end rfl (by rw [inside_cfg, hserved.cfg]; exact hack)]
    exact congrArg _ (respond_inside hserved .ok 0x00#8)

end Sys2Proof.Machine
end

section
/-! PROOFS. The status decoder: the labels of R202 stand in the order of the known codes, so the code at a place has the
label whose id is that place, and the line of an event is read off the label (42_status_decoder.md R202 to R206, R210). -/

namespace Sys2Proof.Machine

/-! ### The label of a code -/

/-- The known codes are those of the rows. -/
theorem known_eq_map_labelRows (c : Config.StatusCodes) : c.known = (labelRows c).map Prod.snd := rfl

/-- Each row stands at the place its label's number says (R202). -/
theorem labelIndex_of_labelRows {c : Config.StatusCodes} {k : Nat} {r : Label × Byte} (h : (labelRows c)[k]? = some r) :
    (labelIndex r.1).val = k := by
  have hrange : (labelRows c).map (fun r => (labelIndex r.1).val) = List.range 11 := rfl
  have hk : (List.range 11)[k]? = some (labelIndex r.1).val := by rw [← hrange, List.getElem?_map, h]; rfl
  simpa using (List.getElem?_eq_some_iff.mp hk).2.symm

/-- The codes being distinct, the label of a row's code is the row's. -/
theorem labelOf_eq_of_mem {c : Config.StatusCodes} (hn : c.known.Nodup) {r : Label × Byte} (h : r ∈ labelRows c) :
    labelOf c r.2 = r.1 := by
  unfold labelOf
  cases hf : (labelRows c).find? (fun q => q.2 == r.2) with
  | none => simpa using List.find?_eq_none.mp hf r h
  | some q =>
    have hq : q.2 = r.2 := by simpa using List.find?_some hf
    rw [known_eq_map_labelRows] at hn
    rw [List.inj_on_of_nodup_map hn (List.mem_of_find?_eq_some hf) h hq]

/-- The known code at place `k` has label number `k` (R202, R203). -/
theorem labelIndex_labelOf {c : Config.StatusCodes} (hn : c.known.Nodup) {k : Nat} {code : Byte}
    (h : c.known[k]? = some code) : (labelIndex (labelOf c code)).val = k := by
  rw [known_eq_map_labelRows, List.getElem?_map, Option.map_eq_some_iff] at h
  obtain ⟨r, hr, rfl⟩ := h
  rw [labelOf_eq_of_mem hn (List.mem_of_getElem? hr)]
  exact labelIndex_of_labelRows hr

/-- A code of no row has the label `L_UNKNOWN` (R204). -/
theorem labelOf_unknown {c : Config.StatusCodes} {code : Byte} (h : code ∉ c.known) : labelOf c code = .unknown := by
  have hnone : (labelRows c).find? (fun r => r.2 == code) = none :=
    List.find?_eq_none.mpr fun r hr he => h (beq_iff_eq.mp he ▸ List.mem_map_of_mem hr)
  rw [labelOf, hnone]

theorem labelOf_ne_unknown_iff {c : Config.StatusCodes} (hn : c.known.Nodup) (code : Byte) :
    labelOf c code ≠ .unknown ↔ code ∈ c.known := by
  refine ⟨fun h => by_contra fun hc => h (labelOf_unknown hc), fun h hu => ?_⟩
  obtain ⟨k, hk⟩ := List.mem_iff_getElem?.mp h
  have hindex : 11 = k := by simpa [hu, labelIndex] using labelIndex_labelOf hn hk
  have hlt : k < 11 := (List.getElem?_eq_some_iff.mp hk).1
  omega

/-- Eleven codes have a label other than `L_UNKNOWN`: the known ones. -/
theorem card_labelOf_ne_unknown {c : Config.StatusCodes} (hn : c.known.Nodup) :
    (Finset.univ.filter (fun code : Byte => labelOf c code ≠ .unknown)).card = 11 := by
  have hset : Finset.univ.filter (fun code : Byte => labelOf c code ≠ .unknown) = c.known.toFinset := by
    ext code
    simp [-ne_eq, labelOf_ne_unknown_iff hn]
  rw [hset, List.toFinset_card_of_nodup hn]
  rfl

/-- The 4-bit id of a label is its number: there are twelve. -/
theorem zeroExtend_labelId (l : Label) : (labelId l).zeroExtend 8 = BitVec.ofNat 8 (labelIndex l) := by
  cases l <;> rfl

/-- Settles O47: DECODE responds the number of the label, which is the place of the code among the known ones. -/
theorem decodeRespondsTheLabel : Obligations.DecodeRespondsTheLabel := by
  unfold Obligations.DecodeRespondsTheLabel
  rintro s code ⟨hn, -⟩
  refine ⟨⟨BitVec.ofNat 8 (labelIndex (labelOf s.cfg.codes code)), ?_, fun k hk => ?_, fun hu => ?_⟩,
    card_labelOf_ne_unknown hn⟩
  · rw [← zeroExtend_labelId]
    rfl
  · rw [labelIndex_labelOf hn hk]
  · rw [labelOf_unknown hu]
    rfl

/-! ### The line of an event -/

/-- The text of a label is the one at its number (R206). -/
theorem labelText_labelIndex (c : Config.Params) (l : Label) : c.labelText[(labelIndex l).val]? = some (textOf c l) := by
  simp [textOf]

theorem renderLine_of_ne_unknown (c : Config.Params) {l : Label} (h : l ≠ .unknown) (code : Byte) :
    renderLine c ⟨l, code⟩ = textOf c l := by
  unfold renderLine
  split
  · next hu => exact absurd hu h
  · rfl

/-- A nibble is shown as the digit at its place (R206). -/
theorem hexDigit_eq (n : BitVec 4) : ("0123456789ABCDEF".toList)[n.toNat]? = some (hexDigit n) := by
  revert n
  decide

/-- Settles O48: a known code's line is the text of its label, the fallback's is its text and the two nibbles. -/
theorem fallbackLineShowsTheCode : Obligations.FallbackLineShowsTheCode := by
  unfold Obligations.FallbackLineShowsTheCode
  refine ⟨rfl, ?_⟩
  rintro c code line ⟨hn, -⟩ rfl
  refine ⟨fun k hk => ?_, fun hu => ?_⟩
  · have hknown := (labelOf_ne_unknown_iff hn code).mpr (List.mem_of_getElem? hk)
    rw [decodeStatus, renderLine_of_ne_unknown c hknown, ← labelText_labelIndex, labelIndex_labelOf hn hk]
  · have hhigh : (code.extractLsb' 4 4).toNat = code.toNat / 16 := by
      rw [BitVec.extractLsb'_toNat, Nat.shiftRight_eq_div_pow]
      omega
    have hlow : (code.extractLsb' 0 4).toNat = code.toNat % 16 := by simp [BitVec.extractLsb'_toNat]
    refine ⟨textOf c .unknown, hexDigit (code.extractLsb' 4 4), hexDigit (code.extractLsb' 0 4),
      labelText_labelIndex c .unknown, ?_, ?_, ?_⟩
    · rw [← hhigh, hexDigit_eq]
    · rw [← hlow, hexDigit_eq]
    · rw [decodeStatus, labelOf_unknown hu]
      rfl

end Sys2Proof.Machine
end

section
/-! PROOFS. Tracing: no operation of the sequencer looks at `trace_en` or the diagnostic history but the trace of an event,
which writes the history only, so a command does the same without them (42_status_decoder.md R205, 43_access_commands.md R221). -/

namespace Sys2Proof.Machine

/-! ### What the operations of the sequencer do without tracing -/

@[simp] theorem untraced_cfg (s : State) : s.untraced.cfg = s.cfg := rfl
@[simp] theorem untraced_inflight (s : State) : s.untraced.inflight = s.inflight := rfl
@[simp] theorem untraced_initialized (s : State) : s.untraced.initialized = s.initialized := rfl
@[simp] theorem untraced_seq (s : State) : s.untraced.seq = s.seq := rfl
@[simp] theorem untraced_untraced (s : State) : s.untraced.untraced = s.untraced := rfl
@[simp] theorem readBuf_untraced (k : Byte) (s : State) : readBuf k s.untraced = readBuf k s := rfl
@[simp] theorem contract_untraced (p : Prim) (s : State) : contract p s.untraced = contract p s := rfl

/-- An event is traced to the diagnostic history only (60_exceptions.md R262). -/
theorem emitTrace_untraced (s : State) : emitTrace s.untraced = (emitTrace s).untraced := by
  change s.untraced = _
  unfold emitTrace
  split <;> rfl

theorem latchResult_untraced (p : Prim) (s : State) : latchResult p s.untraced = (latchResult p s).untraced := by
  cases p <;> rfl

theorem finishEntry_untraced (act : SeqAct) (s : State) : finishEntry act s.untraced = (finishEntry act s).untraced := by
  cases act <;> rfl

theorem observe_untraced (act : SeqAct) (p : Prim) (s : State) : observe act p s.untraced = (observe act p s).untraced := by
  unfold observe
  rw [← finishEntry_untraced, ← emitTrace_untraced, ← latchResult_untraced]
  rfl

theorem pollEnv_untraced (p : Prim) (s : State) : pollEnv p s.untraced = ((pollEnv p s).1, (pollEnv p s).2.untraced) := by
  unfold pollEnv State.untraced
  cases s.env <;> rfl

theorem busTurn_untraced (s : State) : busTurn s.untraced = (busTurn s).untraced := by
  unfold busTurn
  rw [untraced_inflight]
  cases s.inflight with
  | none => rfl
  | some p =>
    simp only [pollEnv_untraced]
    cases (pollEnv p s).1 <;> rfl

theorem issuePrim_untraced (p : Prim) (s : State) : issuePrim p s.untraced = mapNext State.untraced (issuePrim p s) := by
  unfold issuePrim
  rw [contract_untraced]
  cases contract p s <;> rfl

theorem issue_untraced (act : SeqAct) (s : State) : issue act s.untraced = mapNext State.untraced (issue act s) := by
  cases act with
  | prim p => exact issuePrim_untraced p s
  | recvBuf len => exact issuePrim_untraced _ s
  | sendBuf len =>
    simp only [issue, untraced_seq, readBuf_untraced]
    cases readBuf s.seq.i s with
    | none => rfl
    | some v => exact issuePrim_untraced _ s
  | untilAck =>
    simp only [issue, apply_ite (mapNext State.untraced)]
    rfl
  | respondOk | respondResult => rfl

/-! ### Moves and commands -/

theorem move_untraced (s : State) : move s.untraced = mapNext State.untraced (move s) := by
  cases hc : s.seq.cmd with
  | none => simp only [move, untraced_seq, hc, mapNext]
  | some i =>
    cases ht : (sequenceOf s.cfg i)[s.seq.pc]? with
    | none => simp only [move, untraced_seq, untraced_cfg, hc, ht, mapNext]
    | some act =>
      cases hw : s.seq.wait with
      | none => rw [move_issue hc hw ht, move_issue (s := s.untraced) hc hw ht, issue_untraced]
      | some p =>
        rw [move_poll hc hw ht, move_poll (s := s.untraced) hc hw ht, observe_untraced, busTurn_untraced]
        rw [apply_ite (mapNext State.untraced)]
        rfl

theorem runMoves_untraced (n : Nat) (s : State) : runMoves n s.untraced = mapNext State.untraced (runMoves n s) := by
  induction n generalizing s with
  | zero => rfl
  | succ n ih =>
    simp only [runMoves, untraced_seq, move_untraced]
    split
    · rfl
    · cases move s with
      | next t => exact ih t
      | fault r => rfl
      | refused r => rfl

theorem resume_untraced (s : State) : resume s.untraced = mapNext State.untraced (resume s) := runMoves_untraced _ s

theorem runCommand_untraced (i : Instr) (s : State) :
    runCommand i s.untraced = mapNext State.untraced (runCommand i s) := resume_untraced (accept i s)

/-- FSMSTATE alone shows `trace_en` (10_state.md R34). -/
theorem readRegister_untraced {r : BitVec 3} {s : State} (h : r ≠ s.cfg.registers.fsmState) :
    readRegister r s.untraced = readRegister r s := by
  unfold readRegister
  rw [untraced_cfg, if_neg h, if_neg h]
  rfl

/-- A command without a table, but TRACE and REG_RD of FSMSTATE, does not look at tracing. -/
theorem exec_untraced_of_no_table {i : Instr} {s : State} (hs : sequenceOf s.cfg i = []) (ht : ∀ en, i ≠ .trace en)
    (hr : i ≠ .regRd s.cfg.registers.fsmState) : exec i s.untraced = mapNext State.untraced (exec i s) := by
  cases i with
  | init f =>
    change execInit f s.untraced = mapNext _ (execInit f s)
    unfold execInit
    rw [untraced_initialized, untraced_cfg]
    split
    · rfl
    · cases divisor s.cfg f <;> rfl
  | regRd r =>
    change execRegRd r s.untraced = mapNext _ (execRegRd r s)
    unfold execRegRd
    rw [readRegister_untraced (fun h => hr (congrArg _ h))]
    cases readRegister r s <;> rfl
  | bufRd j =>
    change execBufRd j s.untraced = mapNext _ (execBufRd j s)
    unfold execBufRd
    rw [readBuf_untraced]
    cases readBuf j s <;> rfl
  | trace en => exact absurd rfl (ht en)
  | status | decode _ | bufWr _ _ => rfl
  | start | stop | txa _ _ | txb _ | rx _ | rdByte _ | wrByte _ _ | wrPage _ _ | seqRd _ _ | waitWc => cases hs

theorem exec_untraced {i : Instr} {s : State} (ht : ∀ en, i ≠ .trace en) (hr : i ≠ .regRd s.cfg.registers.fsmState) :
    exec i s.untraced = mapNext State.untraced (exec i s) := by
  obtain hrun | htable | hillegal := exec_shape s.cfg i
  · rw [hrun, hrun]
    exact runCommand_untraced i s
  · exact exec_untraced_of_no_table htable ht hr
  · rw [hillegal, hillegal]
    rfl

/-- What an outcome without tracing says of the two ways a command ends with it. -/
theorem agree_of_eq_mapNext_untraced {o o' : Host.Outcome State Fault Refusal} (h : o' = mapNext State.untraced o) :
    (∀ t, o = .next t → ∃ u, o' = .next u ∧ u.untraced = t.untraced) ∧ ∀ r, o = .refused r → o' = .refused r := by
  subst h
  refine ⟨?_, ?_⟩
  · rintro t rfl
    exact ⟨t.untraced, rfl, untraced_untraced t⟩
  · rintro r rfl
    rfl

/-- Settles O57: no move looks at what tracing adds to the state, and of the other commands TRACE and REG_RD alone do. -/
theorem tracingChangesNothingElse : Obligations.TracingChangesNothingElse := by
  unfold Obligations.TracingChangesNothingElse
  exact ⟨fun s i ht hr => agree_of_eq_mapNext_untraced (exec_untraced ht hr),
    fun s => agree_of_eq_mapNext_untraced (resume_untraced s)⟩

end Sys2Proof.Machine
end

section
/-! PROOFS. Access commands: TRACE, REG_RD, BUF_WR and BUF_RD respond in the step that takes them, and what they read or write
decides the next state (43_access_commands.md R220 to R224). -/

namespace Sys2Proof.Machine

/-- Settles O49: OK is the zero word. -/
theorem traceSetsTheEnable : Obligations.TraceSetsTheEnable := by
  unfold Obligations.TraceSetsTheEnable
  exact fun _ _ => rfl

/-! ### REG_RD -/

/-- REG_RD of an address where a register stands responds its byte (43_access_commands.md R222). -/
theorem exec_regRd {reg : BitVec 3} {s : State} {v : Byte} (h : readRegister reg s = some v) :
    exec (.regRd reg) s = .next { s with seq := Seq.idle, resp := some (0x10#8 ++ v) } := by
  change execRegRd reg s = _
  unfold execRegRd
  rw [h]
  rfl

/-! The fields of the FSMSTATE view (10_state.md R34). -/

theorem extractLsb'_fsmState_phase (s : State) : s.fsmState.extractLsb' 0 2 = phaseCode s.phase :=
  BitVec.extractLsb'_append_eq_right

theorem getLsbD_fsmState_initialized (s : State) : s.fsmState.getLsbD 2 = s.initialized := by
  unfold State.fsmState
  rw [BitVec.getLsbD_append, BitVec.getLsbD_append]
  simp

theorem getLsbD_fsmState_traceEn (s : State) : s.fsmState.getLsbD 3 = s.traceEn := by
  unfold State.fsmState
  rw [BitVec.getLsbD_append, BitVec.getLsbD_append, BitVec.getLsbD_append]
  simp

theorem extractLsb'_fsmState_reserved (s : State) : s.fsmState.extractLsb' 4 4 = 0#4 := by
  unfold State.fsmState
  apply BitVec.eq_of_getLsbD_eq
  intro j _
  rw [BitVec.getLsbD_extractLsb', BitVec.getLsbD_append, if_neg (by omega), BitVec.getLsbD_append, if_neg (by omega),
    BitVec.getLsbD_append, if_neg (by omega)]
  simp

/-- STO stands while a STOP is in flight only, so no ready block shows it (10_state.md R27). -/
theorem ctrlField_sto_of_ready {s : State} (h : s.Inv) (hr : s.ready) :
    ctrlField s.cfg.ctrlLayout .sto s.ctrl = false := by
  obtain ⟨-, hflight⟩ := hr
  refine Bool.eq_false_iff.mpr fun hsto => ?_
  cases hflight.symm.trans (h.stoStop hsto)

/-- Settles O50: a register stands at each of the five addresses, and FSMSTATE reads back field by field. -/
theorem regRdReturnsTheRegister : Obligations.RegRdReturnsTheRegister := by
  unfold Obligations.RegRdReturnsTheRegister
  intro s
  refine ⟨exec_regRd (readRegister_ctrl s), exec_regRd (readRegister_rate s), exec_regRd (readRegister_status s),
    exec_regRd (readRegister_data s), ⟨s.fsmState, exec_regRd (readRegister_fsmState s), ?_, ?_, ?_, ?_⟩,
    ctrlField_sto_of_ready⟩
  · exact extractLsb'_fsmState_reserved s
  · exact getLsbD_fsmState_traceEn s
  · exact getLsbD_fsmState_initialized s
  · rw [extractLsb'_fsmState_phase]
    cases s.phase <;> rfl

/-! ### BUF_WR and BUF_RD -/

/-- Settles O51: the write rule of BUF, which the response leaves alone. -/
theorem bufWrWritesOneByte : Obligations.BufWrWritesOneByte := by
  unfold Obligations.BufWrWritesOneByte
  intro s idx val
  refine ⟨respond .ok 0x00#8 (writeBuf idx val s), rfl, rfl, fun hidx => ?_, fun k hk => ?_⟩
  · rw [readBuf_respond, readBuf_writeBuf_same hidx]
  · rw [readBuf_respond, readBuf_writeBuf_other hk.symm]

/-- BUF_RD of a byte that was written responds it (43_access_commands.md R224). -/
theorem exec_bufRd_written {idx v : Byte} {s : State} (h : readBuf idx s = some v) :
    exec (.bufRd idx) s = .next { s with seq := Seq.idle, resp := some (0x10#8 ++ v) } := by
  change execBufRd idx s = _
  unfold execBufRd
  rw [h]
  rfl

/-- BUF_RD of a byte never written is refused (20_memory.md R63). -/
theorem exec_bufRd_unwritten {idx : Byte} {s : State} (h : readBuf idx s = none) :
    exec (.bufRd idx) s = .refused .unwrittenBuffer := by
  change execBufRd idx s = _
  unfold execBufRd
  rw [h]

/-- Settles O52: the byte of BUF decides between the response and the refusal. -/
theorem bufRdReturnsWrittenByte : Obligations.BufRdReturnsWrittenByte := by
  unfold Obligations.BufRdReturnsWrittenByte
  exact fun s idx => ⟨fun v => exec_bufRd_written, exec_bufRd_unwritten⟩

end Sys2Proof.Machine
end

section
/-! PROOFS. Exceptions and hangs: an illegal word is a response and nothing else (60_exceptions.md R241, R242), and a
primitive that nobody answers stays in flight for ever (R251, 20_memory.md R73). -/

namespace Sys2Proof.Machine

/-! ### An illegal word -/

/-- A ready block with a word on the port that does not decode raises the one exception (R241). -/
theorem step_illegal {s : State} {w : CmdWord} {c : IllegalCause} {ws : List CmdWord} (hr : s.resetPin.head? ≠ some true)
    (hc : s.seq.cmd = none) (hp : s.port = w :: ws) (hd : decode s.cfg w = .error c) :
    step s = .next (raiseIllegal c { s with port := ws, resetPin := s.resetPin.tail }) := by
  unfold step
  rw [samplePort_free hr]
  simp only [hc, hp, hd]

/-- Settles O10: the exception is the ERR word of its cause. -/
theorem illegalWordOnlyResponds : Obligations.IllegalWordOnlyResponds := by
  unfold Obligations.IllegalWordOnlyResponds
  intro s w c ws hr hc hp hd
  refine ⟨respWord .err c.code 0x00#8, step_illegal hr hc hp hd, ?_⟩
  cases c <;> simp [respWord_err]

/-! ### A bus that never answers -/

/-- An empty script answers no poll, and no poll changes it (log 12). -/
theorem pollEnv_silent {s : State} (h : s.env = .scripted [] []) (p : Prim) : pollEnv p s = (none, s) := by
  conv_rhs => rw [← State.scripted_self h]
  unfold pollEnv
  rw [h]
  rfl

theorem busTurn_silent {s : State} (h : s.env = .scripted [] []) : busTurn s = s := by
  unfold busTurn
  simp only [pollEnv_silent h]
  split <;> rfl

/-- A primitive is in flight in a command, its completion flag not up, on a bus that never answers, and no reset is to
come (R251). -/
structure State.Hangs (s : State) : Prop where
  env : s.env = .scripted [] []
  resetPin : s.resetPin = []
  flight : ∃ p, s.inflight = some p
  awaits : s.Awaits
  entry : ∃ i act, s.seq.cmd = some i ∧ (sequenceOf s.cfg i)[s.seq.pc]? = some act

/-- The sequencer polls in vain, and the turn of the bus changes nothing. -/
theorem State.Hangs.move_eq {s : State} (h : s.Hangs) : move s = .next s := by
  obtain ⟨p, hp⟩ := h.flight
  obtain ⟨i, act, hc, ht⟩ := h.entry
  obtain ⟨hw, hunseen⟩ := h.awaits p hp
  rw [move_poll hc hw ht, hunseen, busTurn_silent h.env]
  rfl

theorem State.Hangs.runMoves_eq {s : State} (h : s.Hangs) (n : Nat) : runMoves n s = .next s := by
  obtain ⟨i, -, hc, -⟩ := h.entry
  induction n with
  | zero => rfl
  | succ n ih => rw [runMoves_step hc h.move_eq, ih]

theorem State.Hangs.step_eq {s : State} (h : s.Hangs) : step s = .next s := by
  obtain ⟨i, -, hc, -⟩ := h.entry
  have hpin : { s with resetPin := s.resetPin.tail } = s := by
    rw [h.resetPin, List.tail_nil, ← h.resetPin]
  rw [step_busy (by simp [h.resetPin]) (by simp [hc]), hpin]
  exact h.runMoves_eq _

/-- There is no time-out (R251). -/
theorem State.Hangs.run_eq {s : State} (h : s.Hangs) (n : Nat) : Host.Core.run Sys2Proof.core n s = .next s := by
  induction n with
  | zero => rfl
  | succ n ih =>
    rw [run_succ, h.step_eq]
    exact ih

/-- By the invariant the sequencer waits for the primitive in flight at an entry of its command (10_state.md R36, R37). -/
theorem State.Inv.hangs {s : State} {p : Prim} (h : s.Inv) (he : s.env = .scripted [] []) (hpin : s.resetPin = [])
    (hf : s.inflight = some p) : s.Hangs where
  env := he
  resetPin := hpin
  flight := ⟨p, hf⟩
  awaits := fun q hq => ⟨h.flightWaited q hq, h.flightUnseen q hq⟩
  entry := by
    have hne : s.seq.cmd ≠ none := fun hc => nomatch (h.readyWaits hc).symm.trans (h.flightWaited p hf)
    obtain ⟨i, hi⟩ := Option.ne_none_iff_exists'.mp hne
    exact ⟨i, _, hi, List.getElem?_eq_getElem (h.pcInTable i hi)⟩

/-- The command of TXA, by the fields of its control byte (30_encoding.md R107). -/
theorem primCommand_append (sla : BitVec 7) (rw : BitVec 1) : primCommand (.txa (sla ++ rw)) = .txa sla rw := by
  rw [primCommand, addressOf_append, directionOf_append]

/-- The first entry of the command of a primitive. -/
theorem sequenceOf_command_head (c : Config.Params) (p : Prim) : (sequenceOf c (primCommand p))[0]? = some (.prim p) := by
  obtain ⟨act, -, -, ht, -⟩ := sequenceOf_command c p
  rw [ht]
  rfl

section Command
variable {s : State} {p : Prim} (he : s.env = .scripted [] [])
  (hpin : s.resetPin = [])
include he hpin

/-- The primitive of its own command hangs once it is launched. -/
theorem launch_hangs : (launch p (accept (primCommand p) s)).Hangs where
  env := he
  resetPin := hpin
  flight := ⟨p, rfl⟩
  awaits := fun q hq => by
    obtain rfl : p = q := Option.some.inj hq
    exact ⟨rfl, completionSeen_launch _ _ _⟩
  entry := ⟨_, _, rfl, sequenceOf_command_head s.cfg p⟩

/-- The command of a primitive goes no further than its launch. -/
theorem exec_command_hangs (hr : s.ready) (hi : s.initialized = true) (hl : legalPhase p s.phase) :
    exec (primCommand p) s = .next (launch p (accept (primCommand p) s)) := by
  have hk : contract p (accept (primCommand p) s) = none := contract_eq_none hi hr.2 hl
  have hmove : move (accept (primCommand p) s) = .next (launch p (accept (primCommand p) s)) := by
    rw [move_issue rfl rfl (sequenceOf_command_head s.cfg p)]
    simp only [issue, issuePrim, hk]
  rw [exec_command, runMoves_step rfl hmove]
  exact (launch_hangs he hpin).runMoves_eq _

end Command

/-- Settles O26: a hanging state is its own next state, by the invariant or by the launch. -/
theorem unansweredPrimitiveHangs : Obligations.UnansweredPrimitiveHangs := by
  unfold Obligations.UnansweredPrimitiveHangs
  intro s he hpin
  refine ⟨fun p h hf => (h.hangs he hpin hf).run_eq, fun i p hr hi hl hip => ?_⟩
  obtain rfl : i = primCommand p := by
    obtain ⟨rfl, rfl⟩ | ⟨rfl, rfl⟩ | ⟨sla, rw, rfl, rfl⟩ | ⟨b, rfl, rfl⟩ | ⟨ack, rfl, rfl⟩ := hip
    · rfl
    · rfl
    · exact (primCommand_append sla rw).symm
    · rfl
    · rfl
  exact ⟨_, exec_command_hangs he hpin hr hi hl, rfl, rfl, rfl, rfl, rfl, rfl, rfl, (launch_hangs he hpin).run_eq⟩

end Sys2Proof.Machine
end

section
/-! PROOFS. Idling and reset: what a step is with no word to take and with the reset input asserted
(70_reset_and_hazards.md R270 to R272), and how a reset makes INIT legal again (R276). -/

namespace Sys2Proof.Machine

/-- A ready block with no word on the port uses a sample of the reset input and nothing else (R272). -/
theorem step_idle {s : State} (hr : s.resetPin.head? ≠ some true) (hc : s.seq.cmd = none) (hp : s.port = []) :
    step s = .next { s with resetPin := s.resetPin.tail } := by
  unfold step
  rw [samplePort_free hr]
  simp only [hc, hp]

/-- Settles O13: with nothing to execute and nothing to take, the sample of the reset input is the whole step. -/
theorem idleBlockDoesNothing : Obligations.IdleBlockDoesNothing := by
  unfold Obligations.IdleBlockDoesNothing
  exact fun s => step_idle

/-- With the reset input asserted the step is the reset event, whatever the block is executing (R270). -/
theorem step_reset {s : State} {pins : List Bool} (h : s.resetPin = true :: pins) :
    step s = .next (resetEvent { s with resetPin := pins }) := by
  unfold step
  rw [samplePort_reset h]

/-- Settles O14: the step is the reset event, which writes the table's values out and empties the response port (log 9). -/
theorem resetSetsEveryRegister : Obligations.ResetSetsEveryRegister := by
  unfold Obligations.ResetSetsEveryRegister
  exact fun s pins h => ⟨none, .inl rfl, step_reset h⟩

/-- An INIT that completes had a frequency with a divisor, and it leaves the block programmed with it (R132). -/
theorem exec_init_completed {s t : State} {freq : BitVec 32} (h : exec (.init freq) s = .next t) :
    ∃ d, divisor s.cfg freq = some d ∧ t = respond .ok 0x00#8 (s.programmed d) := by
  cases hi : s.initialized with
  | true => cases (exec_init_twice hi freq).symm.trans h
  | false =>
    cases hd : divisor s.cfg freq with
    | none => cases (exec_init_range hi hd).symm.trans h
    | some d => exact ⟨d, rfl, (Host.Outcome.next.inj ((exec_init_divisor hi hd).symm.trans h)).symm⟩

/-- Settles O17: a completed INIT leaves the block initialized; a reset clears that and keeps the configuration, which alone
gives the divisor. -/
theorem initOncePerReset : Obligations.InitOncePerReset := by
  unfold Obligations.InitOncePerReset
  intro s t f g
  refine ⟨fun h => ?_, fun h => ?_⟩ <;> obtain ⟨d, hd, rfl⟩ := exec_init_completed h
  · exact exec_init_twice rfl g
  · exact ⟨_, exec_init_divisor rfl hd, rfl⟩

end Sys2Proof.Machine
end

section
/-! PROOFS. The worked encodings, each the encoding of a well-formed command (30_encoding.md section 8), and the operand
values that the decoder rejects, given to exec past it (60_exceptions.md R243). -/

namespace Sys2Proof

/-- A word that is known to be a well-formed instruction's encoding decodes to it (30_encoding.md R105). -/
theorem decode_of_encode_eq {c : Config.Params} {i : Instr} {w : CmdWord} (hw : i.wellFormed c = true)
    (he : encode i = w) : decode c w = .ok i :=
  he ▸ decodeOfEncodeIsTheInstruction c i hw

/-- Settles O1: the command each word stands for is well formed with R8's parameters, and the word is its encoding. -/
theorem decodeReadsWorkedEncodings : Obligations.DecodeReadsWorkedEncodings := by
  unfold Obligations.DecodeReadsWorkedEncodings
  and_intros <;> exact decode_of_encode_eq rfl rfl

end Sys2Proof

namespace Sys2Proof.Machine

/-- The exception of a field value the instruction does not take is a response and nothing else (60_exceptions.md R242). -/
theorem raiseIllegal_illegalField (s : State) : raiseIllegal .illegalField s = { s with resp := some 0xE300#16 } := by
  rw [raiseIllegal, respWord_err]

theorem exec_wrPage_zero (addr : Byte) (s : State) :
    exec (.wrPage addr 0#8) s = .next (raiseIllegal .illegalField s) := rfl

theorem exec_seqRd_zero (addr : Byte) (s : State) :
    exec (.seqRd addr 0#8) s = .next (raiseIllegal .illegalField s) := rfl

/-- REG_RD of an address where no register stands (10_state.md R22). -/
theorem exec_regRd_reserved {reg : BitVec 3} {s : State} (h : reg ∉ s.cfg.registers.addrs) :
    exec (.regRd reg) s = .next (raiseIllegal .illegalField s) := by
  change execRegRd reg s = _
  unfold execRegRd
  rw [readRegister_reserved h]

/-- Settles O12: each of the three raises the exception of cause 3. -/
theorem illFormedOperandsAreIllegal : Obligations.IllFormedOperandsAreIllegal := by
  unfold Obligations.IllFormedOperandsAreIllegal
  intro s addr reg hreg
  rw [← raiseIllegal_illegalField]
  exact ⟨exec_wrPage_zero addr s, exec_seqRd_zero addr s, exec_regRd_reserved hreg⟩

end Sys2Proof.Machine
end
